-- ==== Sys2Proof/Word.lean ====
section
/-!
DEFINITION. The word types of HUFFCORE: 32-bit registers and bus words, bytes (00_scope.md R12, R13). Every value
is unsigned.
-/

namespace Sys2Proof

/-- A register or a bus word: 32 bits, bit 0 the least significant (R12). -/
abbrev Word := BitVec 32

/-- A symbol or a payload byte, 0x00..0xFF (R9). -/
abbrev Byte := BitVec 8

end Sys2Proof
end

