-- ==== Sys2Proof/Config.lean ====
section
/-!
DEFINITION. What one HUFFCORE device fixes (00_scope.md R8) and the free values of the model: the fresh draws of
10_state.md R53 and 20_memory.md R67. The free values have no body: no proof can evaluate one.
-/

namespace Sys2Proof.Config

/-- The OPEN parameters of R8. They are data of the state, so a statement over every state holds for every
choice of them (U1, U2). -/
structure Params where
  /-- IN_CAP: the capacity of IN_BUF in bytes. -/
  inCap : Nat
  /-- OUT_CAP: the capacity of OUT_BUF in bytes. -/
  outCap : Nat
  /-- BB_CAP: the capacity of BITBUF in bits. -/
  bbCap : Nat
  /-- BASE: the bus address of offset 0. -/
  base : Nat
  deriving DecidableEq, Repr

/-- The capacities R8 suggests. R8 suggests no BASE.
Mark: DESIGN CHOICE (log entry 1): BASE is 0 in `State.reset`. unsafe: a proof about reset alone could lean on it. -/
def suggested : Params := { inCap := 65536, outCap := 65860, bbCap := 526848, base := 0 }

/-- NODE_CAP: entries of the NODE arena (R8). -/
abbrev nodeCap : Nat := 511

/-- NIL: the child index a Leaf's window words show (R8). -/
abbrev nil : BitVec 9 := 0x1FF

/-- CODE_MAX: the longest code in bits (R8, R9). -/
abbrev codeMax : Nat := 255

/-- ALPHABET: the number of symbols (R8, R9). -/
abbrev alphabet : Nat := 256

/-- The size of the offset space, 16 MiB (20_memory.md R54). -/
abbrev regionSize : Nat := 16777216

/-- The fresh draws of R53: what the read with this number returns from an unspecified location, an arbitrary
value under no law. A draw of more than 32 bits (a NODE or CODE entry read by ENGINE) takes further lanes.
Free value (log entry 2). safe. -/
opaque freshWord : (draw lane : Nat) → Word

/-- What stands where a walk over NODE leaves the arena or finds no end, which happens only in a state that
breaks R48. Free value (log entry 7). safe. -/
opaque strayLeaf : (index : Nat) → Byte

end Sys2Proof.Config
end

