-- ==== Sys2Proof/Syntax.lean ====
section
/-!
DEFINITION. The command set of HUFFCORE: one constructor per row of spec/opcode_table.json (30_encoding.md R76).
No command has an operand field (R75).
-/

namespace Sys2Proof

/-- The thirteen commands, in the order of R76. -/
inductive Instr where
  | nop
  | freqBuild
  | treeBuild
  | codeExtract
  | treeSerialize
  | encodeData
  | pack
  | unpack
  | treeDeserialize
  | decodeData
  | compress
  | decompress
  | out2in
  deriving DecidableEq, Repr

/-- Every command, in the order of R76. -/
def Instr.all : List Instr :=
  [.nop, .freqBuild, .treeBuild, .codeExtract, .treeSerialize, .encodeData, .pack, .unpack,
    .treeDeserialize, .decodeData, .compress, .decompress, .out2in]

/-- The OPCODE field of each command (R76). -/
def Instr.opcode : Instr → Byte
  | .nop => 0x00
  | .freqBuild => 0x10
  | .treeBuild => 0x11
  | .codeExtract => 0x12
  | .treeSerialize => 0x13
  | .encodeData => 0x14
  | .pack => 0x15
  | .unpack => 0x20
  | .treeDeserialize => 0x21
  | .decodeData => 0x22
  | .compress => 0x30
  | .decompress => 0x31
  | .out2in => 0x40

end Sys2Proof
end

