-- ==== Sys2Proof/WellFormed.lean ====
section
/-!
DEFINITION. The checks on what is given to the machine: a command word (30_encoding.md R77), a command, and the
parameters of a device (00_scope.md R8).
-/

namespace Sys2Proof

/-- RSVD, bits [31:8] of a command word (R74). -/
def rsvdField (w : Word) : BitVec 24 := w.extractLsb' 8 24

/-- OPCODE, bits [7:0] of a command word (R74). -/
def opcodeField (w : Word) : Byte := w.extractLsb' 0 8

/-- R77: RSVD must be 0. -/
def rsvdClear (w : Word) : Bool := rsvdField w == 0

/-- R77: OPCODE must be in the table of R76. -/
def opcodeKnown (w : Word) : Bool := (Instr.all.map Instr.opcode).contains (opcodeField w)

/-- A command word that R77 does not call illegal. -/
def wordWellFormed (w : Word) : Bool := rsvdClear w && opcodeKnown w

/-- A command is well formed when its word is. A command has no operand (R75), so nothing else can be ill formed. -/
def wellFormed (i : Instr) : Bool := wordWellFormed (i.opcode.setWidth 32)

/-- R8: IN_CAP and OUT_CAP are multiples of 4 from 4 to 2^22. -/
def byteCapOk (n : Nat) : Bool := n % 4 == 0 && decide (4 ≤ n) && decide (n ≤ 2 ^ 22)

/-- R8: BB_CAP is a multiple of 32 from 4096 to 2^25. -/
def bitCapOk (n : Nat) : Bool := n % 32 == 0 && decide (4096 ≤ n) && decide (n ≤ 2 ^ 25)

/-- R8: BASE is a multiple of 2^24. -/
def baseOk (n : Nat) : Bool := n % 2 ^ 24 == 0

/-- The constraints of R8 on the OPEN parameters. -/
def paramsWellFormed (p : Config.Params) : Bool :=
  byteCapOk p.inCap && byteCapOk p.outCap && bitCapOk p.bbCap && baseOk p.base

end Sys2Proof
end

