-- ==== Sys2Proof/Decode.lean ====
section
/-!
DEFINITION. The decoder and the encoder of command words (30_encoding.md R74, R76, R77). The decoder reads the
whole word and is total.
-/

namespace Sys2Proof

/-- Why a word is no command (R77). -/
inductive Reject where
  /-- bits [31:8] are not 0 -/
  | reservedBits
  /-- OPCODE is not in the table of R76 -/
  | unknownOpcode
  deriving DecidableEq, Repr

/-- The opcode map of R76. -/
def decodeOpcode (op : Byte) : Except Reject Instr :=
  if op = 0x00 then .ok .nop
  else if op = 0x10 then .ok .freqBuild
  else if op = 0x11 then .ok .treeBuild
  else if op = 0x12 then .ok .codeExtract
  else if op = 0x13 then .ok .treeSerialize
  else if op = 0x14 then .ok .encodeData
  else if op = 0x15 then .ok .pack
  else if op = 0x20 then .ok .unpack
  else if op = 0x21 then .ok .treeDeserialize
  else if op = 0x22 then .ok .decodeData
  else if op = 0x30 then .ok .compress
  else if op = 0x31 then .ok .decompress
  else if op = 0x40 then .ok .out2in
  else .error .unknownOpcode

/-- The decoder (R74, R77): RSVD must be 0 and OPCODE in the map. -/
def decode (w : Word) : Except Reject Instr :=
  if rsvdField w = 0 then decodeOpcode (opcodeField w) else .error .reservedBits

/-- The decoder's answer as an option: none for an illegal word. -/
def decode? (w : Word) : Option Instr :=
  match decode w with
  | .ok i => some i
  | .error _ => none

/-- The encoder: RSVD 0 above the OPCODE (R74, R76). -/
def encode (i : Instr) : Word := i.opcode.setWidth 32

/-- What the decoder reads from a command whose bits are `w`, numbered as spec/opcode_table.json numbers them. A
command is one 32-bit word, so the bits at and above `nbits` are 0 and the word is `w`. -/
def decodeTableWord (nbits w : Nat) : Option Instr := decode? (BitVec.ofNat 32 (w % 2 ^ nbits))

end Sys2Proof
end

