-- ==== Sys2Proof/Machine/Memory.lean ====
section
/-!
DEFINITION. Memories as lists of (address, value) pairs. A memory lists its SPECIFIED locations; a location that is
not listed is unspecified, and a read of it is a fresh draw (10_state.md R53). The canonical form: addresses
strictly rising.
-/

namespace Sys2Proof.Machine

/-- A memory of `α` cells: the specified locations, by rising address. IN_BUF and OUT_BUF are lists of Host.Cell. -/
abbrev Memory (α : Type) := List (Nat × α)

/-- What a location holds; none when it is unspecified (R53). -/
def Memory.get? {α : Type} : Memory α → Nat → Option α
  | [], _ => none
  | (a, v) :: m, k => if a = k then some v else Memory.get? m k

/-- A write defines a location (R53). -/
def Memory.set {α : Type} : Memory α → Nat → α → Memory α
  | [], k, v => [(k, v)]
  | (a, w) :: m, k, v =>
    if k < a then (k, v) :: (a, w) :: m
    else if k = a then (k, v) :: m
    else (a, w) :: Memory.set m k v

/-- Writes to consecutive locations from `k`. -/
def Memory.setList {α : Type} : Memory α → Nat → List α → Memory α
  | m, _, [] => m
  | m, k, v :: vs => Memory.setList (Memory.set m k v) (k + 1) vs

/-- The locations `lo ..< hi` become unspecified (R53, R89). -/
def Memory.forget {α : Type} (m : Memory α) (lo hi : Nat) : Memory α :=
  m.filter (fun c => decide (c.1 < lo) || decide (hi ≤ c.1))

/-- The memory whose locations `k ..< k + vs.length` hold `vs` and that has no other specified location. -/
def Memory.listFrom {α : Type} : Nat → List α → Memory α
  | _, [] => []
  | k, v :: vs => (k, v) :: Memory.listFrom (k + 1) vs

/-- The memory whose first locations hold `vs` and that has no other specified location. -/
def Memory.ofList {α : Type} (vs : List α) : Memory α := Memory.listFrom 0 vs

/-- Every address is above `lo`, and addresses rise strictly. -/
def Memory.risingFrom {α : Type} : Nat → Memory α → Bool
  | _, [] => true
  | lo, (a, _) :: m => decide (lo ≤ a) && Memory.risingFrom (a + 1) m

/-- The canonical form: addresses strictly rising. An unlisted location has no value, so no entry can equal it. -/
def Memory.wf {α : Type} (m : Memory α) : Bool := Memory.risingFrom 0 m

/-- Every specified location lies below the capacity. -/
def Memory.below {α : Type} (cap : Nat) (m : Memory α) : Bool := m.all (fun c => decide (c.1 < cap))

/-- Every location below `n` is specified. -/
def Memory.covers {α : Type} (n : Nat) (m : Memory α) : Bool :=
  (List.range n).all (fun k => (Memory.get? m k).isSome)

/-- One read (R53): the value of a specified location, or the fresh draw with the next number. The second
component is the number of draws taken so far. -/
def Memory.read {α : Type} (fresh : Nat → α) (m : Memory α) (k draws : Nat) : α × Nat :=
  match Memory.get? m k with
  | some v => (v, draws)
  | none => (fresh draws, draws + 1)

/-- Reads of the listed locations, in order; each unspecified one is a draw of its own (R53). -/
def Memory.readAll {α : Type} (fresh : Nat → α) (m : Memory α) : List Nat → Nat → List α × Nat
  | [], draws => ([], draws)
  | k :: ks, draws =>
    let (v, d) := Memory.read fresh m k draws
    let (vs, d') := Memory.readAll fresh m ks d
    (v :: vs, d')

/-- Reads of the locations `k ..< k + n`, in order. -/
def Memory.readRange {α : Type} (fresh : Nat → α) (m : Memory α) (k n draws : Nat) : List α × Nat :=
  Memory.readAll fresh m (List.range' k n) draws

end Sys2Proof.Machine
end

