-- ==== Sys2Proof/Machine/State.lean ====
section
/-!
DEFINITION. The state of HUFFCORE (10_state.md), plain data: every register of R25, the flags of R31, ENG of R24,
the six memories of R43 to R49, the device's parameters of R8, and the model's own fields (draws, the host's
accesses, the schedule, the bus answers).
-/

namespace Sys2Proof.Machine

/-- ENGINE's state (R24). -/
inductive Eng where
  | idle
  /-- the command word being performed -/
  | pending (w : Word)
  deriving DecidableEq, Repr

/-- The two agents (R20). -/
inductive Agent where
  | host
  | engine
  deriving DecidableEq, Repr

/-- STATUS.ERR (60_exceptions.md R130). The codes 0x0B..0xFF are reserved and never reported. -/
inductive ErrCode where
  | ok
  | illegalCmd
  | emptyInput
  | malformedPayload
  | invalidPadding
  | truncatedWalk
  | capacity
  | noFreq
  | noTree
  | noCode
  | uncodedSymbol
  deriving DecidableEq, Repr

/-- A NODE entry: the tagged variant of R16. Children are NODE indices of 9 bits (R78). -/
inductive NodeEntry where
  | leaf (sym : Byte) (weight : Word)
  | internal (left right : BitVec 9) (weight : Word)
  deriving DecidableEq, Repr

/-- A CODE entry (R49): PRESENT and PATH, first bit first. LEN is the length of the path. -/
structure CodeEntry where
  present : Bool
  path : List Bool
  deriving DecidableEq, Repr

/-- The width of a host access (20_memory.md R57). -/
inductive AccessSize where
  | byte
  | half
  | word
  deriving DecidableEq, Repr

/-- The bus response (R56). -/
inductive Resp where
  | okay
  | slverr
  deriving DecidableEq, Repr

/-- What the bus answers: data and response of a read, response of a write (R56). -/
inductive BusAnswer where
  | readData (data : Word) (resp : Resp)
  | writeDone (resp : Resp)
  deriving DecidableEq, Repr

/-- One input from outside the device. Addresses are bus addresses; the device sees address - BASE (R54). -/
inductive Input where
  /-- MemRead (R56), with the width R57 checks -/
  | read (addr : Nat) (size : AccessSize)
  /-- MemWrite (R56), with the width and the byte strobes R57 checks -/
  | write (addr : Nat) (size : AccessSize) (strobe : BitVec 4) (data : Word)
  /-- WAIT (R84): STATUS reads, repeated while BUSY = 1 -/
  | wait
  /-- power-on reset (R144) -/
  | powerOn
  deriving DecidableEq, Repr

/-- The machine (10_state.md). -/
structure State where
  /-- the OPEN parameters (R8); no step changes them -/
  params : Config.Params
  /-- ENG (R24); STATUS.BUSY is ENG = Pending -/
  eng : Eng
  /-- CTRL.IRQ_EN (R29) -/
  irqEn : Bool
  /-- STATUS.DONE (R31) -/
  done : Bool
  /-- STATUS.OVERRUN (R31) -/
  overrun : Bool
  /-- STATUS.FREQ_VALID (R31) -/
  freqValid : Bool
  /-- STATUS.TREE_VALID (R31) -/
  treeValid : Bool
  /-- STATUS.CODE_VALID (R31) -/
  codeValid : Bool
  /-- STATUS.ERR (R31); STATUS.ERROR is ERR != 0 -/
  err : ErrCode
  /-- STATUS.LAST_OP (R31) -/
  lastOp : Byte
  /-- ERR_INFO (R32) -/
  errInfo : Word
  /-- ERR_OP (R33) -/
  errOp : Byte
  /-- IN_LEN (R34) -/
  inLen : Word
  /-- OUT_LEN (R35) -/
  outLen : Word
  /-- BB_LEN (R36) -/
  bbLen : Word
  /-- CURSOR (R37) -/
  cursor : Word
  /-- ROOT (R38) -/
  root : BitVec 9
  /-- NODE_CNT (R39) -/
  nodeCnt : BitVec 10
  /-- SYM_CNT (R40) -/
  symCnt : BitVec 9
  /-- PAD (R41) -/
  pad : BitVec 3
  /-- IN_BUF (R43) -/
  inBuf : Memory Byte
  /-- OUT_BUF (R44) -/
  outBuf : Memory Byte
  /-- BITBUF (R45) -/
  bitBuf : Memory Bool
  /-- FREQ (R46) -/
  freq : Memory Word
  /-- NODE (R47) -/
  node : Memory NodeEntry
  /-- CODE (R49) -/
  code : Memory CodeEntry
  /-- the model's own: how many fresh draws have been taken (log entry 2) -/
  draws : Nat
  /-- the model's own: the host's accesses still to come, in order (log entry 3) -/
  inputs : List Input
  /-- the model's own: who moves when both agents can (log entry 4) -/
  schedule : List Agent
  /-- the model's own: the bus answers so far, newest first (log entry 3) -/
  answers : List BusAnswer
  deriving DecidableEq, Repr

/-- Why the machine stops. -/
inductive Fault where
  /-- Raised by `hostStep` on an address outside BASE..BASE+0xFFFFFF: no access of this device (R54; log entry
  5). safe: the machine stops. -/
  | outsideRegion
  deriving DecidableEq, Repr

/-- Why a command has no meaning. -/
inductive Refusal where
  /-- Raised by an arm of `exec` for a command without a meaning yet. safe: the machine stops. -/
  | notModelled (mnemonic : String)
  deriving DecidableEq, Repr

/-- Power-on reset of a device with parameters `p` (R53, R144): every register at its reset value, ENG = Idle, the
contents of all six memories unspecified. The model's own fields start empty (log entries 2 to 4). -/
def State.powerOn (p : Config.Params) : State where
  params := p
  eng := .idle
  irqEn := false
  done := false
  overrun := false
  freqValid := false
  treeValid := false
  codeValid := false
  err := .ok
  lastOp := 0
  errInfo := 0
  errOp := 0
  inLen := 0
  outLen := 0
  bbLen := 0
  cursor := 0
  root := 0
  nodeCnt := 0
  symCnt := 0
  pad := 0
  inBuf := []
  outBuf := []
  bitBuf := []
  freq := []
  node := []
  code := []
  draws := 0
  inputs := []
  schedule := []
  answers := []

/-- The machine right after power-on reset (R144), with the capacities R8 suggests (log entry 1). -/
def State.reset : State := State.powerOn Config.suggested

end Sys2Proof.Machine
end

