-- ==== Sys2Proof/Machine/Bits.lean ====
section
/-!
DEFINITION. Bit sequences, bytes and words (00_scope.md R13, 20_memory.md R63 to R65): first bit leftmost, which
is the most significant bit.
-/

namespace Sys2Proof.Machine

/-- The number a bit sequence spells, first bit most significant. -/
def natOfBits (bs : List Bool) : Nat := bs.foldl (fun n b => 2 * n + b.toNat) 0

/-- `bits8(v)`: the bits of a byte, most significant first (R13). -/
def bits8 (v : Byte) : List Bool := (List.range 8).map v.getMsbD

/-- `byte(s)`, the inverse of `bits8` (R13). -/
def byteOf (bs : List Bool) : Byte := BitVec.ofNat 8 (natOfBits bs)

/-- The 32 bits of a BB or PATH word: sequence bit i is word bit 31 - i (R65). -/
def bits32 (v : Word) : List Bool := (List.range 32).map v.getMsbD

/-- The word whose bit 31 - i is sequence bit i; missing bits are 0 (R65, R79). -/
def wordOfBits (bs : List Bool) : Word :=
  BitVec.ofNat 32 (natOfBits ((List.range 32).map (fun i => bs.getD i false)))

/-- The bytes of an IN or OUT word: byte m is in bits [31-8m : 24-8m] (R64). -/
def bytes4 (v : Word) : List Byte :=
  [v.extractLsb' 24 8, v.extractLsb' 16 8, v.extractLsb' 8 8, v.extractLsb' 0 8]

/-- A field of a word: `v` in the bits from `lo` up, 0 elsewhere (R12). -/
def fieldAt {n : Nat} (v : BitVec n) (lo : Nat) : Word := v.setWidth 32 <<< lo

/-- The word of four bytes, the first in bits [31:24]; missing bytes are 00 (R64, R84). -/
def wordOfBytes (bs : List Byte) : Word :=
  fieldAt (bs.getD 0 0) 24 ||| fieldAt (bs.getD 1 0) 16 ||| fieldAt (bs.getD 2 0) 8 ||| fieldAt (bs.getD 3 0) 0

/-- `ceil(n/8)` (R15). -/
def ceil8 (n : Nat) : Nat := (n + 7) / 8

/-- The padding count of n bits (R94). -/
def padCount (n : Nat) : Nat := (8 - n % 8) % 8

end Sys2Proof.Machine
end

