-- ==== Sys2Proof/Machine/Flags.lean ====
section
/-!
DEFINITION. The flags of STATUS and the interrupt line (10_state.md R31, R42; 60_exceptions.md R130, R133). The
engine has no arithmetic condition codes.
-/

namespace Sys2Proof.Machine

/-- The numeric error codes of R130. -/
def ErrCode.toByte : ErrCode → Byte
  | .ok => 0x00
  | .illegalCmd => 0x01
  | .emptyInput => 0x02
  | .malformedPayload => 0x03
  | .invalidPadding => 0x04
  | .truncatedWalk => 0x05
  | .capacity => 0x06
  | .noFreq => 0x07
  | .noTree => 0x08
  | .noCode => 0x09
  | .uncodedSymbol => 0x0A

/-- STATUS.BUSY: 1 exactly when ENG = Pending (R24, R31). -/
def State.busy (s : State) : Bool :=
  match s.eng with
  | .idle => false
  | .pending _ => true

/-- STATUS.ERROR: always equals (ERR != 0) (R31). -/
def State.error (s : State) : Bool := s.err.toByte != 0

/-- The interrupt line: irq = CTRL.IRQ_EN AND STATUS.DONE (R133). -/
def State.irq (s : State) : Bool := s.irqEn && s.done

/-- The STATUS word with the given bits [6:4] (R31). Bits 7 and [31:24] read 0. -/
def statusWith (s : State) (valids : BitVec 3) : Word :=
  fieldAt s.lastOp 16 ||| fieldAt s.err.toByte 8 ||| fieldAt valids 4 ||| fieldAt (BitVec.ofBool s.overrun) 3 |||
    fieldAt (BitVec.ofBool s.error) 2 ||| fieldAt (BitVec.ofBool s.done) 1 ||| fieldAt (BitVec.ofBool s.busy) 0

/-- FREQ_VALID, TREE_VALID and CODE_VALID as bits 0, 1 and 2: bits [6:4] of STATUS (R31). -/
def validBits (s : State) : BitVec 3 :=
  (BitVec.ofBool s.codeValid).setWidth 3 <<< 2 ||| (BitVec.ofBool s.treeValid).setWidth 3 <<< 1 |||
    (BitVec.ofBool s.freqValid).setWidth 3

/-- STATUS as it reads while ENG = Idle (R31). -/
def statusWord (s : State) : Word := statusWith s (validBits s)

/-- A STATUS write (R31): bit 1 clears DONE, bit 3 clears OVERRUN, nothing else changes. -/
def State.writeStatus (s : State) (v : Word) : State :=
  { s with done := s.done && !v.getLsbD 1, overrun := s.overrun && !v.getLsbD 3 }

end Sys2Proof.Machine
end

