-- ==== Sys2Proof/Machine/Operands.lean ====
section
/-!
DEFINITION. The implicit operands of the commands (30_encoding.md R75): how ENGINE reads each memory. Every read of
an unspecified location is a fresh draw (10_state.md R53); a read answers the values and the number of draws taken
so far. A command reads each location once (log entry 6).
-/

namespace Sys2Proof.Machine

/-- The draw of a byte. -/
def freshByte (draw : Nat) : Byte := (Config.freshWord draw 0).setWidth 8

/-- The draw of a bit. -/
def freshBit (draw : Nat) : Bool := (Config.freshWord draw 0).getLsbD 0

/-- The draw of a count. -/
def freshCount (draw : Nat) : Word := Config.freshWord draw 0

/-- The draw of a NODE entry: any Leaf or any Internal. -/
def freshNode (draw : Nat) : NodeEntry :=
  if (Config.freshWord draw 0).getLsbD 0 then
    .leaf ((Config.freshWord draw 1).setWidth 8) (Config.freshWord draw 2)
  else
    .internal ((Config.freshWord draw 1).setWidth 9) ((Config.freshWord draw 2).setWidth 9)
      (Config.freshWord draw 3)

/-- The draw of a CODE entry: any PRESENT, any LEN in 0..255, any PATH of that length (R49). -/
def freshCode (draw : Nat) : CodeEntry :=
  { present := (Config.freshWord draw 0).getLsbD 31
    path := ((List.range 8).flatMap (fun j => bits32 (Config.freshWord draw (j + 1)))).take
      ((Config.freshWord draw 0).setWidth 8).toNat }

/-- `IN[0 .. IN_LEN)` (R43). -/
def State.readIn (s : State) : List Byte × Nat :=
  s.inBuf.readRange freshByte 0 s.inLen.toNat s.draws

/-- `OUT[0 .. OUT_LEN)` (R44). -/
def State.readOut (s : State) : List Byte × Nat :=
  s.outBuf.readRange freshByte 0 s.outLen.toNat s.draws

/-- `BB[from .. BB_LEN)` (R45). -/
def State.readBits (s : State) (start : Nat) : List Bool × Nat :=
  s.bitBuf.readRange freshBit start (s.bbLen.toNat - start) s.draws

/-- `FREQ[0 .. 256)` (R46). -/
def State.readFreq (s : State) : List Word × Nat :=
  s.freq.readRange freshCount 0 Config.alphabet s.draws

/-- `NODE[0 .. NODE_CNT)` (R47). -/
def State.readArena (s : State) : List NodeEntry × Nat :=
  s.node.readRange freshNode 0 s.nodeCnt.toNat s.draws

/-- `CODE[x]` for each byte x of a sequence, in order (R49). -/
def State.readCodes (s : State) (xs : List Byte) (draws : Nat) : List CodeEntry × Nat :=
  s.code.readAll freshCode (xs.map BitVec.toNat) draws

/-- Entry i of an arena. An index outside the arena answers a leaf with a free symbol (log entry 7); a state that
meets R48 has none. -/
def nodeAt (arena : List NodeEntry) (i : Nat) : NodeEntry :=
  arena.getD i (.leaf (Config.strayLeaf i) 0)

/-- `isLeaf` tests the tag (R16). -/
def NodeEntry.isLeaf : NodeEntry → Bool
  | .leaf _ _ => true
  | .internal _ _ _ => false

end Sys2Proof.Machine
end

