-- ==== Sys2Proof/Machine/Ops.lean ====
section
/-!
DEFINITION. The shared operations: issue, failure, completion (which is how HUFFCORE takes an error), the return
from an error, making memories unspecified, and the soft reset (40_control.md, 60_exceptions.md,
70_reset_and_hazards.md).
-/

namespace Sys2Proof.Machine

/-- `Err(CODE, info, op)` (R88, R89): the code, ERR_INFO and the opcode of the primitive that raised it. -/
structure Failure where
  code : ErrCode
  info : Word
  op : Byte
  deriving DecidableEq, Repr

/-- How a command ends, with the writes it has made: on success, or on failure (R88, R89). -/
inductive Result where
  | success (s : State)
  | failed (e : Failure) (s : State)
  deriving DecidableEq, Repr

/-- The steps of a composite command run in order; the first that fails stops the sequence (R124, R126). -/
def Result.andThen : Result → (State → Result) → Result
  | .success s, f => f s
  | .failed e s, _ => .failed e s

/-- `raise Err(CODE, info)` in the rule of command `i` (R89); `s` holds the writes the rule lists on failure. -/
def raise (i : Instr) (code : ErrCode) (info : Nat) (s : State) : Result :=
  .failed { code := code, info := BitVec.ofNat 32 info, op := i.opcode } s

/-- The completion writes (R88). An error saves nothing else, changes no mode and no mask, and transfers control
nowhere (R135). -/
def State.completeWith (s : State) (code : ErrCode) (info : Word) (op : Byte) : State :=
  { s with eng := .idle, done := true, err := code, errInfo := info, errOp := op }

/-- Completion of a perform step with its outcome (R88). -/
def complete : Result → State
  | .success s => s.completeWith .ok 0 0
  | .failed e s => s.completeWith e.code e.info e.op

/-- A command always completes (R152). -/
def finish (r : Result) : Host.Outcome State Fault Refusal := .next (complete r)

/-- Issue of the word `w` (R85). -/
def State.issue (s : State) (w : Word) : State :=
  { s with eng := .pending w, done := false, err := .ok, lastOp := opcodeField w }

/-- An illegal word raises ILLEGAL_CMD with the word as info and its low byte as op, and writes nothing else
(R90). -/
def illegal (w : Word) (s : State) : Result :=
  .failed { code := .illegalCmd, info := w, op := opcodeField w } s

/-- ACK (R84), the host's return from an error or a completion (R136): clears DONE and OVERRUN. -/
def State.acknowledge (s : State) : State := s.writeStatus 0x0000000A

/-- The six memories (R43 to R49). -/
inductive MemId where
  | inBuf
  | outBuf
  | bitBuf
  | freq
  | node
  | code
  deriving DecidableEq, Repr

/-- `Dest(w)`: the memories a command writes (R146). -/
def dest : Instr → List MemId
  | .nop => []
  | .freqBuild => [.freq]
  | .treeBuild => [.node]
  | .codeExtract => [.code]
  | .treeSerialize => [.bitBuf]
  | .encodeData => [.bitBuf]
  | .pack => [.outBuf]
  | .unpack => [.bitBuf]
  | .treeDeserialize => [.node]
  | .decodeData => [.outBuf]
  | .compress => [.freq, .node, .code, .bitBuf, .outBuf]
  | .decompress => [.bitBuf, .node, .outBuf]
  | .out2in => [.inBuf]

/-- Dest of the pending command; none while Idle and none for an illegal word (R145, R146). -/
def State.destPending (s : State) : List MemId :=
  match s.eng with
  | .idle => []
  | .pending w =>
    match decode w with
    | .ok i => dest i
    | .error _ => []

/-- Soft reset (R145): a pending command is discarded, the memories it writes become unspecified, every other
memory keeps its contents, and every register takes its reset value. -/
def State.softReset (s : State) : State :=
  let lost := s.destPending
  { State.powerOn s.params with
    inBuf := if MemId.inBuf ∈ lost then [] else s.inBuf
    outBuf := if MemId.outBuf ∈ lost then [] else s.outBuf
    bitBuf := if MemId.bitBuf ∈ lost then [] else s.bitBuf
    freq := if MemId.freq ∈ lost then [] else s.freq
    node := if MemId.node ∈ lost then [] else s.node
    code := if MemId.code ∈ lost then [] else s.code
    draws := s.draws
    inputs := s.inputs
    schedule := s.schedule
    answers := s.answers }

/-- Power-on reset while the host goes on (R144): everything but the parameters and the model's own fields. -/
def State.powerCycle (s : State) : State :=
  { State.powerOn s.params with
    draws := s.draws
    inputs := s.inputs
    schedule := s.schedule
    answers := s.answers }

end Sys2Proof.Machine
end

