-- ==== Sys2Proof/Machine/Bus.lean ====
section
/-!
DEFINITION. The host's bus accesses: the address map, reads and writes of registers and windows, SLVERR, and
accesses while a command is pending (20_memory.md; 30_encoding.md R78, R79; 10_state.md R25 to R41).
-/

namespace Sys2Proof.Machine

/-- The registers of R25. -/
inductive Reg where
  | id
  | version
  | inCapR
  | outCapR
  | bbCapR
  | nodeCapR
  | ctrl
  | cmd
  | status
  | errInfo
  | errOp
  | inLen
  | outLen
  | bbLen
  | cursor
  | root
  | nodeCnt
  | symCnt
  | pad
  deriving DecidableEq, Repr

/-- The register offsets (R25). -/
def Reg.offset : Reg → Nat
  | .id => 0x000
  | .version => 0x004
  | .inCapR => 0x008
  | .outCapR => 0x00C
  | .bbCapR => 0x010
  | .nodeCapR => 0x014
  | .ctrl => 0x020
  | .cmd => 0x024
  | .status => 0x028
  | .errInfo => 0x02C
  | .errOp => 0x030
  | .inLen => 0x040
  | .outLen => 0x044
  | .bbLen => 0x048
  | .cursor => 0x04C
  | .root => 0x050
  | .nodeCnt => 0x054
  | .symCnt => 0x058
  | .pad => 0x05C

/-- Every register of R25. -/
def Reg.all : List Reg :=
  [.id, .version, .inCapR, .outCapR, .bbCapR, .nodeCapR, .ctrl, .cmd, .status, .errInfo, .errOp, .inLen, .outLen,
    .bbLen, .cursor, .root, .nodeCnt, .symCnt, .pad]

/-- What a mapped word offset names (R55, R62). -/
inductive Target where
  | reg (r : Reg)
  /-- word s of the FREQ window -/
  | freqWord (s : Nat)
  /-- word w of NODE entry i -/
  | nodeWord (i w : Nat)
  /-- word w of CODE entry s -/
  | codeWord (s w : Nat)
  /-- word k of the IN window -/
  | inWord (k : Nat)
  /-- word k of the OUT window -/
  | outWord (k : Nat)
  /-- word k of the BB window -/
  | bbWord (k : Nat)
  deriving DecidableEq, Repr

/-- The address map (R25, R55) for an offset that is a multiple of 4; none for an unmapped offset (R58). -/
def target (p : Config.Params) (offset : Nat) : Option Target :=
  if offset < 0x001000 then (Reg.all.find? (fun r => r.offset == offset)).map Target.reg
  else if offset < 0x001400 then some (.freqWord ((offset - 0x001000) / 4))
  else if offset < 0x002000 then none
  else if offset < 0x003FF0 then some (.nodeWord ((offset - 0x002000) / 16) ((offset - 0x002000) % 16 / 4))
  else if offset < 0x004000 then none
  else if offset < 0x008000 then some (.codeWord ((offset - 0x004000) / 64) ((offset - 0x004000) % 64 / 4))
  else if offset < 0x400000 then none
  else if offset < 0x400000 + p.inCap then some (.inWord ((offset - 0x400000) / 4))
  else if offset < 0x800000 then none
  else if offset < 0x800000 + p.outCap then some (.outWord ((offset - 0x800000) / 4))
  else if offset < 0xC00000 then none
  else if offset < 0xC00000 + p.bbCap / 8 then some (.bbWord ((offset - 0xC00000) / 4))
  else none

/-- The target of an access the device admits (R57, R58): 32 bits wide, every byte strobe set, at a multiple of 4,
mapped. -/
def admitted (p : Config.Params) (offset : Nat) (size : AccessSize) (strobe : BitVec 4) : Option Target :=
  if size = .word ∧ strobe = 0xF ∧ offset % 4 = 0 then target p offset else none

/-- CTRL as it reads (R29): SRST and the reserved bits read 0. -/
def ctrlWord (s : State) : Word := (BitVec.ofBool s.irqEn).setWidth 32

/-- A register read while ENG = Idle (R25 to R41). CMD reads 0 (R30). -/
def readReg (s : State) : Reg → Word
  | .id => 0x48554646
  | .version => 0x00010000
  | .inCapR => BitVec.ofNat 32 s.params.inCap
  | .outCapR => BitVec.ofNat 32 s.params.outCap
  | .bbCapR => BitVec.ofNat 32 s.params.bbCap
  | .nodeCapR => BitVec.ofNat 32 Config.nodeCap
  | .ctrl => ctrlWord s
  | .cmd => 0
  | .status => statusWord s
  | .errInfo => s.errInfo
  | .errOp => s.errOp.setWidth 32
  | .inLen => s.inLen
  | .outLen => s.outLen
  | .bbLen => s.bbLen
  | .cursor => s.cursor
  | .root => s.root.setWidth 32
  | .nodeCnt => s.nodeCnt.setWidth 32
  | .symCnt => s.symCnt.setWidth 32
  | .pad => s.pad.setWidth 32

/-- Word w (0 to 3) of a NODE entry (R78). -/
def nodeWord : NodeEntry → Nat → Word
  | .leaf _ weight, 0 => weight
  | .leaf sym _, 1 => fieldAt (1 : BitVec 1) 31 ||| fieldAt sym 0
  | .leaf _ _, _ => Config.nil.setWidth 32
  | .internal _ _ weight, 0 => weight
  | .internal _ _ _, 1 => 0
  | .internal left _ _, 2 => left.setWidth 32
  | .internal _ right _, _ => right.setWidth 32

/-- Word w (0 to 15) of a CODE entry (R79): PRESENT and LEN, eight PATH words, seven reserved words. -/
def codeWord (e : CodeEntry) (w : Nat) : Word :=
  if w = 0 then fieldAt (BitVec.ofBool e.present) 31 ||| fieldAt (BitVec.ofNat 9 e.path.length) 0
  else if w ≤ 8 then wordOfBits (e.path.drop (32 * (w - 1)))
  else 0

/-- A window or register read while ENG = Idle, with the number of draws taken so far. Each unspecified byte, bit,
count or word is a fresh draw (R53, R60). A NODE entry at NODE_CNT or above is unspecified (R47, R78); the reserved
CODE words read 0 (U12). Log entry 8. -/
def readTarget (s : State) : Target → Word × Nat
  | .reg r => (readReg s r, s.draws)
  | .freqWord sym => s.freq.read freshCount sym s.draws
  | .nodeWord i w =>
    if i < s.nodeCnt.toNat then
      match s.node.get? i with
      | some e => (nodeWord e w, s.draws)
      | none => (Config.freshWord s.draws 0, s.draws + 1)
    else (Config.freshWord s.draws 0, s.draws + 1)
  | .codeWord sym w =>
    if 8 < w then (0, s.draws)
    else
      match s.code.get? sym with
      | some e => (codeWord e w, s.draws)
      | none => (Config.freshWord s.draws 0, s.draws + 1)
  | .inWord k =>
    let (bs, d) := s.inBuf.readRange freshByte (4 * k) 4 s.draws
    (wordOfBytes bs, d)
  | .outWord k =>
    let (bs, d) := s.outBuf.readRange freshByte (4 * k) 4 s.draws
    (wordOfBytes bs, d)
  | .bbWord k =>
    let (bits, d) := s.bitBuf.readRange freshBit (32 * k) 32 s.draws
    (wordOfBits bits, d)

/-- A read while ENG = Pending (R67): exact for ID, VERSION, the capacities, CTRL, and STATUS but for bits [6:4],
which are drawn; every other read is a free 32-bit draw, CMD included (log entry 8). -/
def readPending (s : State) : Target → Word × Nat
  | .reg .id => (readReg s .id, s.draws)
  | .reg .version => (readReg s .version, s.draws)
  | .reg .inCapR => (readReg s .inCapR, s.draws)
  | .reg .outCapR => (readReg s .outCapR, s.draws)
  | .reg .bbCapR => (readReg s .bbCapR, s.draws)
  | .reg .nodeCapR => (readReg s .nodeCapR, s.draws)
  | .reg .ctrl => (readReg s .ctrl, s.draws)
  | .reg .status => (statusWith s ((Config.freshWord s.draws 0).setWidth 3), s.draws + 1)
  | _ => (Config.freshWord s.draws 0, s.draws + 1)

/-- An admitted read (R60: no read has a side effect; the draw counter is the model's own). -/
def readMapped (s : State) (t : Target) : Word × Nat :=
  if s.busy then readPending s t else readTarget s t

/-- A CTRL write (R29): SRST = 1 performs the soft reset and the write's IRQ_EN is not applied; otherwise IRQ_EN is
stored. -/
def State.writeCtrl (s : State) (v : Word) : State :=
  if v.getLsbD 1 then s.softReset else { s with irqEn := v.getLsbD 0 }

/-- An admitted write while ENG = Idle. A write to a read-only location is ignored (R59); a window write sets no
length (R62). -/
def writeTarget (s : State) (v : Word) : Target → State
  | .reg .ctrl => s.writeCtrl v
  | .reg .cmd => s.issue v
  | .reg .status => s.writeStatus v
  | .reg .inLen => { s with inLen := v }
  | .reg .bbLen => { s with bbLen := v }
  | .inWord k => { s with inBuf := s.inBuf.setList (4 * k) (bytes4 v) }
  | .bbWord k => { s with bitBuf := s.bitBuf.setList (32 * k) (bits32 v) }
  | _ => s

/-- An admitted write while ENG = Pending (R68): CTRL and STATUS are accepted; any other is dropped and sets
OVERRUN. -/
def writePending (s : State) (v : Word) : Target → State
  | .reg .ctrl => s.writeCtrl v
  | .reg .status => s.writeStatus v
  | _ => { s with overrun := true }

/-- An admitted write. -/
def writeMapped (s : State) (v : Word) (t : Target) : State :=
  if s.busy then writePending s v t else writeTarget s v t

/-- The answer goes to the bus master. -/
def State.answer (s : State) (a : BusAnswer) : State := { s with answers := a :: s.answers }

/-- A read at an offset (R56): an access the device does not admit gets SLVERR, data 0, and changes no state. -/
def busRead (s : State) (offset : Nat) (size : AccessSize) : State :=
  match admitted s.params offset size 0xF with
  | none => s.answer (.readData 0 .slverr)
  | some t =>
    let (v, d) := readMapped s t
    { s with draws := d }.answer (.readData v .okay)

/-- A write at an offset (R56): an access the device does not admit gets SLVERR and changes no state. -/
def busWrite (s : State) (offset : Nat) (size : AccessSize) (strobe : BitVec 4) (v : Word) : State :=
  match admitted s.params offset size strobe with
  | none => s.answer (.writeDone .slverr)
  | some t => (writeMapped s v t).answer (.writeDone .okay)

/-- Offset = address - BASE, for an address of the region (R54); none outside it. -/
def offsetOf (p : Config.Params) (addr : Nat) : Option Nat :=
  if p.base ≤ addr ∧ addr < p.base + Config.regionSize then some (addr - p.base) else none

/-- WAIT (R84): one STATUS read; while it returns BUSY = 1 the loop goes on, so the input stays. -/
def waitStep (s : State) (rest : List Input) : State :=
  let t := busRead s Reg.status.offset .word
  if s.busy then t else { t with inputs := rest }

/-- HOST makes its next access (R69: one at a time, in order). A state with no input is unchanged. -/
def hostStep (s : State) : Host.Outcome State Fault Refusal :=
  match s.inputs with
  | [] => .next s
  | .read addr size :: rest =>
    match offsetOf s.params addr with
    | none => .fault .outsideRegion
    | some offset => .next (busRead { s with inputs := rest } offset size)
  | .write addr size strobe v :: rest =>
    match offsetOf s.params addr with
    | none => .fault .outsideRegion
    | some offset => .next (busWrite { s with inputs := rest } offset size strobe v)
  | .wait :: rest => .next (waitStep s rest)
  | .powerOn :: rest => .next { s with inputs := rest }.powerCycle

end Sys2Proof.Machine
end

