-- ==== Sys2Proof/Machine/Control.lean ====
section
/-!
DEFINITION. The control commands NOP and OUT2IN (40_control.md R92, R93).
-/

namespace Sys2Proof.Machine

/-- NOP (R92): nothing but the completion. -/
def nopBody (s : State) : Result := .success s

/-- OUT2IN (R93): copies `OUT[0..OUT_LEN)` to IN_BUF and OUT_LEN to IN_LEN; CAPACITY when it does not
fit, a payload of COMPRESS too (log entry 11). -/
def out2inBody (s : State) : Result :=
  if s.params.inCap < s.outLen.toNat then raise .out2in .capacity s.outLen.toNat s
  else
    let (xs, d) := s.readOut
    .success { s with inBuf := s.inBuf.setList 0 xs, inLen := s.outLen, draws := d }

/-- NOP, opcode 0x00 (R92). -/
def execNop (s : State) : Host.Outcome State Fault Refusal := finish (nopBody s)

/-- OUT2IN, opcode 0x40 (R93). -/
def execOut2in (s : State) : Host.Outcome State Fault Refusal := finish (out2inBody s)

end Sys2Proof.Machine
end

