-- ==== Sys2Proof/Machine/BitBuffer.lean ====
section
/-!
DEFINITION. The bit buffer: the functions Pack and Unpack and the commands PACK and UNPACK (41_bit_buffer.md).
-/

namespace Sys2Proof.Machine

/-- `Pack(b)` (R94): the bits in groups of eight, most significant first, the last group padded with zeros, then
the padding count. -/
def packBytes (b : List Bool) : List Byte :=
  let padded := b ++ List.replicate (padCount b.length) false
  (List.range (ceil8 b.length)).map (fun k => byteOf ((padded.drop (8 * k)).take 8)) ++
    [BitVec.ofNat 8 (padCount b.length)]

/-- The bits of the data bytes less the last `c` (R95); the removed bits are not looked at (R96). -/
def unpackBits (data : List Byte) (c : Nat) : List Bool :=
  (data.flatMap bits8).take (8 * data.length - c)

/-- `Unpack(x)` (R95): the error of the first check that fails, or the bits. -/
def unpackBytes (x : List Byte) : Except ErrCode (List Bool) :=
  match x.getLast? with
  | none => .error .malformedPayload
  | some c =>
    if 7 < c.toNat then .error .invalidPadding
    else if 8 * (x.length - 1) < c.toNat then .error .invalidPadding
    else .ok (unpackBits x.dropLast c.toNat)

/-- PACK (R98). A failure sets OUT_LEN to 0 and leaves OUT_BUF and PAD unchanged. -/
def packBody (s : State) : Result :=
  let n := s.bbLen.toNat
  let failState := { s with outLen := 0 }
  if s.params.bbCap < n then raise .pack .capacity n failState
  else if s.params.outCap < ceil8 n + 1 then raise .pack .capacity (ceil8 n + 1) failState
  else
    let (b, d) := s.readBits 0
    let y := packBytes b
    .success { s with
      outBuf := s.outBuf.setList 0 y
      outLen := BitVec.ofNat 32 y.length
      pad := BitVec.ofNat 3 (padCount n)
      draws := d }

/-- UNPACK (R99). A failure sets BB_LEN to 0 and leaves BITBUF and PAD unchanged. The control byte is read once,
before the data bytes (log entry 6). A payload longer than IN_CAP is CAPACITY, by check (1) of R99 and R131, although
00_scope.md R11 says that DECOMPRESS succeeds on every payload COMPRESS makes: the model follows R99 (log entry 11). -/
def unpackBody (s : State) : Result :=
  let m := s.inLen.toNat
  let failState := { s with bbLen := 0 }
  if s.params.inCap < m then raise .unpack .capacity m failState
  else if m = 0 then raise .unpack .malformedPayload 0 failState
  else
    let (c, d) := s.inBuf.read freshByte (m - 1) s.draws
    let failRead := { failState with draws := d }
    if 7 < c.toNat then raise .unpack .invalidPadding c.toNat failRead
    else if 8 * (m - 1) < c.toNat then raise .unpack .invalidPadding c.toNat failRead
    else if s.params.bbCap < 8 * (m - 1) - c.toNat then
      raise .unpack .capacity (8 * (m - 1) - c.toNat) failRead
    else
      let (data, d') := s.inBuf.readRange freshByte 0 (m - 1) d
      let bits := unpackBits data c.toNat
      .success { s with
        bitBuf := s.bitBuf.setList 0 bits
        bbLen := BitVec.ofNat 32 bits.length
        pad := BitVec.ofNat 3 c.toNat
        draws := d' }

/-- PACK, opcode 0x15 (R98). -/
def execPack (s : State) : Host.Outcome State Fault Refusal := finish (packBody s)

/-- UNPACK, opcode 0x20 (R99). -/
def execUnpack (s : State) : Host.Outcome State Fault Refusal := finish (unpackBody s)

end Sys2Proof.Machine
end

