-- ==== Sys2Proof/Machine/CodeTable.lean ====
section
/-!
DEFINITION. The code table and the command CODE_EXTRACT (44_code_table.md). A code is the path in the tree; it is
never renumbered (00_scope.md R2).
-/

namespace Sys2Proof.Machine

/-- `Walk(n, p)` (R113): pre-order, Left first, Left appends 1 and Right appends 0 (R110). The answer is the leaves
reached, in order, with their paths. The first argument bounds the depth; a tree of n entries needs n. Past it
stands a stray leaf (log entry 7). -/
def walk (arena : List NodeEntry) : Nat → Nat → List Bool → List (Byte × List Bool)
  | 0, n, p => [(Config.strayLeaf n, p)]
  | fuel + 1, n, p =>
    match nodeAt arena n with
    | .leaf sym _ => [(sym, p)]
    | .internal l r _ => walk arena fuel l.toNat (p ++ [true]) ++ walk arena fuel r.toNat (p ++ [false])

/-- The code assignments in walk order: a lone leaf gets "1" (R112), any other tree its walk (R110). -/
def codeWrites (arena : List NodeEntry) (root : Nat) : List (Byte × List Bool) :=
  match nodeAt arena root with
  | .leaf sym _ => [(sym, [true])]
  | .internal _ _ _ => walk arena arena.length root []

/-- An entry that labels no leaf (R113). -/
def absentCode : CodeEntry := { present := false, path := [] }

/-- The code table: every entry absent, then the assignments in order; a later one overwrites an earlier one
(R111). -/
def codeTable (writes : List (Byte × List Bool)) : Memory CodeEntry :=
  writes.foldl (fun m w => m.set w.1.toNat { present := true, path := w.2 })
    (Memory.ofList (List.replicate Config.alphabet absentCode))

/-- CODE_EXTRACT (R113). A failure clears CODE_VALID and leaves CODE unchanged. -/
def codeExtractBody (s : State) : Result :=
  if s.treeValid = false then raise .codeExtract .noTree 0 { s with codeValid := false }
  else
    let (arena, d) := s.readArena
    .success { s with
      code := codeTable (codeWrites arena s.root.toNat)
      codeValid := true
      draws := d }

/-- CODE_EXTRACT, opcode 0x12 (R113). -/
def execCodeExtract (s : State) : Host.Outcome State Fault Refusal := finish (codeExtractBody s)

end Sys2Proof.Machine
end

