-- ==== Sys2Proof/Machine/Frequency.lean ====
section
/-!
DEFINITION. The frequency table and the command FREQ_BUILD (42_frequency.md).
-/

namespace Sys2Proof.Machine

/-- `Freq(x)` (R100): for each symbol the number of positions that hold it, at the width of a FREQ count (R46). -/
def freqOf (x : List Byte) : List Word :=
  (List.range Config.alphabet).map (fun sym => BitVec.ofNat 32 (x.countP (fun b => b.toNat == sym)))

/-- The number of symbols with a count > 0 (R101). -/
def distinct (counts : List Word) : Nat := counts.countP (fun c => c != 0)

/-- FREQ_BUILD (R101). A failure clears FREQ_VALID and SYM_CNT and leaves FREQ unchanged. -/
def freqBuildBody (s : State) : Result :=
  if s.params.inCap < s.inLen.toNat then
    raise .freqBuild .capacity s.inLen.toNat { s with freqValid := false, symCnt := 0 }
  else
    let (x, d) := s.readIn
    let counts := freqOf x
    .success { s with
      freq := Memory.ofList counts
      symCnt := BitVec.ofNat 9 (distinct counts)
      freqValid := true
      draws := d }

/-- FREQ_BUILD, opcode 0x10 (R101). -/
def execFreqBuild (s : State) : Host.Outcome State Fault Refusal := finish (freqBuildBody s)

end Sys2Proof.Machine
end

