-- ==== Sys2Proof/Machine/TreeBuilder.lean ====
section
/-!
DEFINITION. The Huffman tree builder: the priority structure, the merge and the command TREE_BUILD
(43_tree_builder.md). The first-popped node is Left, ties included (90_conflicts.md C1).
-/

namespace Sys2Proof.Machine

/-- A triple of the priority structure (R103). -/
structure QueueItem where
  weight : Nat
  stamp : Nat
  index : Nat
  deriving DecidableEq, Repr

/-- The lexicographic order on (weight, stamp) (R103). -/
def QueueItem.before (t u : QueueItem) : Bool :=
  decide (t.weight < u.weight) || (t.weight == u.weight && decide (t.stamp < u.stamp))

/-- Insert (R103). The structure is kept in popping order, so Pop takes the head. -/
def enqueue (t : QueueItem) : List QueueItem → List QueueItem
  | [] => [t]
  | u :: q => if t.before u then t :: u :: q else u :: enqueue t q

/-- The symbols with a count > 0, in ascending order, with their counts (R104). -/
def presentSymbols (counts : List Word) : List (Nat × Word) :=
  ((List.range counts.length).zip counts).filter (fun p => p.2 != 0)

/-- Init, the arena (R104): one leaf per symbol, in ascending symbol order, from index 0. -/
def leafEntries (present : List (Nat × Word)) : List NodeEntry :=
  present.map (fun p => .leaf (BitVec.ofNat 8 p.1) p.2)

/-- Init, the structure (R104): leaf i is inserted with stamp i. -/
def initQueue : Nat → List (Nat × Word) → List QueueItem → List QueueItem
  | _, [], q => q
  | i, p :: ps, q =>
    initQueue (i + 1) ps (enqueue { weight := p.2.toNat, stamp := i, index := i } q)

/-- Merge steps (R105) until one triple remains (R107). `next` is the next arena index and `stamp` the next stamp.
The answer is the Internal entries in creation order and the root's index. The first argument bounds the number
of merges; a structure of n triples needs n - 1. -/
def mergeAll : Nat → Nat → Nat → List QueueItem → List NodeEntry × Nat
  | fuel + 1, next, stamp, a :: b :: q =>
    let w := a.weight + b.weight
    let (entries, root) :=
      mergeAll fuel (next + 1) (stamp + 1) (enqueue { weight := w, stamp := stamp, index := next } q)
    (.internal (BitVec.ofNat 9 a.index) (BitVec.ofNat 9 b.index) (BitVec.ofNat 32 w) :: entries, root)
  | _, _, _, a :: _ => ([], a.index)
  | _, _, _, [] => ([], 0)

/-- The arena and the root that TREE_BUILD makes from the counts (R104, R105, R107). -/
def buildTree (counts : List Word) : List NodeEntry × Nat :=
  let present := presentSymbols counts
  let n := present.length
  let (entries, root) := mergeAll n n n (initQueue 0 present [])
  (leafEntries present ++ entries, root)

/-- The writes of a failing TREE_BUILD (R108). -/
def State.clearTree (s : State) : State :=
  { s with treeValid := false, codeValid := false, nodeCnt := 0, root := 0, symCnt := 0 }

/-- TREE_BUILD (R108). -/
def treeBuildBody (s : State) : Result :=
  if s.freqValid = false then raise .treeBuild .noFreq 0 s.clearTree
  else
    let (counts, d) := s.readFreq
    let n := distinct counts
    if n = 0 then raise .treeBuild .emptyInput 0 { s.clearTree with draws := d }
    else
      let (arena, root) := buildTree counts
      .success { s with
        node := Memory.ofList arena
        root := BitVec.ofNat 9 root
        nodeCnt := BitVec.ofNat 10 (2 * n - 1)
        symCnt := BitVec.ofNat 9 n
        treeValid := true
        codeValid := false
        draws := d }

/-- TREE_BUILD, opcode 0x11 (R108). -/
def execTreeBuild (s : State) : Host.Outcome State Fault Refusal := finish (treeBuildBody s)

end Sys2Proof.Machine
end

