-- ==== Sys2Proof/Machine/TreeSerdes.lean ====
section
/-!
DEFINITION. The tree encoding and the commands TREE_SERIALIZE and TREE_DESERIALIZE (45_tree_serdes.md;
30_encoding.md R80).
-/

namespace Sys2Proof.Machine

/-- `TreeBits(n)` (R80): pre-order, Internal is "0", Left, Right; a Leaf is "1" and its symbol's eight bits. The
first argument bounds the depth; a tree of n entries needs n. Past it stands a stray leaf (log entry 7). -/
def treeBits (arena : List NodeEntry) : Nat → Nat → List Bool
  | 0, n => true :: bits8 (Config.strayLeaf n)
  | fuel + 1, n =>
    match nodeAt arena n with
    | .leaf sym _ => true :: bits8 sym
    | .internal l r _ => false :: (treeBits arena fuel l.toNat ++ treeBits arena fuel r.toNat)

/-- TREE_SERIALIZE (R116). A failure sets BB_LEN to 0 and leaves BITBUF unchanged. -/
def treeSerializeBody (s : State) : Result :=
  let failState := { s with bbLen := 0 }
  if s.treeValid = false then raise .treeSerialize .noTree 0 failState
  else
    let (arena, d) := s.readArena
    let t := treeBits arena arena.length s.root.toNat
    if s.params.bbCap < t.length then raise .treeSerialize .capacity t.length { failState with draws := d }
    else
      .success { s with
        bitBuf := s.bitBuf.setList 0 t
        bbLen := BitVec.ofNat 32 t.length
        draws := d }

/-- What one Parse call leaves (R117): the entries of the subtree it read, in pre-order, the cursor, and the bits
from the cursor on. -/
structure Parsed where
  entries : List NodeEntry
  cursor : Nat
  rest : List Bool
  deriving DecidableEq, Repr

/-- `Parse()` (R117), called with n entries allocated and the cursor at c. The checks, in order: the arena is full,
the tag bit is missing, symbol bits are missing; each answers the cursor, the info of MALFORMED_PAYLOAD. The first
argument bounds the nesting; every nested call has allocated one entry more, so 512 are enough. -/
def parse : Nat → Nat → Nat → List Bool → Except Nat Parsed
  | 0, _, c, _ => .error c
  | fuel + 1, n, c, bits =>
    if Config.nodeCap ≤ n then .error c
    else
      match bits with
      | [] => .error c
      | true :: rest =>
        if rest.length < 8 then .error (c + 1)
        else .ok { entries := [.leaf (byteOf (rest.take 8)) 0], cursor := c + 9, rest := rest.drop 8 }
      | false :: rest =>
        match parse fuel (n + 1) (c + 1) rest with
        | .error e => .error e
        | .ok left =>
          let r := n + 1 + left.entries.length
          match parse fuel r left.cursor left.rest with
          | .error e => .error e
          | .ok right =>
            .ok { entries := .internal (BitVec.ofNat 9 (n + 1)) (BitVec.ofNat 9 r) 0 ::
                    (left.entries ++ right.entries)
                  cursor := right.cursor
                  rest := right.rest }

/-- The parse of a whole bit sequence (R118): n = 0 and c = 0. -/
def parseTree (bits : List Bool) : Except Nat Parsed := parse (Config.nodeCap + 1) 0 0 bits

/-- TREE_DESERIALIZE (R118). A failure clears the tree's registers and flags and CURSOR; after a parse failure every
NODE entry is unspecified. -/
def treeDeserializeBody (s : State) : Result :=
  let failState := { s.clearTree with cursor := 0 }
  if s.params.bbCap < s.bbLen.toNat then raise .treeDeserialize .capacity s.bbLen.toNat failState
  else
    let (bits, d) := s.readBits 0
    match parseTree bits with
    | .error c => raise .treeDeserialize .malformedPayload c { failState with node := [], draws := d }
    | .ok p =>
      .success { s with
        node := Memory.ofList p.entries
        root := 0
        cursor := BitVec.ofNat 32 p.cursor
        nodeCnt := BitVec.ofNat 10 p.entries.length
        symCnt := BitVec.ofNat 9 (p.entries.countP NodeEntry.isLeaf)
        treeValid := true
        codeValid := false
        draws := d }

/-- TREE_SERIALIZE, opcode 0x13 (R116). -/
def execTreeSerialize (s : State) : Host.Outcome State Fault Refusal := finish (treeSerializeBody s)

/-- TREE_DESERIALIZE, opcode 0x21 (R118). -/
def execTreeDeserialize (s : State) : Host.Outcome State Fault Refusal := finish (treeDeserializeBody s)

end Sys2Proof.Machine
end

