-- ==== Sys2Proof/Machine/EncoderDecoder.lean ====
section
/-!
DEFINITION. The data commands ENCODE_DATA and DECODE_DATA and the composite commands COMPRESS and DECOMPRESS
(46_encoder_decoder.md).
-/

namespace Sys2Proof.Machine

/-- The loop of ENCODE_DATA (R120) over the CODE entries of the input bytes: `n` bits are in BITBUF, `k` is the byte
index. The answer is the bits appended, or the error and its info of the first check that fails. -/
def encodeLoop (cap : Nat) : Nat → Nat → List CodeEntry → Except (ErrCode × Nat) (List Bool)
  | _, _, [] => .ok []
  | n, k, e :: es =>
    if e.present = false then .error (.uncodedSymbol, k)
    else if cap < n + e.path.length then .error (.capacity, k)
    else
      match encodeLoop cap (n + e.path.length) (k + 1) es with
      | .error x => .error x
      | .ok bits => .ok (e.path ++ bits)

/-- ENCODE_DATA (R120). A failure sets BB_LEN to 0; after the loop began, the bits from n0 on are unspecified. -/
def encodeDataBody (s : State) : Result :=
  let n0 := s.bbLen.toNat
  let failState := { s with bbLen := 0 }
  if s.codeValid = false then raise .encodeData .noCode 0 failState
  else if s.params.inCap < s.inLen.toNat then raise .encodeData .capacity s.inLen.toNat failState
  else if s.params.bbCap < n0 then raise .encodeData .capacity n0 failState
  else
    let (x, d) := s.readIn
    let (entries, d') := s.readCodes x d
    match encodeLoop s.params.bbCap n0 0 entries with
    | .error (code, k) =>
      raise .encodeData code k
        { failState with bitBuf := s.bitBuf.forget n0 s.params.bbCap, draws := d' }
    | .ok bits =>
      .success { s with
        bitBuf := s.bitBuf.setList n0 bits
        bbLen := BitVec.ofNat 32 (n0 + bits.length)
        draws := d' }

/-- The walk on a lone leaf (R122): `m` bytes are emitted, `i` is the position of the first bit given. A bit 1
emits the symbol, a bit 0 is MALFORMED_PAYLOAD, and a byte past OUT_CAP is CAPACITY (R123 checks 4 and 5). -/
def decodeLone (cap : Nat) (sym : Byte) : Nat → Nat → List Bool → Except (ErrCode × Nat) (List Byte)
  | _, _, [] => .ok []
  | m, i, b :: bs =>
    if b = false then .error (.malformedPayload, i)
    else if m = cap then .error (.capacity, i)
    else
      match decodeLone cap sym (m + 1) (i + 1) bs with
      | .error x => .error x
      | .ok out => .ok (sym :: out)

/-- The walk from an Internal root (R121): `p` is the current node, `m` bytes are emitted, `start` is where the
current code began and `i` the position of the first bit given. A byte past OUT_CAP is CAPACITY, and bits that end
in mid-code are TRUNCATED_WALK (R123 checks 4 and 6). The current node is never a Leaf: reaching one resets the walk
to the root. -/
def decodeWalk (arena : List NodeEntry) (root cap : Nat) :
    Nat → Nat → Nat → Nat → List Bool → Except (ErrCode × Nat) (List Byte)
  | p, _, start, _, [] => if p = root then .ok [] else .error (.truncatedWalk, start)
  | p, m, start, i, b :: bs =>
    let q :=
      match nodeAt arena p with
      | .internal l r _ => if b then l.toNat else r.toNat
      | .leaf _ _ => p
    match nodeAt arena q with
    | .internal _ _ _ => decodeWalk arena root cap q m start (i + 1) bs
    | .leaf sym _ =>
      if m = cap then .error (.capacity, i)
      else
        match decodeWalk arena root cap root (m + 1) (i + 1) (i + 1) bs with
        | .error x => .error x
        | .ok out => .ok (sym :: out)

/-- Decoding the bits from position `start` on (R121, R122, R123). -/
def decodeBits (arena : List NodeEntry) (root cap start : Nat) (bits : List Bool) :
    Except (ErrCode × Nat) (List Byte) :=
  match nodeAt arena root with
  | .leaf sym _ => decodeLone cap sym 0 start bits
  | .internal _ _ _ => decodeWalk arena root cap root 0 start start bits

/-- DECODE_DATA (R123). A failure sets OUT_LEN to 0; after the walk began, OUT_BUF is unspecified. -/
def decodeDataBody (s : State) : Result :=
  let failState := { s with outLen := 0 }
  if s.treeValid = false then raise .decodeData .noTree 0 failState
  else if s.params.bbCap < s.bbLen.toNat then raise .decodeData .capacity s.bbLen.toNat failState
  else if s.bbLen.toNat < s.cursor.toNat then
    raise .decodeData .malformedPayload s.cursor.toNat failState
  else
    let (arena, d) := s.readArena
    let (bits, d') := { s with draws := d }.readBits s.cursor.toNat
    match decodeBits arena s.root.toNat s.params.outCap s.cursor.toNat bits with
    | .error (code, i) =>
      raise .decodeData code i
        { failState with outBuf := s.outBuf.forget 0 s.params.outCap, draws := d' }
    | .ok out =>
      .success { s with
        outBuf := s.outBuf.setList 0 out
        outLen := BitVec.ofNat 32 out.length
        draws := d' }

/-- COMPRESS (R124): OUT_LEN becomes 0, then the six compression primitives in order. -/
def compressBody (s : State) : Result :=
  (freqBuildBody { s with outLen := 0 }).andThen treeBuildBody
    |>.andThen codeExtractBody
    |>.andThen treeSerializeBody
    |>.andThen encodeDataBody
    |>.andThen packBody

/-- DECOMPRESS (R126): OUT_LEN becomes 0, then the three decompression primitives in order. -/
def decompressBody (s : State) : Result :=
  (unpackBody { s with outLen := 0 }).andThen treeDeserializeBody
    |>.andThen decodeDataBody

/-- ENCODE_DATA, opcode 0x14 (R120). -/
def execEncodeData (s : State) : Host.Outcome State Fault Refusal := finish (encodeDataBody s)

/-- DECODE_DATA, opcode 0x22 (R123). -/
def execDecodeData (s : State) : Host.Outcome State Fault Refusal := finish (decodeDataBody s)

/-- COMPRESS, opcode 0x30 (R124). -/
def execCompress (s : State) : Host.Outcome State Fault Refusal := finish (compressBody s)

/-- DECOMPRESS, opcode 0x31 (R126). -/
def execDecompress (s : State) : Host.Outcome State Fault Refusal := finish (decompressBody s)

end Sys2Proof.Machine
end

