-- ==== Sys2Proof/Machine/Dispatch.lean ====
section
/-!
DEFINITION. One arm per command: the perform step of 40_control.md R87 and its completion (R88).
-/

namespace Sys2Proof.Machine

/-- Performs and completes a command (R87, R88). -/
def exec (i : Instr) (s : State) : Host.Outcome State Fault Refusal :=
  match i with
  | .nop => Sys2Proof.Machine.execNop s
  | .freqBuild => Sys2Proof.Machine.execFreqBuild s
  | .treeBuild => Sys2Proof.Machine.execTreeBuild s
  | .codeExtract => Sys2Proof.Machine.execCodeExtract s
  | .treeSerialize => Sys2Proof.Machine.execTreeSerialize s
  | .encodeData => Sys2Proof.Machine.execEncodeData s
  | .pack => Sys2Proof.Machine.execPack s
  | .unpack => Sys2Proof.Machine.execUnpack s
  | .treeDeserialize => Sys2Proof.Machine.execTreeDeserialize s
  | .decodeData => Sys2Proof.Machine.execDecodeData s
  | .compress => Sys2Proof.Machine.execCompress s
  | .decompress => Sys2Proof.Machine.execDecompress s
  | .out2in => Sys2Proof.Machine.execOut2in s

end Sys2Proof.Machine
end

