-- ==== Sys2Proof/Machine/Engine.lean ====
section
/-!
DEFINITION. ENGINE's step and the choice of the agent that moves (40_control.md R87, R90; 00_scope.md R20).
-/

namespace Sys2Proof.Machine

/-- The perform step of the word `w` (R87): a command's meaning, or ILLEGAL_CMD for an illegal word (R90). -/
def performWord (w : Word) (s : State) : Host.Outcome State Fault Refusal :=
  match decode w with
  | .ok i => exec i s
  | .error _ => finish (illegal w s)

/-- ENGINE's step: while Pending it performs the pending word; while Idle it does nothing (R87, R143). -/
def engineStep (s : State) : Host.Outcome State Fault Refusal :=
  match s.eng with
  | .idle => .next s
  | .pending w => performWord w s

/-- HOST has an access to make. -/
def State.hostEnabled (s : State) : Bool := !s.inputs.isEmpty

/-- Who moves next. When both agents can, the schedule says which (R87, U4); a schedule with no entry left lets
ENGINE go first (log entry 4). -/
def State.turn (s : State) : Agent :=
  if s.busy && s.hostEnabled then s.schedule.headD .engine
  else if s.busy then .engine
  else .host

/-- A choice the schedule made is used up. -/
def State.takeTurn (s : State) : State :=
  if s.busy && s.hostEnabled then { s with schedule := s.schedule.tail } else s

end Sys2Proof.Machine
end

