-- ==== Sys2Proof/Machine/Step.lean ====
section
/-!
DEFINITION. The machine's step: one step of the agent whose turn it is (00_scope.md R20, 40_control.md R87).
-/

namespace Sys2Proof.Machine

/-- One step: HOST makes its next access or ENGINE performs the pending command. -/
def step (s : State) : Host.Outcome State Fault Refusal :=
  match s.turn with
  | .engine => engineStep s.takeTurn
  | .host => hostStep s.takeTurn

/-- `s` with the command word `w` issued (R85), so that the next step performs it. HUFFCORE fetches no
instructions (R72): a command runs because the host wrote it to CMD. Where the host has accesses left, the schedule
lets ENGINE go first (log entry 9). -/
def State.withFetchWord (s : State) (nbits w : Nat) : State :=
  let t := s.issue (BitVec.ofNat 32 (w % 2 ^ nbits))
  if s.hostEnabled then { t with schedule := .engine :: t.schedule } else t

end Sys2Proof.Machine
end

