-- ==== Sys2Proof/Machine/HostProgram.lean ====
section
/-!
DEFINITION. The host program notation and its pseudo-operations (30_encoding.md R83, R84), as lists of inputs for a
device at `base`.
-/

namespace Sys2Proof.Machine

/-- `W <offset>, <value>` (R83). -/
def lineW (base offset : Nat) (v : Word) : Input := .write (base + offset) .word 0xF v

/-- `R <offset>` (R83). -/
def lineR (base offset : Nat) : Input := .read (base + offset) .word

/-- `CMD <mnemonic>` (R84). -/
def hostCmd (base : Nat) (i : Instr) : List Input := [lineW base 0x024 (encode i)]

/-- `WAIT` (R84). -/
def hostWait : List Input := [.wait]

/-- `ACK` (R84). -/
def hostAck (base : Nat) : List Input := [lineW base 0x028 0x0000000A]

/-- `RUN <mnemonic>` (R84). -/
def hostRun (base : Nat) (i : Instr) : List Input := hostCmd base i ++ hostWait

/-- `LOADIN <bytes>` (R84): the words of the bytes, missing bytes 00, then IN_LEN. -/
def hostLoadIn (base : Nat) (xs : List Byte) : List Input :=
  (List.range ((xs.length + 3) / 4)).map
      (fun k => lineW base (0x400000 + 4 * k) (wordOfBytes (xs.drop (4 * k)))) ++
    [lineW base 0x040 (BitVec.ofNat 32 xs.length)]

/-- `SETBITS "<bits>"` (R84): the words of the bits, missing bits 0, then BB_LEN. -/
def hostSetBits (base : Nat) (bits : List Bool) : List Input :=
  (List.range ((bits.length + 31) / 32)).map
      (fun k => lineW base (0xC00000 + 4 * k) (wordOfBits (bits.drop (32 * k)))) ++
    [lineW base 0x048 (BitVec.ofNat 32 bits.length)]

end Sys2Proof.Machine
end

