-- ==== Sys2Proof/Safety.lean ====
section
/-!
DEFINITION. The terms the statements use: completion and frames, possible readings of a memory, the shape of a tree
and its encoding (30_encoding.md R80), paths in a tree (44_code_table.md R110), the tree invariant of 10_state.md
R48, and the invariants of the machine.
-/

namespace Sys2Proof.Machine

/-! ### Completion and frames -/

/-- The completion writes of a success (R88). -/
def State.CompletedOk (t : State) : Prop :=
  t.eng = .idle ∧ t.done = true ∧ t.err = .ok ∧ t.errInfo = 0 ∧ t.errOp = 0

/-- The completion writes of `Err(code, info)` raised by the rule of command `i` (R88, R89), the info at the width
of ERR_INFO (R15). -/
def State.CompletedErr (t : State) (i : Instr) (code : ErrCode) (info : Nat) : Prop :=
  t.eng = .idle ∧ t.done = true ∧ t.err = code ∧ t.errInfo = BitVec.ofNat 32 info ∧ t.errOp = i.opcode

/-- `t` with the fields that every completion writes, and the model's draw counter, put back as they are in `s`. A
frame reads: `t.uncomplete s`, with the command's own destinations put back too, is `s`. -/
def State.uncomplete (t s : State) : State :=
  { t with
    eng := s.eng
    done := s.done
    err := s.err
    errInfo := s.errInfo
    errOp := s.errOp
    draws := s.draws }

/-- `t` with the registers and flags that a tree command clears or sets put back as they are in `s` (R42). -/
def State.untree (t s : State) : State :=
  { t with
    treeValid := s.treeValid
    codeValid := s.codeValid
    nodeCnt := s.nodeCnt
    root := s.root
    symCnt := s.symCnt }

/-- `vs` is a possible reading of the memory from location `k`: it has the value of every specified location, and
any value at an unspecified one (R53). -/
def Memory.Reads {α : Type} (m : Memory α) (k : Nat) (vs : List α) : Prop :=
  ∀ j v, j < vs.length → m.get? (k + j) = some v → vs[j]? = some v

/-- How many of the locations `k ..< k + n` are unspecified: as many draws as reading them takes (R53). -/
def Memory.unspecified {α : Type} (m : Memory α) (k n : Nat) : Nat :=
  (List.range' k n).countP (fun j => (m.get? j).isNone)

/-- The memory `m'` is `m` after `vs` was written from location `k` on: those locations hold `vs`, every other one
is as before. -/
def Memory.Written {α : Type} (m m' : Memory α) (k : Nat) (vs : List α) : Prop :=
  ∀ j, m'.get? j = if k ≤ j ∧ j < k + vs.length then vs[j - k]? else m.get? j

/-- Runs the commands in order, each as a command of its own, and stops after the first that fails. -/
def chain : List Instr → State → State
  | [], s => s
  | i :: is, s =>
    match exec i s with
    | .next t => if t.err = .ok then chain is t else t
    | .fault _ => s
    | .refused _ => s

/-- The host's read at the offset is answered OKAY with the word `w`, and `draws` draws have been taken then. -/
def State.ReadsOkay (s : State) (offset : Nat) (w : Word) (draws : Nat) : Prop :=
  busRead s offset .word = { s with draws := draws }.answer (.readData w .okay)

/-! ### Trees -/

/-- A strict binary tree with a symbol on each leaf: what a tree is without indices and weights (R119). -/
inductive Shape where
  | leaf (sym : Byte)
  | fork (left right : Shape)
  deriving DecidableEq, Repr

/-- The tree encoding of R80. -/
def Shape.encode : Shape → List Bool
  | .leaf sym => true :: bits8 sym
  | .fork l r => false :: (l.encode ++ r.encode)

/-- The number of nodes. -/
def Shape.size : Shape → Nat
  | .leaf _ => 1
  | .fork l r => l.size + r.size + 1

/-- The number of leaves. -/
def Shape.leaves : Shape → Nat
  | .leaf _ => 1
  | .fork l r => l.leaves + r.leaves

/-- The symbol at the end of a path, Left on 1 and Right on 0 (R110); none when the path does not end on a leaf. -/
def Shape.symbolAt : Shape → List Bool → Option Byte
  | .leaf sym, [] => some sym
  | .fork l r, b :: bs => if b then l.symbolAt bs else r.symbolAt bs
  | .leaf _, _ :: _ => none
  | .fork _ _, [] => none

/-- The symbol a code stands for: on a lone leaf the code is "1" (R112), else it is a path to a leaf (R110). -/
def Shape.decodes (T : Shape) (code : List Bool) : Option Byte :=
  match T with
  | .leaf sym => if code = [true] then some sym else none
  | .fork _ _ => T.symbolAt code

/-- The shape of the tree below entry `n` of an arena, to the given depth. -/
def shapeAt (arena : List NodeEntry) : Nat → Nat → Shape
  | 0, n => .leaf (Config.strayLeaf n)
  | fuel + 1, n =>
    match nodeAt arena n with
    | .leaf sym _ => .leaf sym
    | .internal l r _ => .fork (shapeAt arena fuel l.toNat) (shapeAt arena fuel r.toNat)

/-- The entries reached from entry `n`, in pre-order, to the given depth. -/
def visits (arena : List NodeEntry) : Nat → Nat → List Nat
  | 0, n => [n]
  | fuel + 1, n =>
    match arena[n]? with
    | some (.internal l r _) => n :: (visits arena fuel l.toNat ++ visits arena fuel r.toNat)
    | _ => [n]

/-- R48: every index of the arena is reached from the root exactly once, and no other index is. -/
def ArenaOk (arena : List NodeEntry) (root : Nat) : Prop :=
  (visits arena arena.length root).Perm (List.range arena.length)

/-- One node of a tree encoding in the order Parse meets them (R80, R117): the tag 0 of an Internal, or the tag 1 and
the symbol of a Leaf. -/
inductive Token where
  | fork
  | leaf (sym : Byte)
  deriving DecidableEq, Repr

/-- The bits of a node in a tree encoding (R80). -/
def Token.encode : Token → List Bool
  | .fork => [false]
  | .leaf sym => true :: bits8 sym

/-- The node is a Leaf. -/
def Token.isLeaf : Token → Bool
  | .fork => false
  | .leaf _ => true

/-- After these nodes Parse still calls itself (R117): no beginning of them is a whole tree, which has one Leaf more
than it has Internal nodes. -/
def Unfinished (ts : List Token) : Prop :=
  ∀ k, (ts.take k).countP Token.isLeaf ≤ (ts.take k).countP (fun a => !a.isLeaf)

/-- R117: Parse reads the nodes `ts` from the bits and fails at the next one, with the cursor at `c`: the arena is
full (511 entries), the tag bit is missing, or fewer than 8 symbol bits follow the tag 1. The checks come in this
order, and the cursor of the last stands after the tag. -/
def ParseFailsAt (bits : List Bool) (c : Nat) : Prop :=
  ∃ (ts : List Token) (rest : List Bool), bits = ts.flatMap Token.encode ++ rest ∧ Unfinished ts ∧
    ((ts.length = 511 ∧ c = (ts.flatMap Token.encode).length) ∨
      (ts.length < 511 ∧ rest = [] ∧ c = (ts.flatMap Token.encode).length) ∨
      (ts.length < 511 ∧ (∃ symbol, rest = true :: symbol ∧ symbol.length < 8) ∧
        c = (ts.flatMap Token.encode).length + 1))

/-- The step along one edge: bit 1 is Left, bit 0 is Right (R110, R121). -/
def child (arena : List NodeEntry) (n : Nat) (b : Bool) : Option Nat :=
  match arena[n]? with
  | some (.internal l r _) => some (if b then l.toNat else r.toNat)
  | _ => none

/-- The entry at the end of a path; none when the path passes a leaf. -/
def follow (arena : List NodeEntry) : Nat → List Bool → Option Nat
  | n, [] => some n
  | n, b :: bs =>
    match child arena n b with
    | none => none
    | some m => follow arena m bs

/-- The path leads from `root` to a leaf with the symbol (R110). -/
def LeadsTo (arena : List NodeEntry) (root : Nat) (path : List Bool) (sym : Byte) : Prop :=
  ∃ n w, follow arena root path = some n ∧ arena[n]? = some (.leaf sym w)

/-- The path is a code of the symbol: on a lone leaf it is "1" (R112), else it leads to a leaf with the symbol
(R110). -/
def IsCodeOf (arena : List NodeEntry) (root : Nat) (path : List Bool) (sym : Byte) : Prop :=
  match nodeAt arena root with
  | .leaf s _ => path = [true] ∧ s = sym
  | .internal _ _ _ => LeadsTo arena root path sym

/-- Path `p` comes before path `q` in pre-order, Left first (R111): where they part, `p` goes Left. -/
def PathBefore (p q : List Bool) : Prop := ∃ c u v, p = c ++ true :: u ∧ q = c ++ false :: v

/-- The weight of a NODE entry (R16). -/
def NodeEntry.weight : NodeEntry → Word
  | .leaf _ w => w
  | .internal _ _ w => w

/-- Entry `j` is a child of one of the Internal entries made before entry `i` (R105): it has left the priority
structure. -/
def Consumed (arena : List NodeEntry) (i j : Nat) : Prop :=
  ∃ k l r w, k < i ∧ arena[k]? = some (.internal l r w) ∧ (j = l.toNat ∨ j = r.toNat)

/-- (weight, stamp) of entry `a` is at most that of entry `b`, the stamp being the index: every insertion takes the
next stamp and the next arena index (R103, R104, R105). -/
def PopsNoLater (arena : List NodeEntry) (a b : Nat) : Prop :=
  ∃ ea eb, arena[a]? = some ea ∧ arena[b]? = some eb ∧
    (ea.weight.toNat < eb.weight.toNat ∨ (ea.weight = eb.weight ∧ a ≤ b))

/-! ### Invariants -/

/-- The entries `NODE[0..NODE_CNT)` of a state in which they are specified. -/
def State.arena (s : State) : List NodeEntry := s.readArena.1

/-- Every memory has the canonical form and lies within its capacity (R8, R43 to R49). -/
def State.MemoriesOk (s : State) : Prop :=
  (s.inBuf.wf = true ∧ s.outBuf.wf = true ∧ s.bitBuf.wf = true ∧
    s.freq.wf = true ∧ s.node.wf = true ∧ s.code.wf = true) ∧
  (s.inBuf.below s.params.inCap = true ∧ s.outBuf.below s.params.outCap = true ∧
    s.bitBuf.below s.params.bbCap = true ∧ s.freq.below Config.alphabet = true ∧
    s.node.below Config.nodeCap = true ∧ s.code.below Config.alphabet = true)

/-- NODE_CNT, ROOT and `NODE[0..NODE_CNT)` hold a tree as R48 says. -/
def State.TreeOk (s : State) : Prop :=
  s.nodeCnt.toNat ≤ Config.nodeCap ∧ s.node.covers s.nodeCnt.toNat = true ∧ ArenaOk s.arena s.root.toNat

/-- R48: while TREE_VALID = 1 the arena holds a tree. R31, R49: while CODE_VALID = 1 there is a tree and CODE is what
CODE_EXTRACT derives from it. R46: while FREQ_VALID = 1 every count is specified. -/
def State.FlagsOk (s : State) : Prop :=
  (s.treeValid = true → s.TreeOk) ∧
  (s.codeValid = true → s.treeValid = true ∧ s.code = codeTable (codeWrites s.arena s.root.toNat)) ∧
  (s.freqValid = true → s.freq.covers Config.alphabet = true)

/-- Lengths that only commands write fit: OUT_LEN is at most OUT_CAP (R93), NODE_CNT at most 511 (R39), SYM_CNT at
most 256 (R40). -/
def State.LengthsOk (s : State) : Prop :=
  s.outLen.toNat ≤ s.params.outCap ∧ s.nodeCnt.toNat ≤ Config.nodeCap ∧ s.symCnt.toNat ≤ Config.alphabet

end Sys2Proof.Machine
end

