-- ==== Sys2Proof/Certificates/Slice0/Obligations.lean ====
section
/-!
DEFINITION. The statements about HUFFCORE, from the numbered rules of spec/. Where an operand location is
unspecified, a statement says what holds for every value the fresh draw may have (10_state.md R53): the reading is a
list `vs` with `Memory.Reads`. A frame puts the listed fields of the next state back and says that the result is the
state before.
-/

open Sys2Proof Sys2Proof.Machine

/-! ### Reset and registers -/

/-- R144, R53, R25. After power-on reset with any parameters each register of R25 reads its reset value, ENG is
Idle, the valid flags are 0, irq is 0, no location of the six memories is specified, and with no host access to come
(the model's list of them is empty, log entry 3) the machine waits. -/
def Obligations.ResetLeavesTheSpecValues : Prop :=
  ∀ p : Config.Params,
    let s := State.powerOn p
    (s.eng = .idle ∧ s.freqValid = false ∧ s.treeValid = false ∧ s.codeValid = false ∧ s.irq = false) ∧
    (readReg s .id = 0x48554646 ∧ readReg s .version = 0x00010000 ∧
      readReg s .inCapR = BitVec.ofNat 32 p.inCap ∧ readReg s .outCapR = BitVec.ofNat 32 p.outCap ∧
      readReg s .bbCapR = BitVec.ofNat 32 p.bbCap ∧ readReg s .nodeCapR = 0x000001FF) ∧
    (∀ r ∈ [Reg.ctrl, .cmd, .status, .errInfo, .errOp, .inLen, .outLen, .bbLen, .cursor, .root, .nodeCnt, .symCnt,
      .pad], readReg s r = 0) ∧
    (∀ k, s.inBuf.get? k = none ∧ s.outBuf.get? k = none ∧ s.bitBuf.get? k = none ∧ s.freq.get? k = none ∧
      s.node.get? k = none ∧ s.code.get? k = none) ∧
    step s = .next s

/-- R26, R27, R28. ID, VERSION and the capacity registers stand at their offsets and read their constants in every
state, a command pending or not, without a draw; while Idle a write to one changes nothing. -/
def Obligations.ConstantRegistersAlwaysRead : Prop :=
  ∀ (s : State) (v : Word),
    (target s.params 0x000 = some (.reg .id) ∧ target s.params 0x004 = some (.reg .version) ∧
      target s.params 0x008 = some (.reg .inCapR) ∧ target s.params 0x00C = some (.reg .outCapR) ∧
      target s.params 0x010 = some (.reg .bbCapR) ∧ target s.params 0x014 = some (.reg .nodeCapR)) ∧
    readMapped s (.reg .id) = (0x48554646, s.draws) ∧
    readMapped s (.reg .version) = (0x00010000, s.draws) ∧
    readMapped s (.reg .inCapR) = (BitVec.ofNat 32 s.params.inCap, s.draws) ∧
    readMapped s (.reg .outCapR) = (BitVec.ofNat 32 s.params.outCap, s.draws) ∧
    readMapped s (.reg .bbCapR) = (BitVec.ofNat 32 s.params.bbCap, s.draws) ∧
    readMapped s (.reg .nodeCapR) = (0x000001FF, s.draws) ∧
    ∀ r ∈ [Reg.id, .version, .inCapR, .outCapR, .bbCapR, .nodeCapR],
      s.eng = .idle → writeMapped s v (.reg r) = s

/-- R24, R31, R130. STATUS as read while Idle: bit 0 BUSY, 1 DONE, 2 ERROR = (ERR != 0), 3 OVERRUN, 4 FREQ_VALID,
5 TREE_VALID, 6 CODE_VALID, 7 zero, [15:8] ERR, [23:16] LAST_OP, [31:24] zero; BUSY is 1 exactly while ENG is
Pending. ERR shows the number that R130 gives each code, OK 0x00 to UNCODED_SYMBOL 0x0A; ERROR is 1 for each but OK. -/
def Obligations.StatusWordLayout : Prop :=
  ∀ s : State,
    let w := statusWord s
    (s.busy = true ↔ ∃ c, s.eng = .pending c) ∧
    w.getLsbD 0 = s.busy ∧ w.getLsbD 1 = s.done ∧ w.getLsbD 2 = (s.err != .ok) ∧ w.getLsbD 3 = s.overrun ∧
    w.getLsbD 4 = s.freqValid ∧ w.getLsbD 5 = s.treeValid ∧ w.getLsbD 6 = s.codeValid ∧ w.getLsbD 7 = false ∧
    w.extractLsb' 8 8 = s.err.toByte ∧ w.extractLsb' 16 8 = s.lastOp ∧ w.extractLsb' 24 8 = 0 ∧
    (∀ code ∈ [(ErrCode.ok, (0x00 : Byte)), (.illegalCmd, 0x01), (.emptyInput, 0x02), (.malformedPayload, 0x03),
        (.invalidPadding, 0x04), (.truncatedWalk, 0x05), (.capacity, 0x06), (.noFreq, 0x07), (.noTree, 0x08),
        (.noCode, 0x09), (.uncodedSymbol, 0x0A)],
      s.err = code.1 → w.extractLsb' 8 8 = code.2 ∧ w.getLsbD 2 = (code.2 != 0x00))

/-! ### Decoding -/

/-- R76. The words of the opcode map, written out, decode to their commands. -/
def Obligations.OpcodeMapDecodes : Prop :=
  decode 0x00000000 = .ok .nop ∧ decode 0x00000010 = .ok .freqBuild ∧ decode 0x00000011 = .ok .treeBuild ∧
  decode 0x00000012 = .ok .codeExtract ∧ decode 0x00000013 = .ok .treeSerialize ∧
  decode 0x00000014 = .ok .encodeData ∧ decode 0x00000015 = .ok .pack ∧ decode 0x00000020 = .ok .unpack ∧
  decode 0x00000021 = .ok .treeDeserialize ∧ decode 0x00000022 = .ok .decodeData ∧
  decode 0x00000030 = .ok .compress ∧ decode 0x00000031 = .ok .decompress ∧ decode 0x00000040 = .ok .out2in

/-- R74, R76. Decoding the word of a well-formed command gives it back, every command is well formed, and a word that
decodes to a command is that command's word. -/
def Obligations.DecodeEncodeAgree : Prop :=
  (∀ i, wellFormed i = true ∧ decode (encode i) = .ok i) ∧ ∀ w i, decode w = .ok i → encode i = w

/-- R77. A word is illegal exactly when RSVD is not 0 or OPCODE is not in the map. -/
def Obligations.IllegalWordsAreRejected : Prop :=
  ∀ w : Word, (∃ e, decode w = .error e) ↔
    (w.extractLsb' 8 24 ≠ 0 ∨
      w.extractLsb' 0 8 ∉ [0x00, 0x10, 0x11, 0x12, 0x13, 0x14, 0x15, 0x20, 0x21, 0x22, 0x30, 0x31, 0x40])

/-! ### Steps -/

/-- R87. When the pending word decodes to a command and it is ENGINE's turn, the step is that command performed on
the state (with the schedule's choice used up). With no host access to come it is ENGINE's turn and the schedule is
not read. A word placed by `withFetchWord` is the one performed next. The schedule and `withFetchWord` are the model's
choices (log entries 4 and 9). -/
def Obligations.StepPerformsTheDecodedCommand : Prop :=
  (∀ (s : State) w i, s.eng = .pending w → decode w = .ok i → s.turn = .engine → step s = exec i s.takeTurn) ∧
  (∀ (s : State) w, s.eng = .pending w → s.inputs = [] → s.turn = .engine ∧ s.takeTurn = s) ∧
  (∀ (s : State) (w : Word) i, decode w = .ok i →
    step (s.withFetchWord 32 w.toNat) = exec i (s.issue w))

/-- R90, R77. Performing an illegal word completes with ILLEGAL_CMD, the word as info and its low byte as op, and
changes nothing else. -/
def Obligations.IllegalWordCompletesWithError : Prop :=
  ∀ (s : State) w e, s.eng = .pending w → decode w = .error e → s.turn = .engine →
    ∃ t, step s = .next t ∧ t.eng = .idle ∧ t.done = true ∧ t.err = .illegalCmd ∧ t.errInfo = w ∧
      t.errOp = w.extractLsb' 0 8 ∧ t.uncomplete s = s.takeTurn

/-- R87, R153, R54. While a command is pending and HOST has an access to make, either agent may move next: the schedule
says which, and the choice is used up; with no choice left ENGINE moves. While Idle, HOST moves; with no host access to
come the machine then does nothing and its state persists (R143). HOST's step is its next access: a read or a write of a
bus address of BASE..BASE+0xFFFFFF acts at the offset address - BASE, any other address stops the machine with
`outsideRegion`, and a power-on reset puts the registers and memories in the reset state. The list of choices, the list
of accesses and the fault are the model's (log entries 4, 3 and 5). -/
def Obligations.EitherAgentMayMoveWhilePending : Prop :=
  (∀ (s : State) w, s.eng = .pending w → s.inputs ≠ [] →
    (∀ a rest, s.schedule = a :: rest → s.turn = a ∧ s.takeTurn = { s with schedule := rest }) ∧
    (s.schedule = [] → s.turn = .engine ∧ s.takeTurn = s)) ∧
  (∀ s : State, s.eng = .idle → s.turn = .host ∧ s.takeTurn = s ∧ (s.inputs = [] → step s = .next s)) ∧
  (∀ s : State, s.turn = .host → step s = hostStep s.takeTurn) ∧
  (∀ (s : State) addr size rest, s.inputs = .read addr size :: rest →
    hostStep s =
      if s.params.base ≤ addr ∧ addr < s.params.base + 0x1000000 then
        .next (busRead { s with inputs := rest } (addr - s.params.base) size)
      else .fault .outsideRegion) ∧
  (∀ (s : State) addr size strobe v rest, s.inputs = .write addr size strobe v :: rest →
    hostStep s =
      if s.params.base ≤ addr ∧ addr < s.params.base + 0x1000000 then
        .next (busWrite { s with inputs := rest } (addr - s.params.base) size strobe v)
      else .fault .outsideRegion) ∧
  (∀ (s : State) rest, s.inputs = .powerOn :: rest →
    hostStep s = .next { State.powerOn s.params with
      draws := s.draws, inputs := rest, schedule := s.schedule, answers := s.answers })

/-- R88, R89, R152. Every command, performed in any state, completes in that same step: ENG is Idle and DONE is 1. A
success leaves ERR, ERR_INFO and ERR_OP 0; a failure leaves an error and as ERR_OP the opcode of a primitive command,
which is the command itself unless that is a composite. -/
def Obligations.EveryCommandCompletes : Prop :=
  ∀ (i : Instr) (s : State), ∃ t, exec i s = .next t ∧ t.eng = .idle ∧ t.done = true ∧
    (t.CompletedOk ∨
      (t.err ≠ .ok ∧ ∃ j, j ∉ [Instr.compress, .decompress, .nop] ∧ t.errOp = j.opcode ∧
        (i ∉ [Instr.compress, .decompress] → j = i)))

/-! ### The host's accesses -/

/-- R85. A write of w to CMD while Idle sets ENG = Pending(w), BUSY 1, DONE 0, ERR 0 and LAST_OP = w[7:0], and nothing
else; the answer is OKAY and the interrupt line falls. -/
def Obligations.CmdWriteIssues : Prop :=
  ∀ (s : State) (w : Word), s.eng = .idle →
    let t := busWrite s 0x024 .word 0xF w
    t.eng = .pending w ∧ t.busy = true ∧ t.done = false ∧ t.err = .ok ∧ t.lastOp = w.extractLsb' 0 8 ∧
      t.irq = false ∧ t.answers = .writeDone .okay :: s.answers ∧
      { t with eng := s.eng, done := s.done, err := s.err, lastOp := s.lastOp, answers := s.answers } = s

/-- R68, R86. While a command is pending, an admitted write to anything but CTRL and STATUS is dropped: it is answered
OKAY, sets OVERRUN and changes nothing else. CTRL and STATUS writes do what they do at any other time. -/
def Obligations.WritesWhilePendingAreDropped : Prop :=
  ∀ (s : State) (c v : Word), s.eng = .pending c →
    (∀ (offset : Nat) (tg : Target), admitted s.params offset .word 0xF = some tg →
      tg ≠ .reg .ctrl → tg ≠ .reg .status →
      busWrite s offset .word 0xF v =
        { s with overrun := true, answers := .writeDone .okay :: s.answers }) ∧
    busWrite s 0x020 .word 0xF v = (s.writeCtrl v).answer (.writeDone .okay) ∧
    busWrite s 0x028 .word 0xF v = (s.writeStatus v).answer (.writeDone .okay)

/-- R67. While a command is pending every admitted read is answered OKAY. ID, VERSION, the capacity registers and CTRL
read exactly, STATUS reads exactly but for bits [6:4], and every other admitted read returns a free draw, each read its
own. That CMD and the reserved bits of STATUS follow this reading of R67 is the model's choice (log entry 8). -/
def Obligations.ReadsWhilePending : Prop :=
  ∀ (s : State) (c : Word), s.eng = .pending c →
    (∀ (offset : Nat), ∀ r ∈ [Reg.id, .version, .inCapR, .outCapR, .bbCapR, .nodeCapR, .ctrl],
      admitted s.params offset .word 0xF = some (.reg r) → s.ReadsOkay offset (readReg s r) s.draws) ∧
    (∃ v : BitVec 3, s.ReadsOkay 0x028 (statusWith s v) (s.draws + 1) ∧
      ∀ k, k < 32 → k ∉ [4, 5, 6] → (statusWith s v).getLsbD k = (statusWord s).getLsbD k) ∧
    (∀ (offset : Nat) (tg : Target), admitted s.params offset .word 0xF = some tg →
      tg ∉ [Target.reg .id, .reg .version, .reg .inCapR, .reg .outCapR, .reg .bbCapR, .reg .nodeCapR,
        .reg .ctrl, .reg .status] →
      s.ReadsOkay offset (Config.freshWord s.draws 0) (s.draws + 1))

/-- R56, R57, R58. An access that is not 32 bits wide, has not every strobe set, is not at a multiple of 4, or is at
an offset outside every region of R55 gets SLVERR (a read with data 0) and changes no state, a command pending or
not. -/
def Obligations.UnadmittedAccessesGetSlverr : Prop :=
  ∀ (s : State) (offset : Nat) (size : AccessSize) (strobe : BitVec 4) (v : Word),
    (size ≠ .word ∨ offset % 4 ≠ 0 ∨ target s.params offset = none →
      busRead s offset size = { s with answers := .readData 0 .slverr :: s.answers }) ∧
    (size ≠ .word ∨ strobe ≠ 0xF ∨ offset % 4 ≠ 0 ∨ target s.params offset = none →
      busWrite s offset size strobe v = { s with answers := .writeDone .slverr :: s.answers })

/-- R55, R25, R62, R64, R65, R53, R60. The address map: an offset is mapped exactly when it is that of a register of R25 or lies in one of
the six windows; the word offsets name their register, FREQ count, word of a NODE or CODE entry, and IN, OUT or BB
word. While Idle a FREQ word reads its count, byte 4k+m of IN_BUF and OUT_BUF is in bits [31-8m : 24-8m] of word k (R64)
and bit 32k+m of BITBUF is bit 31-m of word k (R65), each wherever it is specified. Each unspecified count, byte and bit
reads a free draw of its own (R53, R60), the next number after those of the unspecified locations before it in the word,
and the read takes as many draws as the word has unspecified locations: none where it is specified whole. That a draw is
a free value numbered by a counter is the model's choice (log entry 2). -/
def Obligations.AddressMapRegions : Prop :=
  (∀ (p : Config.Params) (offset : Nat), paramsWellFormed p = true → offset < 16777216 →
    ((target p offset).isSome = true ↔
      (∃ r : Reg, r.offset = offset) ∨ (0x001000 ≤ offset ∧ offset ≤ 0x0013FF) ∨
      (0x002000 ≤ offset ∧ offset ≤ 0x003FEF) ∨ (0x004000 ≤ offset ∧ offset ≤ 0x007FFF) ∨
      (0x400000 ≤ offset ∧ offset ≤ 0x400000 + p.inCap - 1) ∨
      (0x800000 ≤ offset ∧ offset ≤ 0x800000 + p.outCap - 1) ∨
      (0xC00000 ≤ offset ∧ offset ≤ 0xC00000 + p.bbCap / 8 - 1))) ∧
  (∀ p : Config.Params, paramsWellFormed p = true →
    (∀ ro ∈ [(Reg.id, 0x000), (.version, 0x004), (.inCapR, 0x008), (.outCapR, 0x00C), (.bbCapR, 0x010),
        (.nodeCapR, 0x014), (.ctrl, 0x020), (.cmd, 0x024), (.status, 0x028), (.errInfo, 0x02C), (.errOp, 0x030),
        (.inLen, 0x040), (.outLen, 0x044), (.bbLen, 0x048), (.cursor, 0x04C), (.root, 0x050), (.nodeCnt, 0x054),
        (.symCnt, 0x058), (.pad, 0x05C)],
      ro.1.offset = ro.2 ∧ target p ro.2 = some (.reg ro.1)) ∧
    (∀ sym, sym < 256 → target p (0x001000 + 4 * sym) = some (.freqWord sym)) ∧
    (∀ i w, i ≤ 510 → w < 4 → target p (0x002000 + 16 * i + 4 * w) = some (.nodeWord i w)) ∧
    (∀ sym w, sym < 256 → w < 16 → target p (0x004000 + 64 * sym + 4 * w) = some (.codeWord sym w)) ∧
    (∀ k, 4 * k < p.inCap → target p (0x400000 + 4 * k) = some (.inWord k)) ∧
    (∀ k, 4 * k < p.outCap → target p (0x800000 + 4 * k) = some (.outWord k)) ∧
    (∀ k, 32 * k < p.bbCap → target p (0xC00000 + 4 * k) = some (.bbWord k))) ∧
  (∀ s : State, paramsWellFormed s.params = true → s.eng = .idle →
    (∀ sym, sym < 256 →
      (∀ n, s.freq.get? sym = some n → s.ReadsOkay (0x001000 + 4 * sym) n s.draws) ∧
      (s.freq.get? sym = none → s.ReadsOkay (0x001000 + 4 * sym) (Config.freshWord s.draws 0) (s.draws + 1))) ∧
    (∀ k, 4 * k < s.params.inCap →
      ∃ w, s.ReadsOkay (0x400000 + 4 * k) w (s.draws + s.inBuf.unspecified (4 * k) 4) ∧ ∀ m, m < 4 →
      (∀ b, s.inBuf.get? (4 * k + m) = some b → w.extractLsb' (24 - 8 * m) 8 = b) ∧
      (s.inBuf.get? (4 * k + m) = none → w.extractLsb' (24 - 8 * m) 8 =
        (Config.freshWord (s.draws + s.inBuf.unspecified (4 * k) m) 0).setWidth 8)) ∧
    (∀ k, 4 * k < s.params.outCap →
      ∃ w, s.ReadsOkay (0x800000 + 4 * k) w (s.draws + s.outBuf.unspecified (4 * k) 4) ∧ ∀ m, m < 4 →
      (∀ b, s.outBuf.get? (4 * k + m) = some b → w.extractLsb' (24 - 8 * m) 8 = b) ∧
      (s.outBuf.get? (4 * k + m) = none → w.extractLsb' (24 - 8 * m) 8 =
        (Config.freshWord (s.draws + s.outBuf.unspecified (4 * k) m) 0).setWidth 8)) ∧
    (∀ k, 32 * k < s.params.bbCap →
      ∃ w, s.ReadsOkay (0xC00000 + 4 * k) w (s.draws + s.bitBuf.unspecified (32 * k) 32) ∧ ∀ m, m < 32 →
      (∀ b, s.bitBuf.get? (32 * k + m) = some b → w.getLsbD (31 - m) = b) ∧
      (s.bitBuf.get? (32 * k + m) = none → w.getLsbD (31 - m) =
        (Config.freshWord (s.draws + s.bitBuf.unspecified (32 * k) m) 0).getLsbD 0)))

/-- R56, R60, R25, R29 to R41. An admitted read is answered OKAY with the data of its register or word. While Idle every
register reads its constant or its field, zero-extended to 32 bits, without a draw, and CMD reads 0. (The windows are in
AddressMapRegions, NodeWindowLayout and CodeWindowLayout.) A read has no side effect: it changes nothing but the list of
answers and the model's draw counter. While Idle, a read that met no unspecified data answers the same when repeated.
The counter is the model's (log entry 2). -/
def Obligations.ReadsHaveNoSideEffect : Prop :=
  ∀ (s : State) (offset : Nat) (size : AccessSize),
    (∀ tg, admitted s.params offset .word 0xF = some tg →
      s.ReadsOkay offset (readMapped s tg).1 (readMapped s tg).2) ∧
    (s.eng = .idle →
      s.ReadsOkay 0x000 0x48554646 s.draws ∧ s.ReadsOkay 0x004 0x00010000 s.draws ∧
      s.ReadsOkay 0x008 (BitVec.ofNat 32 s.params.inCap) s.draws ∧
      s.ReadsOkay 0x00C (BitVec.ofNat 32 s.params.outCap) s.draws ∧
      s.ReadsOkay 0x010 (BitVec.ofNat 32 s.params.bbCap) s.draws ∧ s.ReadsOkay 0x014 0x000001FF s.draws ∧
      s.ReadsOkay 0x020 ((BitVec.ofBool s.irqEn).setWidth 32) s.draws ∧ s.ReadsOkay 0x024 0 s.draws ∧
      s.ReadsOkay 0x028 (statusWord s) s.draws ∧ s.ReadsOkay 0x02C s.errInfo s.draws ∧
      s.ReadsOkay 0x030 (s.errOp.setWidth 32) s.draws ∧ s.ReadsOkay 0x040 s.inLen s.draws ∧
      s.ReadsOkay 0x044 s.outLen s.draws ∧ s.ReadsOkay 0x048 s.bbLen s.draws ∧
      s.ReadsOkay 0x04C s.cursor s.draws ∧ s.ReadsOkay 0x050 (s.root.setWidth 32) s.draws ∧
      s.ReadsOkay 0x054 (s.nodeCnt.setWidth 32) s.draws ∧ s.ReadsOkay 0x058 (s.symCnt.setWidth 32) s.draws ∧
      s.ReadsOkay 0x05C (s.pad.setWidth 32) s.draws) ∧
    { busRead s offset size with draws := s.draws, answers := s.answers } = s ∧
    (s.eng = .idle → (busRead s offset size).draws = s.draws →
      ∃ a, busRead s offset size = s.answer a ∧ busRead (s.answer a) offset size = (s.answer a).answer a)

/-- R59. While Idle, a write to a read-only register, or to a word of the FREQ, NODE, CODE or OUT window, answers OKAY
and changes nothing. -/
def Obligations.ReadOnlyWritesAreIgnored : Prop :=
  ∀ (s : State) (v : Word) (offset : Nat) (tg : Target), s.eng = .idle →
    admitted s.params offset .word 0xF = some tg →
    ((∃ r ∈ [Reg.id, .version, .inCapR, .outCapR, .bbCapR, .nodeCapR, .errInfo, .errOp, .outLen, .cursor, .root,
        .nodeCnt, .symCnt, .pad], tg = .reg r) ∨
      (∃ k, tg = .freqWord k) ∨ (∃ i w, tg = .nodeWord i w) ∨ (∃ k w, tg = .codeWord k w) ∨
      (∃ k, tg = .outWord k)) →
    busWrite s offset .word 0xF v = { s with answers := .writeDone .okay :: s.answers }

/-- R31, R42. A STATUS write clears DONE when bit 1 of the value is 1 and OVERRUN when bit 3 is 1, and changes nothing
else, a command pending or not. -/
def Obligations.StatusWriteClearsDoneAndOverrun : Prop :=
  ∀ (s : State) (v : Word),
    let t := busWrite s 0x028 .word 0xF v
    t.done = (if v.getLsbD 1 then false else s.done) ∧
    t.overrun = (if v.getLsbD 3 then false else s.overrun) ∧
    { t with done := s.done, overrun := s.overrun, answers := s.answers } = s

/-- R29. A CTRL write with bit 1 = 0 stores bit 0 in IRQ_EN and changes nothing else; with bit 1 = 1 the soft reset
happens and IRQ_EN ends at 0. CTRL reads IRQ_EN in bit 0 and 0 elsewhere; IRQ_EN is 0 after reset. -/
def Obligations.CtrlWriteRule : Prop :=
  ∀ (s : State) (v : Word),
    (v.getLsbD 1 = false →
      busWrite s 0x020 .word 0xF v =
        { s with irqEn := v.getLsbD 0, answers := .writeDone .okay :: s.answers }) ∧
    (v.getLsbD 1 = true →
      busWrite s 0x020 .word 0xF v = s.softReset.answer (.writeDone .okay) ∧ s.softReset.irqEn = false) ∧
    (readMapped s (.reg .ctrl)).1.getLsbD 0 = s.irqEn ∧
    (∀ k, 1 ≤ k → (readMapped s (.reg .ctrl)).1.getLsbD k = false) ∧
    (∀ p, (State.powerOn p).irqEn = false)

/-- R145, R146. The soft reset: ENG is Idle, every register and flag has its reset value, DONE stays 0 (no
completion); a memory in Dest of the pending command loses every location, every other memory, and every memory when
ENG was Idle or the word illegal, keeps its contents. -/
def Obligations.SoftResetRule : Prop :=
  ∀ s : State,
    let t := s.softReset
    (∀ r, readReg t r = readReg (State.powerOn s.params) r) ∧ t.eng = .idle ∧ t.err = .ok ∧
    { t with inBuf := [], outBuf := [], bitBuf := [], freq := [], node := [], code := [] } = s.powerCycle ∧
    (s.destPending = [] → t.inBuf = s.inBuf ∧ t.outBuf = s.outBuf ∧ t.bitBuf = s.bitBuf ∧ t.freq = s.freq ∧
      t.node = s.node ∧ t.code = s.code) ∧
    (s.eng = .idle → s.destPending = []) ∧
    (∀ w e, s.eng = .pending w → decode w = .error e → s.destPending = []) ∧
    (∀ w i, s.eng = .pending w → decode w = .ok i →
      t.inBuf = (if i = .out2in then [] else s.inBuf) ∧
      t.outBuf = (if i ∈ [Instr.pack, .decodeData, .compress, .decompress] then [] else s.outBuf) ∧
      t.bitBuf = (if i ∈ [Instr.treeSerialize, .encodeData, .unpack, .compress, .decompress] then [] else s.bitBuf) ∧
      t.freq = (if i ∈ [Instr.freqBuild, .compress] then [] else s.freq) ∧
      t.node = (if i ∈ [Instr.treeBuild, .treeDeserialize, .compress, .decompress] then [] else s.node) ∧
      t.code = (if i ∈ [Instr.codeExtract, .compress] then [] else s.code))

/-- R62, R64, R34. While Idle, a write to IN word k sets IN bytes 4k to 4k+3, byte 4k+m from bits [31-8m : 24-8m],
changes no other byte and no length register, is answered OKAY, and the word then reads back as written. A write to
IN_LEN stores all 32 bits, whatever IN_CAP is, changes nothing else, is answered OKAY, and reads back as written. -/
def Obligations.InWindowWriteThenRead : Prop :=
  ∀ (s : State) (v : Word) (k : Nat), s.eng = .idle →
    (let t := writeMapped s v (.inWord k)
    (∀ j, t.inBuf.get? j =
      if j = 4 * k then some (v.extractLsb' 24 8) else if j = 4 * k + 1 then some (v.extractLsb' 16 8)
      else if j = 4 * k + 2 then some (v.extractLsb' 8 8) else if j = 4 * k + 3 then some (v.extractLsb' 0 8)
      else s.inBuf.get? j) ∧
    { t with inBuf := s.inBuf } = s ∧ readMapped t (.inWord k) = (v, s.draws) ∧
    (∀ offset, admitted s.params offset .word 0xF = some (.inWord k) →
      busWrite s offset .word 0xF v = t.answer (.writeDone .okay) ∧ t.ReadsOkay offset v s.draws)) ∧
    busWrite s 0x040 .word 0xF v = { s with inLen := v }.answer (.writeDone .okay) ∧
    { s with inLen := v }.ReadsOkay 0x040 v s.draws

/-- R62, R65, R36. While Idle, a write to BB word k sets bits 32k to 32k+31, sequence bit 32k+i from word bit 31-i,
changes no other bit and no length register, is answered OKAY, and the word then reads back as written. A write to
BB_LEN stores all 32 bits, whatever BB_CAP is, changes nothing else, is answered OKAY, and reads back as written. -/
def Obligations.BitWindowWriteThenRead : Prop :=
  ∀ (s : State) (v : Word) (k : Nat), s.eng = .idle →
    (let t := writeMapped s v (.bbWord k)
    (∀ j, t.bitBuf.get? j =
      if 32 * k ≤ j ∧ j < 32 * k + 32 then some (v.getLsbD (31 - (j - 32 * k))) else s.bitBuf.get? j) ∧
    { t with bitBuf := s.bitBuf } = s ∧ readMapped t (.bbWord k) = (v, s.draws) ∧
    (∀ offset, admitted s.params offset .word 0xF = some (.bbWord k) →
      busWrite s offset .word 0xF v = t.answer (.writeDone .okay) ∧ t.ReadsOkay offset v s.draws)) ∧
    busWrite s 0x048 .word 0xF v = { s with bbLen := v }.answer (.writeDone .okay) ∧
    { s with bbLen := v }.ReadsOkay 0x048 v s.draws

/-- R78, R47. While Idle, the four words of a NODE entry below NODE_CNT: WEIGHT; LEAF and SYM; LEFT; RIGHT, with NIL
for the children of a Leaf. An entry at NODE_CNT or above, or one that is unspecified, reads a fresh draw of a whole
word (the model's choice, log entry 8). -/
def Obligations.NodeWindowLayout : Prop :=
  ∀ (s : State) (i : Nat), s.eng = .idle →
    (∀ sym w, i < s.nodeCnt.toNat → s.node.get? i = some (.leaf sym w) →
      readMapped s (.nodeWord i 0) = (w, s.draws) ∧
      readMapped s (.nodeWord i 1) = (BitVec.ofNat 32 (2 ^ 31 + sym.toNat), s.draws) ∧
      readMapped s (.nodeWord i 2) = (0x1FF, s.draws) ∧ readMapped s (.nodeWord i 3) = (0x1FF, s.draws)) ∧
    (∀ l r w, i < s.nodeCnt.toNat → s.node.get? i = some (.internal l r w) →
      readMapped s (.nodeWord i 0) = (w, s.draws) ∧ readMapped s (.nodeWord i 1) = (0, s.draws) ∧
      readMapped s (.nodeWord i 2) = (BitVec.ofNat 32 l.toNat, s.draws) ∧
      readMapped s (.nodeWord i 3) = (BitVec.ofNat 32 r.toNat, s.draws)) ∧
    (∀ w, s.nodeCnt.toNat ≤ i ∨ s.node.get? i = none →
      readMapped s (.nodeWord i w) = (Config.freshWord s.draws 0, s.draws + 1))

/-- R79, R53. While Idle, the sixteen words of a specified CODE entry whose path is at most 255 bits: PRESENT in bit 31
and LEN in bits [8:0] of word 0; PATH bit j is bit 31 - (j mod 32) of PATH word j div 32, bits at LEN and beyond are 0;
the reserved words are 0 in every entry. Every other word of an unspecified entry reads a fresh draw of a whole word
(the model's choice, log entry 8). -/
def Obligations.CodeWindowLayout : Prop :=
  ∀ (s : State) (sym : Nat), s.eng = .idle →
    (∀ e : CodeEntry, s.code.get? sym = some e → e.path.length ≤ 255 →
      readMapped s (.codeWord sym 0) =
        (BitVec.ofNat 32 ((if e.present then 2 ^ 31 else 0) + e.path.length), s.draws) ∧
      ∀ w j, w < 8 → j < 32 →
        (readMapped s (.codeWord sym (w + 1))).1.getLsbD (31 - j) = e.path.getD (32 * w + j) false ∧
        (readMapped s (.codeWord sym (w + 1))).2 = s.draws) ∧
    (∀ w, w < 9 → s.code.get? sym = none →
      readMapped s (.codeWord sym w) = (Config.freshWord s.draws 0, s.draws + 1)) ∧
    (∀ w, 9 ≤ w → readMapped s (.codeWord sym w) = (0, s.draws))

/-- R84. One step of WAIT reads STATUS. While a command is pending the read returns BUSY = 1 and the loop goes on;
when none is pending it returns the STATUS word with BUSY = 0 and the loop ends. The list of host accesses is the
model's (log entry 3). -/
def Obligations.WaitPollsStatus : Prop :=
  ∀ (s : State) rest, s.inputs = .wait :: rest →
    (∀ c, s.eng = .pending c → ∃ t v, hostStep s = .next t ∧ v.getLsbD 0 = true ∧
      t.answers = .readData v .okay :: s.answers ∧
      { t with answers := s.answers, draws := s.draws } = s) ∧
    (s.eng = .idle → hostStep s =
      .next { s with inputs := rest, answers := .readData (statusWord s) .okay :: s.answers } ∧
      (statusWord s).getLsbD 0 = false)

/-- R133. irq = IRQ_EN AND DONE. Each of the four ways clears it: a STATUS write with bit 1 set, an issue, a CTRL
write that clears IRQ_EN, and a soft reset. A completion with IRQ_EN = 1 raises it. -/
def Obligations.InterruptLevel : Prop :=
  (∀ s : State, s.irq = (s.irqEn && s.done)) ∧
  (∀ (s : State) (v : Word), v.getLsbD 1 = true → (busWrite s 0x028 .word 0xF v).irq = false) ∧
  (∀ (s : State) (w : Word), s.eng = .idle → (busWrite s 0x024 .word 0xF w).irq = false) ∧
  (∀ (s : State) (v : Word), v.getLsbD 0 = false → (busWrite s 0x020 .word 0xF v).irq = false) ∧
  (∀ s : State, s.softReset.irq = false) ∧
  (∀ (i : Instr) (s t : State), s.irqEn = true → exec i s = .next t → t.irq = true)

/-! ### The commands -/

/-- R92. NOP makes only the completion writes, and ERR becomes 0. -/
def Obligations.NopOnlyCompletes : Prop :=
  ∀ s : State, ∃ t, exec .nop s = .next t ∧ t.CompletedOk ∧ t.uncomplete s = s

/-- R93. OUT2IN with OUT_LEN <= IN_CAP copies `OUT[0..OUT_LEN)` to IN_BUF and OUT_LEN to IN_LEN and changes nothing
else; with OUT_LEN > IN_CAP it fails with CAPACITY, info OUT_LEN, and writes nothing. -/
def Obligations.Out2inRule : Prop :=
  ∀ s : State, ∃ t, exec .out2in s = .next t ∧
    (s.outLen.toNat ≤ s.params.inCap →
      t.CompletedOk ∧ t.inLen = s.outLen ∧
      (∃ xs, xs.length = s.outLen.toNat ∧ s.outBuf.Reads 0 xs ∧ s.inBuf.Written t.inBuf 0 xs) ∧
      { t.uncomplete s with inBuf := s.inBuf, inLen := s.inLen } = s) ∧
    (s.params.inCap < s.outLen.toNat →
      t.CompletedErr .out2in .capacity s.outLen.toNat ∧ t.uncomplete s = s)

/-- R98. PACK: with n = BB_LEN <= BB_CAP and ceil(n/8) + 1 <= OUT_CAP, `Pack(BB[0..n))` goes to OUT from 0, OUT_LEN is
its length ceil(n/8) + 1 and PAD is (8 - n mod 8) mod 8, nothing else changes; each check that fails raises CAPACITY
with its info, OUT_LEN becomes 0 and nothing else changes. -/
def Obligations.PackRule : Prop :=
  ∀ s : State,
    let n := s.bbLen.toNat
    ∃ t, exec .pack s = .next t ∧
    (n ≤ s.params.bbCap → (n + 7) / 8 + 1 ≤ s.params.outCap →
      t.CompletedOk ∧ t.outLen.toNat = (n + 7) / 8 + 1 ∧ t.pad.toNat = (8 - n % 8) % 8 ∧
      (∃ b, b.length = n ∧ s.bitBuf.Reads 0 b ∧ s.outBuf.Written t.outBuf 0 (packBytes b)) ∧
      { t.uncomplete s with outBuf := s.outBuf, outLen := s.outLen, pad := s.pad } = s) ∧
    (s.params.bbCap < n →
      t.CompletedErr .pack .capacity n ∧ t.outLen = 0 ∧ { t.uncomplete s with outLen := s.outLen } = s) ∧
    (n ≤ s.params.bbCap → s.params.outCap < (n + 7) / 8 + 1 →
      t.CompletedErr .pack .capacity ((n + 7) / 8 + 1) ∧ t.outLen = 0 ∧
      { t.uncomplete s with outLen := s.outLen } = s)

/-- R99. UNPACK: with m = IN_LEN, 1 <= m <= IN_CAP, and a control byte c (the last byte) with c <= 7 and
c <= 8*(m-1) and 8*(m-1) - c <= BB_CAP, the bits of the first m-1 bytes less the last c go to BITBUF from 0, BB_LEN is
their number and PAD is c; each check that fails raises its error with its info, in the order of the rule, BB_LEN
becomes 0 and nothing else changes. That an unspecified control byte is drawn once is an inference (log entry 6). -/
def Obligations.UnpackRule : Prop :=
  ∀ s : State,
    let m := s.inLen.toNat
    ∃ t, exec .unpack s = .next t ∧
    (s.params.inCap < m → t.CompletedErr .unpack .capacity m ∧ t.bbLen = 0 ∧
      { t.uncomplete s with bbLen := s.bbLen } = s) ∧
    (m ≤ s.params.inCap → m = 0 → t.CompletedErr .unpack .malformedPayload 0 ∧ t.bbLen = 0 ∧
      { t.uncomplete s with bbLen := s.bbLen } = s) ∧
    (m ≤ s.params.inCap → 0 < m → ∃ x c, x.length = m - 1 ∧ s.inBuf.Reads 0 (x ++ [c]) ∧
      ((7 < c.toNat ∨ 8 * (m - 1) < c.toNat) →
        t.CompletedErr .unpack .invalidPadding c.toNat ∧ t.bbLen = 0 ∧
        { t.uncomplete s with bbLen := s.bbLen } = s) ∧
      (c.toNat ≤ 7 → c.toNat ≤ 8 * (m - 1) → s.params.bbCap < 8 * (m - 1) - c.toNat →
        t.CompletedErr .unpack .capacity (8 * (m - 1) - c.toNat) ∧ t.bbLen = 0 ∧
        { t.uncomplete s with bbLen := s.bbLen } = s) ∧
      (c.toNat ≤ 7 → c.toNat ≤ 8 * (m - 1) → 8 * (m - 1) - c.toNat ≤ s.params.bbCap →
        t.CompletedOk ∧ t.bbLen = BitVec.ofNat 32 (8 * (m - 1) - c.toNat) ∧ t.pad.toNat = c.toNat ∧
        s.bitBuf.Written t.bitBuf 0 ((x.flatMap bits8).take (8 * (m - 1) - c.toNat)) ∧
        { t.uncomplete s with bitBuf := s.bitBuf, bbLen := s.bbLen, pad := s.pad } = s))

/-- R101, R100. FREQ_BUILD: with IN_LEN <= IN_CAP every FREQ[sym] is the number of positions of `IN[0..IN_LEN)` that
hold sym, SYM_CNT is the number of symbols with a count > 0 and FREQ_VALID is 1, nothing else changes; with
IN_LEN > IN_CAP it fails with CAPACITY, info IN_LEN, FREQ_VALID and SYM_CNT become 0 and nothing else changes. The
parameters meet R8, so no count is truncated (R10). That an unspecified byte is drawn once is an inference (log entry
6). -/
def Obligations.FreqBuildRule : Prop :=
  ∀ s : State, paramsWellFormed s.params = true → ∃ t, exec .freqBuild s = .next t ∧
    (s.inLen.toNat ≤ s.params.inCap →
      t.CompletedOk ∧ t.freqValid = true ∧
      (∃ x, x.length = s.inLen.toNat ∧ s.inBuf.Reads 0 x ∧
        (∀ sym, sym < 256 → ∃ n, t.freq.get? sym = some n ∧ n.toNat = x.count (BitVec.ofNat 8 sym)) ∧
        (∀ sym, 256 ≤ sym → t.freq.get? sym = none) ∧
        t.symCnt.toNat = ((List.range 256).filter (fun sym => BitVec.ofNat 8 sym ∈ x)).length) ∧
      { t.uncomplete s with freq := s.freq, symCnt := s.symCnt, freqValid := s.freqValid } = s) ∧
    (s.params.inCap < s.inLen.toNat →
      t.CompletedErr .freqBuild .capacity s.inLen.toNat ∧ t.freqValid = false ∧ t.symCnt = 0 ∧
      { t.uncomplete s with symCnt := s.symCnt, freqValid := s.freqValid } = s)

/-- R108, R104, R107. TREE_BUILD with FREQ_VALID = 1 and L > 0 symbols of count > 0: the L leaves stand at NODE[0..L)
in ascending symbol order with their counts, entries L to 2L-2 are Internal, ROOT is 2L-2, NODE_CNT is 2L-1, SYM_CNT is
L, TREE_VALID 1, CODE_VALID 0, entries from 2L-1 on are unspecified and nothing else changes. FREQ_VALID = 0 raises
NO_FREQ and L = 0 raises EMPTY_INPUT, both with info 0; then the tree's flags and registers become 0 and nothing else
changes. -/
def Obligations.TreeBuildRule : Prop :=
  ∀ s : State, ∃ t, exec .treeBuild s = .next t ∧
    (s.freqValid = false → t.CompletedErr .treeBuild .noFreq 0 ∧
      t.treeValid = false ∧ t.codeValid = false ∧ t.nodeCnt = 0 ∧ t.root = 0 ∧ t.symCnt = 0 ∧
      (t.uncomplete s).untree s = s) ∧
    (s.freqValid = true → ∃ counts, counts.length = 256 ∧ s.freq.Reads 0 counts ∧
      let syms := (List.range 256).filter (fun k => counts.getD k 0 ≠ 0)
      let n := syms.length
      (n = 0 → t.CompletedErr .treeBuild .emptyInput 0 ∧
        t.treeValid = false ∧ t.codeValid = false ∧ t.nodeCnt = 0 ∧ t.root = 0 ∧ t.symCnt = 0 ∧
        (t.uncomplete s).untree s = s) ∧
      (0 < n → t.CompletedOk ∧ t.treeValid = true ∧ t.codeValid = false ∧ t.symCnt.toNat = n ∧
        t.nodeCnt.toNat = 2 * n - 1 ∧ t.root.toNat = 2 * n - 2 ∧
        (∀ j sym, syms[j]? = some sym →
          t.node.get? j = some (.leaf (BitVec.ofNat 8 sym) (counts.getD sym 0))) ∧
        (∀ j, n ≤ j → j < 2 * n - 1 → ∃ l r w, t.node.get? j = some (.internal l r w)) ∧
        (∀ j, 2 * n - 1 ≤ j → t.node.get? j = none) ∧
        { (t.uncomplete s).untree s with node := s.node } = s))

/-- R103, R105, R106. In the tree TREE_BUILD makes from specified counts whose sum fits 32 bits (R10), each Internal
entry i has as Left the entry with the least (weight, stamp) among the entries before i that no earlier Internal entry
has taken, as Right the least of the others, and as weight the sum of the two: first-popped is Left, and among equal
weights the first inserted is popped first. -/
def Obligations.MergeTakesTheTwoLeast : Prop :=
  ∀ (s : State) (counts : List Word), s.freqValid = true → counts.length = 256 →
    (∀ k, k < 256 → s.freq.get? k = counts[k]?) → (counts.map BitVec.toNat).sum < 2 ^ 32 →
    (∃ k, counts.getD k 0 ≠ 0) →
    ∃ t, exec .treeBuild s = .next t ∧ t.CompletedOk ∧
    ∀ i l r w, t.node.get? i = some (.internal l r w) →
      let arena := t.arena
      l.toNat < i ∧ r.toNat < i ∧ l ≠ r ∧ ¬ Consumed arena i l.toNat ∧ ¬ Consumed arena i r.toNat ∧
      PopsNoLater arena l.toNat r.toNat ∧
      (∀ j, j < i → ¬ Consumed arena i j → j ≠ l.toNat → j ≠ r.toNat → PopsNoLater arena r.toNat j) ∧
      w.toNat = (nodeAt arena l.toNat).weight.toNat + (nodeAt arena r.toNat).weight.toNat

/-- R106. The weight of the root TREE_BUILD makes from specified counts whose sum fits 32 bits (R10) is the sum of all
counts. -/
def Obligations.RootWeightIsTheSumOfCounts : Prop :=
  ∀ (s : State) (counts : List Word), s.freqValid = true → counts.length = 256 →
    (∀ k, k < 256 → s.freq.get? k = counts[k]?) → (counts.map BitVec.toNat).sum < 2 ^ 32 →
    (∃ k, counts.getD k 0 ≠ 0) →
    ∃ t e, exec .treeBuild s = .next t ∧ t.CompletedOk ∧ t.node.get? t.root.toNat = some e ∧
      e.weight.toNat = (counts.map BitVec.toNat).sum

/-- R113, R110, R111, R112. CODE_EXTRACT on a tree as R48 says: every CODE entry is specified; an entry is present
exactly when its symbol has a code in the tree (a path to a leaf with the symbol; "1" on a lone leaf); its PATH is such
a code, the last in pre-order where a symbol stands on more leaves than one; an absent entry has no path; CODE_VALID is
1 and nothing else changes. Without a tree it raises NO_TREE, CODE_VALID becomes 0 and nothing else changes. -/
def Obligations.CodeExtractRule : Prop :=
  ∀ s : State, ∃ t, exec .codeExtract s = .next t ∧
    (s.treeValid = false → t.CompletedErr .codeExtract .noTree 0 ∧ t.codeValid = false ∧
      { t.uncomplete s with codeValid := s.codeValid } = s) ∧
    (s.treeValid = true →
      t.CompletedOk ∧ t.codeValid = true ∧ { t.uncomplete s with code := s.code, codeValid := s.codeValid } = s ∧
      (s.TreeOk → ∀ sym, sym < 256 → ∃ e, t.code.get? sym = some e ∧
        (e.present = true ↔ ∃ p, IsCodeOf s.arena s.root.toNat p (BitVec.ofNat 8 sym)) ∧
        (e.present = true → IsCodeOf s.arena s.root.toNat e.path (BitVec.ofNat 8 sym) ∧
          ∀ p, IsCodeOf s.arena s.root.toNat p (BitVec.ofNat 8 sym) → p = e.path ∨ PathBefore p e.path) ∧
        (e.present = false → e.path = [])))

/-- R109. The codes CODE_EXTRACT derives are prefix-free: no code of a present symbol is a prefix of another's. -/
def Obligations.CodesArePrefixFree : Prop :=
  ∀ s : State, s.treeValid = true → ∃ t, exec .codeExtract s = .next t ∧
    ∀ a b ea eb, t.code.get? a = some ea → t.code.get? b = some eb → a ≠ b →
      ea.present = true → eb.present = true → ¬ ea.path <+: eb.path

/-- R116, R80. TREE_SERIALIZE with a tree whose encoding fits: the encoding of the tree's shape goes to BITBUF from 0,
BB_LEN is its length, nothing else changes. Without a tree it raises NO_TREE, with an encoding over BB_CAP CAPACITY;
BB_LEN becomes 0 and nothing else changes. -/
def Obligations.TreeSerializeRule : Prop :=
  ∀ s : State,
    let bits := (shapeAt s.arena s.nodeCnt.toNat s.root.toNat).encode
    ∃ t, exec .treeSerialize s = .next t ∧
    (s.treeValid = false → t.CompletedErr .treeSerialize .noTree 0 ∧ t.bbLen = 0 ∧
      { t.uncomplete s with bbLen := s.bbLen } = s) ∧
    (s.treeValid = true → s.params.bbCap < bits.length →
      t.CompletedErr .treeSerialize .capacity bits.length ∧ t.bbLen = 0 ∧
      { t.uncomplete s with bbLen := s.bbLen } = s) ∧
    (s.treeValid = true → bits.length ≤ s.params.bbCap →
      t.CompletedOk ∧ t.bbLen = BitVec.ofNat 32 bits.length ∧ s.bitBuf.Written t.bitBuf 0 bits ∧
      { t.uncomplete s with bitBuf := s.bitBuf, bbLen := s.bbLen } = s)

/-- R115. A tree with L leaves as R48 says has NODE_CNT = 2L - 1 and an encoding of 10*L - 1 bits, at most 2559; so
TREE_SERIALIZE never fails on one when BB_CAP meets R8. -/
def Obligations.TreeEncodingLength : Prop :=
  ∀ s : State, paramsWellFormed s.params = true → s.treeValid = true → s.TreeOk →
    let leaves := s.arena.countP NodeEntry.isLeaf
    s.nodeCnt.toNat = 2 * leaves - 1 ∧ 1 ≤ leaves ∧ leaves ≤ 256 ∧
    ∃ t, exec .treeSerialize s = .next t ∧ t.CompletedOk ∧ t.bbLen.toNat = 10 * leaves - 1

/-- R118, R117. TREE_DESERIALIZE: with BB_LEN <= BB_CAP and bits that begin with the encoding of a tree T of at most
511 nodes, `NODE[0..n)` holds a tree of shape T in pre-order from ROOT 0, every weight 0, CURSOR is the length of the
encoding, NODE_CNT the number of nodes, SYM_CNT the number of leaves, TREE_VALID 1, CODE_VALID 0, every further NODE
entry is unspecified and nothing else changes. Other bits raise MALFORMED_PAYLOAD with the cursor at the check of Parse
that fails (R117) as info and leave every NODE entry unspecified. BB_LEN > BB_CAP raises CAPACITY and leaves NODE unchanged. A failure
clears the tree's flags and registers and CURSOR. -/
def Obligations.TreeDeserializeRule : Prop :=
  ∀ s : State, ∃ t, exec .treeDeserialize s = .next t ∧
    (s.params.bbCap < s.bbLen.toNat → t.CompletedErr .treeDeserialize .capacity s.bbLen.toNat ∧
      t.treeValid = false ∧ t.codeValid = false ∧ t.root = 0 ∧ t.nodeCnt = 0 ∧ t.symCnt = 0 ∧ t.cursor = 0 ∧
      { (t.uncomplete s).untree s with cursor := s.cursor } = s) ∧
    (s.bbLen.toNat ≤ s.params.bbCap → ∃ bits, bits.length = s.bbLen.toNat ∧ s.bitBuf.Reads 0 bits ∧
      { (t.uncomplete s).untree s with cursor := s.cursor, node := s.node } = s ∧ t.codeValid = false ∧ t.root = 0 ∧
      (∀ (T : Shape) z, bits = T.encode ++ z → T.size ≤ 511 →
        t.CompletedOk ∧ t.treeValid = true ∧ t.cursor.toNat = T.encode.length ∧ t.nodeCnt.toNat = T.size ∧
        t.symCnt.toNat = T.leaves ∧ t.TreeOk ∧ shapeAt t.arena T.size 0 = T ∧
        visits t.arena T.size 0 = List.range T.size ∧
        (∀ j e, t.node.get? j = some e → j < T.size ∧ e.weight = 0)) ∧
      ((∀ (T : Shape) z, bits = T.encode ++ z → 511 < T.size) →
        (∃ c, ParseFailsAt bits c) ∧
        (∀ c, ParseFailsAt bits c → t.CompletedErr .treeDeserialize .malformedPayload c) ∧
        t.treeValid = false ∧ t.nodeCnt = 0 ∧ t.symCnt = 0 ∧ t.cursor = 0 ∧ ∀ j, t.node.get? j = none))

/-- R119. Serialization round trip: for every tree HUFFCORE can hold (that of a state u as R48 says) and any bits z
after its encoding, TREE_DESERIALIZE succeeds, yields a tree with the same shape and the same symbols at the same
positions, and CURSOR is the length of the encoding. -/
def Obligations.SerializationRoundTrip : Prop :=
  ∀ (u s : State) (z : List Bool), u.TreeOk →
    let T := shapeAt u.arena u.nodeCnt.toNat u.root.toNat
    let bits := T.encode ++ z
    s.bbLen.toNat = bits.length → bits.length ≤ s.params.bbCap →
    (∀ k, k < bits.length → s.bitBuf.get? k = bits[k]?) →
    ∃ t, exec .treeDeserialize s = .next t ∧ t.CompletedOk ∧ t.TreeOk ∧
      shapeAt t.arena t.nodeCnt.toNat t.root.toNat = T ∧ t.cursor.toNat = T.encode.length

/-- R120. ENCODE_DATA: with CODE_VALID = 1 and both lengths within their capacities, let e be the CODE entries of the
input bytes. If every one is present and the bits fit, their paths go to BITBUF from n0 = BB_LEN on, BB_LEN grows by
their length and nothing else changes. The first byte k whose symbol has no code raises UNCODED_SYMBOL, the first whose
code would pass BB_CAP raises CAPACITY, each with info k; then BB_LEN is 0, the bits from n0 up to BB_CAP are
unspecified and nothing else changes. The checks before the loop raise NO_CODE and CAPACITY in the order of the rule;
BB_LEN becomes 0 and nothing else changes. -/
def Obligations.EncodeDataRule : Prop :=
  ∀ s : State,
    let n0 := s.bbLen.toNat
    ∃ t, exec .encodeData s = .next t ∧
    (s.codeValid = false → t.CompletedErr .encodeData .noCode 0 ∧ t.bbLen = 0 ∧
      { t.uncomplete s with bbLen := s.bbLen } = s) ∧
    (s.codeValid = true → s.params.inCap < s.inLen.toNat →
      t.CompletedErr .encodeData .capacity s.inLen.toNat ∧ t.bbLen = 0 ∧
      { t.uncomplete s with bbLen := s.bbLen } = s) ∧
    (s.codeValid = true → s.inLen.toNat ≤ s.params.inCap → s.params.bbCap < n0 →
      t.CompletedErr .encodeData .capacity n0 ∧ t.bbLen = 0 ∧ { t.uncomplete s with bbLen := s.bbLen } = s) ∧
    (s.codeValid = true → s.inLen.toNat ≤ s.params.inCap → n0 ≤ s.params.bbCap →
      { t.uncomplete s with bitBuf := s.bitBuf, bbLen := s.bbLen } = s ∧
      ∃ (x : List Byte) (e : List CodeEntry), x.length = s.inLen.toNat ∧ s.inBuf.Reads 0 x ∧ e.length = x.length ∧
        (∀ (k : Nat) (sym : Byte) v, x[k]? = some sym → s.code.get? sym.toNat = some v → e[k]? = some v) ∧
        (let bits := e.flatMap CodeEntry.path
         (∀ c ∈ e, c.present = true) → n0 + bits.length ≤ s.params.bbCap →
          t.CompletedOk ∧ t.bbLen = BitVec.ofNat 32 (n0 + bits.length) ∧
          s.bitBuf.Written t.bitBuf n0 bits) ∧
        (∀ k c, e[k]? = some c → (∀ d ∈ e.take k, d.present = true) →
          n0 + ((e.take k).flatMap CodeEntry.path).length ≤ s.params.bbCap →
          (c.present = false ∨ s.params.bbCap < n0 + ((e.take k).flatMap CodeEntry.path).length + c.path.length) →
          t.CompletedErr .encodeData (if c.present then .capacity else .uncodedSymbol) k ∧ t.bbLen = 0 ∧
          ∀ j, t.bitBuf.get? j = if n0 ≤ j ∧ j < s.params.bbCap then none else s.bitBuf.get? j))

/-- R123. DECODE_DATA: NO_TREE, CAPACITY (BB_LEN > BB_CAP) and MALFORMED_PAYLOAD (CURSOR > BB_LEN) in the order of the
rule, with OUT_LEN set to 0 and nothing else changed. Else the walk over `BB[CURSOR..BB_LEN)`: on success its bytes go
to OUT from 0, OUT_LEN is their number and nothing else changes; on an error it completes with the walk's error and
info, OUT_LEN is 0, `OUT[0..OUT_CAP)` is unspecified and nothing else changes. The walk itself is stated in
DecodeWalkFollowsTheTree and LoneLeafDecoding. That NODE is read once is an inference (log entry 6). -/
def Obligations.DecodeDataRule : Prop :=
  ∀ s : State, ∃ t, exec .decodeData s = .next t ∧
    (s.treeValid = false → t.CompletedErr .decodeData .noTree 0 ∧ t.outLen = 0 ∧
      { t.uncomplete s with outLen := s.outLen } = s) ∧
    (s.treeValid = true → s.params.bbCap < s.bbLen.toNat →
      t.CompletedErr .decodeData .capacity s.bbLen.toNat ∧ t.outLen = 0 ∧
      { t.uncomplete s with outLen := s.outLen } = s) ∧
    (s.treeValid = true → s.bbLen.toNat ≤ s.params.bbCap → s.bbLen.toNat < s.cursor.toNat →
      t.CompletedErr .decodeData .malformedPayload s.cursor.toNat ∧ t.outLen = 0 ∧
      { t.uncomplete s with outLen := s.outLen } = s) ∧
    (s.treeValid = true → s.bbLen.toNat ≤ s.params.bbCap → s.cursor.toNat ≤ s.bbLen.toNat →
      { t.uncomplete s with outBuf := s.outBuf, outLen := s.outLen } = s ∧
      ∃ bits, bits.length = s.bbLen.toNat - s.cursor.toNat ∧ s.bitBuf.Reads s.cursor.toNat bits ∧
        (∀ out, decodeBits s.arena s.root.toNat s.params.outCap s.cursor.toNat bits = .ok out →
          t.CompletedOk ∧ t.outLen.toNat = out.length ∧ out.length ≤ s.params.outCap ∧
          s.outBuf.Written t.outBuf 0 out) ∧
        (∀ code i, decodeBits s.arena s.root.toNat s.params.outCap s.cursor.toNat bits = .error (code, i) →
          t.CompletedErr .decodeData code i ∧ t.outLen = 0 ∧
          ∀ j, t.outBuf.get? j = if j < s.params.outCap then none else s.outBuf.get? j))

/-- R121, R110. The walk from an Internal root: bits that are the paths of leaves one after another decode to the
symbols of those leaves when they fit OUT_CAP; with bits left over that lead to no leaf, a path that stops inside the
tree, the walk is TRUNCATED_WALK with the position where that incomplete code began; and one leaf more than OUT_CAP is
CAPACITY with the position of the bit that reached it. -/
def Obligations.DecodeWalkFollowsTheTree : Prop :=
  ∀ (arena : List NodeEntry) (root cap start : Nat) (ps : List (List Bool × Byte)) (rest : List Bool),
    ArenaOk arena root → (∃ l r w, arena[root]? = some (.internal l r w)) →
    (∀ p ∈ ps, LeadsTo arena root p.1 p.2) →
    let bits := ps.flatMap Prod.fst
    (rest = [] → ps.length ≤ cap →
      decodeBits arena root cap start (bits ++ rest) = .ok (ps.map Prod.snd)) ∧
    (rest ≠ [] → ps.length ≤ cap →
      (∃ n l r w, follow arena root rest = some n ∧ arena[n]? = some (.internal l r w)) →
      decodeBits arena root cap start (bits ++ rest) = .error (.truncatedWalk, start + bits.length)) ∧
    (ps.length = cap + 1 →
      decodeBits arena root cap start (bits ++ rest) = .error (.capacity, start + bits.length - 1))

/-- R122, R123. The walk on a lone leaf: 1 bits that fit OUT_CAP emit the symbol each; the first 0 bit is
MALFORMED_PAYLOAD with its position; a 1 bit past OUT_CAP bytes is CAPACITY with its position. -/
def Obligations.LoneLeafDecoding : Prop :=
  ∀ (arena : List NodeEntry) (root cap start n : Nat) (sym : Byte) (w : Word) (rest : List Bool),
    arena[root]? = some (.leaf sym w) →
    (n ≤ cap → decodeBits arena root cap start (List.replicate n true) = .ok (List.replicate n sym)) ∧
    (n ≤ cap → decodeBits arena root cap start (List.replicate n true ++ false :: rest) =
      .error (.malformedPayload, start + n)) ∧
    (n = cap → decodeBits arena root cap start (List.replicate n true ++ true :: rest) =
      .error (.capacity, start + n))

/-- R124. COMPRESS is OUT_LEN <- 0 and then the six primitives in order, each exactly as its own rule says, stopping
after the first that fails; the completion is that of the last step performed. -/
def Obligations.CompressIsTheChainOfPrimitives : Prop :=
  ∀ s : State, exec .compress s =
    .next (chain [.freqBuild, .treeBuild, .codeExtract, .treeSerialize, .encodeData, .pack] { s with outLen := 0 })

/-- R126. DECOMPRESS is OUT_LEN <- 0 and then the three primitives in order, in the same way. -/
def Obligations.DecompressIsTheChainOfPrimitives : Prop :=
  ∀ s : State, exec .decompress s =
    .next (chain [.unpack, .treeDeserialize, .decodeData] { s with outLen := 0 })

/-- R125, R124, R112. COMPRESS of a specified input of 1 to IN_CAP bytes: the tree is the one TREE_BUILD makes from the
counts of the input, the bits are its encoding and then the codes of the input bytes in order, and when they fit BB_CAP
and their payload fits OUT_CAP the command succeeds and OUT holds `Pack` of those bits (R81). -/
def Obligations.CompressLeavesTheWirePayload : Prop :=
  ∀ (s : State) (x : List Byte), paramsWellFormed s.params = true → s.inLen.toNat = x.length → x ≠ [] →
    x.length ≤ s.params.inCap → (∀ k, k < x.length → s.inBuf.get? k = x[k]?) →
    ∃ (T : Shape) (code : Byte → List Bool),
      (∃ u, exec .treeBuild { s with freqValid := true, freq := Memory.ofList (freqOf x) } = .next u ∧
        T = shapeAt u.arena u.nodeCnt.toNat u.root.toNat ∧
        ∀ sym ∈ x, IsCodeOf u.arena u.root.toNat (code sym) sym) ∧
      let bits := T.encode ++ x.flatMap code
      bits.length ≤ s.params.bbCap → (bits.length + 7) / 8 + 1 ≤ s.params.outCap →
      ∃ t, exec .compress s = .next t ∧ t.CompletedOk ∧ t.outLen.toNat = (packBytes bits).length ∧
        s.outBuf.Written t.outBuf 0 (packBytes bits) ∧ t.bbLen.toNat = bits.length ∧
        t.freqValid = true ∧ t.treeValid = true ∧ t.codeValid = true

/-- R125, R124. COMPRESS of the empty input fails with EMPTY_INPUT, ERR_OP the opcode of TREE_BUILD; FREQ_VALID stays 1
from the FREQ_BUILD step. -/
def Obligations.CompressRejectsEmptyInput : Prop :=
  ∀ s : State, s.inLen = 0 → ∃ t, exec .compress s = .next t ∧ t.CompletedErr .treeBuild .emptyInput 0 ∧
    t.outLen = 0 ∧ t.freqValid = true ∧ t.treeValid = false

/-- R126, C6. DECOMPRESS of a specified payload shorter than 3 bytes fails, with MALFORMED_PAYLOAD or
INVALID_PADDING. -/
def Obligations.ShortPayloadsFail : Prop :=
  ∀ s : State, paramsWellFormed s.params = true → s.inLen.toNat < 3 →
    (∀ k, k < s.inLen.toNat → (s.inBuf.get? k).isSome = true) →
    ∃ t, exec .decompress s = .next t ∧ (t.err = .malformedPayload ∨ t.err = .invalidPadding) ∧ t.outLen = 0

/-- R126, R121, R122. DECOMPRESS of a payload: when the specified bytes of IN are `Pack` of the encoding of a tree T of
at most 511 nodes and then codes of T, one after another, and everything fits its buffer, the command succeeds, OUT
holds the symbols of the codes, NODE a tree of shape T from ROOT 0, CURSOR is the length of the encoding, PAD the
padding count, CODE_VALID is 0, and FREQ, FREQ_VALID, CODE and IN are unchanged. -/
def Obligations.DecompressDecodesThePayload : Prop :=
  ∀ (s : State) (T : Shape) (ps : List (List Bool × Byte)), paramsWellFormed s.params = true → T.size ≤ 511 →
    (∀ p ∈ ps, T.decodes p.1 = some p.2) →
    let bits := T.encode ++ ps.flatMap Prod.fst
    let y := packBytes bits
    s.inLen.toNat = y.length → y.length ≤ s.params.inCap → (∀ k, k < y.length → s.inBuf.get? k = y[k]?) →
    bits.length ≤ s.params.bbCap → ps.length ≤ s.params.outCap →
    ∃ t, exec .decompress s = .next t ∧ t.CompletedOk ∧ t.outLen.toNat = ps.length ∧
      s.outBuf.Written t.outBuf 0 (ps.map Prod.snd) ∧ t.bbLen.toNat = bits.length ∧
      t.pad.toNat = (8 - bits.length % 8) % 8 ∧ s.bitBuf.Written t.bitBuf 0 bits ∧
      t.treeValid = true ∧ t.codeValid = false ∧ t.root = 0 ∧ t.TreeOk ∧
      shapeAt t.arena t.nodeCnt.toNat t.root.toNat = T ∧ t.cursor.toNat = T.encode.length ∧
      t.freq = s.freq ∧ t.freqValid = s.freqValid ∧ t.code = s.code ∧ t.inBuf = s.inBuf ∧ t.inLen = s.inLen

/-- R127. The result of DECOMPRESS depends only on the payload (and the capacities): two states that hold the same
specified payload complete with the same error report and the same OUT_LEN, and after a success with the same decoded
bytes. -/
def Obligations.DecompressDependsOnlyOnThePayload : Prop :=
  ∀ (s s' : State) (y : List Byte), s.params = s'.params → s.inLen = s'.inLen → s.inLen.toNat = y.length →
    (∀ k, k < y.length → s.inBuf.get? k = y[k]?) → (∀ k, k < y.length → s'.inBuf.get? k = y[k]?) →
    ∃ t t', exec .decompress s = .next t ∧ exec .decompress s' = .next t' ∧
      t.err = t'.err ∧ t.errInfo = t'.errInfo ∧ t.errOp = t'.errOp ∧ t.outLen = t'.outLen ∧
      (t.err = .ok → ∀ k, k < t.outLen.toNat → t.outBuf.get? k = t'.outBuf.get? k)

/-- R128. Round trip: COMPRESS of a specified input x of 1 to IN_CAP bytes that succeeds with a payload that fits
IN_CAP, then OUT2IN, then DECOMPRESS with an OUT_CAP of at least the input's length, ends with OUT = x. That a longer
payload is no part of the round trip, although R11 takes it in, is the model's reading (log entry 11). -/
def Obligations.CompressDecompressRoundTrip : Prop :=
  ∀ (s t : State) (x : List Byte), paramsWellFormed s.params = true → s.inLen.toNat = x.length → x ≠ [] →
    x.length ≤ s.params.inCap → x.length ≤ s.params.outCap → (∀ k, k < x.length → s.inBuf.get? k = x[k]?) →
    exec .compress s = .next t → t.err = .ok → t.outLen.toNat ≤ s.params.inCap →
    ∃ u v, exec .out2in t = .next u ∧ u.err = .ok ∧ exec .decompress u = .next v ∧ v.CompletedOk ∧
      v.outLen.toNat = x.length ∧ ∀ k, k < x.length → v.outBuf.get? k = x[k]?

/-! ### Pack and Unpack -/

/-- R94. `Pack(b)` has ceil(n/8) + 1 bytes; the bits of all but the last are b and then p zeros, and the last byte is
p = (8 - n mod 8) mod 8. -/
def Obligations.PackFunction : Prop :=
  ∀ b : List Bool,
    let p := (8 - b.length % 8) % 8
    (packBytes b).length = (b.length + 7) / 8 + 1 ∧
    (packBytes b).dropLast.flatMap bits8 = b ++ List.replicate p false ∧
    (packBytes b).getLast? = some (BitVec.ofNat 8 p)

/-- R97. `Unpack(Pack(b)) = b` for every bit sequence b; and `Pack(Unpack(x)) = x` exactly when Unpack(x) succeeds
with padding bits that are all 0. -/
def Obligations.UnpackInvertsPack : Prop :=
  (∀ b : List Bool, unpackBytes (packBytes b) = .ok b) ∧
  ∀ (x : List Byte) (b : List Bool), unpackBytes x = .ok b →
    (packBytes b = x ↔ ∃ p, x.dropLast.flatMap bits8 = b ++ List.replicate p false)

/-! ### Invariants of every step -/

/-- R8, R43 to R49. Every step keeps the canonical form of the six memories and their bounds, for a device whose
parameters meet R8; and no step changes the parameters. -/
def Obligations.StepKeepsMemoriesOk : Prop :=
  ∀ s t : State, paramsWellFormed s.params = true → s.MemoriesOk → step s = .next t →
    t.params = s.params ∧ t.MemoriesOk

/-- R48, R49, R31. Every step keeps what the valid flags promise: while TREE_VALID = 1 the arena is a strict binary
tree reached from ROOT exactly once each, while CODE_VALID = 1 CODE is what CODE_EXTRACT derives from that tree, and
while FREQ_VALID = 1 every count is specified. -/
def Obligations.StepKeepsFlagsOk : Prop := ∀ s t : State, s.FlagsOk → step s = .next t → t.FlagsOk

/-- R93, R39, R40. Every step keeps OUT_LEN within OUT_CAP, NODE_CNT within 511 and SYM_CNT within 256. -/
def Obligations.StepKeepsLengthsOk : Prop := ∀ s t : State, s.LengthsOk → step s = .next t → t.LengthsOk

/-- R53, R144. The invariants hold after power-on reset with any parameters that meet R8; and at `State.reset`, whose
capacities and BASE = 0 are the model's choice (log entry 1). -/
def Obligations.ResetMeetsTheInvariants : Prop :=
  (∀ p : Config.Params, paramsWellFormed p = true →
    paramsWellFormed (State.powerOn p).params = true ∧ (State.powerOn p).MemoriesOk ∧ (State.powerOn p).FlagsOk ∧
      (State.powerOn p).LengthsOk) ∧
  (paramsWellFormed State.reset.params = true ∧ State.reset.MemoriesOk ∧ State.reset.FlagsOk ∧ State.reset.LengthsOk)

/-- R42, R145, R144. Only the events of R42 set or clear a valid flag: if a step changes one, either it was HOST's turn
and its access was a write to CTRL with bit 1 = 1 or a power-on reset, and every valid flag is then 0 and ENG Idle; or
it was ENGINE's turn and it performed a command that R42 names for the flag. -/
def Obligations.ValidFlagsChangeOnlyByTheirEvents : Prop :=
  ∀ s t : State, step s = .next t →
    (s.turn = .host ∧
      ((∃ addr v rest, s.inputs = .write addr .word 0xF v :: rest ∧ s.params.base ≤ addr ∧
          addr - s.params.base = 0x020 ∧ v.getLsbD 1 = true) ∨
        ∃ rest, s.inputs = .powerOn :: rest) ∧
      t.freqValid = false ∧ t.treeValid = false ∧ t.codeValid = false ∧ t.eng = .idle) ∨
    ((t.freqValid ≠ s.freqValid → s.turn = .engine ∧ ∃ w i, s.eng = .pending w ∧ decode w = .ok i ∧
        i ∈ [Instr.freqBuild, .compress]) ∧
      (t.treeValid ≠ s.treeValid → s.turn = .engine ∧ ∃ w i, s.eng = .pending w ∧ decode w = .ok i ∧
        i ∈ [Instr.treeBuild, .treeDeserialize, .compress, .decompress]) ∧
      (t.codeValid ≠ s.codeValid → s.turn = .engine ∧ ∃ w i, s.eng = .pending w ∧ decode w = .ok i ∧
        i ∈ [Instr.treeBuild, .treeDeserialize, .codeExtract, .compress, .decompress]))

/-- R146, R48. A command performed by ENGINE changes no memory outside its Dest, and one without NODE in its Dest
changes neither ROOT nor NODE_CNT: of the commands only TREE_BUILD and TREE_DESERIALIZE (alone or in a composite)
change the tree. -/
def Obligations.EngineWritesOnlyDest : Prop :=
  ∀ (i : Instr) (s t : State), exec i s = .next t →
    (.inBuf ∉ dest i → t.inBuf = s.inBuf) ∧ (.outBuf ∉ dest i → t.outBuf = s.outBuf) ∧
    (.bitBuf ∉ dest i → t.bitBuf = s.bitBuf) ∧ (.freq ∉ dest i → t.freq = s.freq) ∧
    (.node ∉ dest i → t.node = s.node ∧ t.root = s.root ∧ t.nodeCnt = s.nodeCnt) ∧
    (.code ∉ dest i → t.code = s.code)
end

