-- ==== Sys2Proof/Laws/Memory.lean ====
section
/-!
SUPPORT. What each memory operation does, said once: reads after writes, the canonical form, the capacity bound, and
readings of a memory. Later proofs cite these and never unfold the operations.
-/

namespace Sys2Proof.Machine

variable {α : Type}

/-! ### Reads after writes -/

@[simp] theorem Memory.get?_nil (k : Nat) : Memory.get? ([] : Memory α) k = none := rfl

@[simp] theorem Memory.get?_cons (a : Nat) (v : α) (m : Memory α) (k : Nat) :
    Memory.get? ((a, v) :: m) k = if a = k then some v else Memory.get? m k := rfl

/-- A write defines its location and leaves every other one as it was. -/
@[simp] theorem Memory.get?_set (m : Memory α) (k : Nat) (v : α) (j : Nat) :
    (m.set k v).get? j = if j = k then some v else m.get? j := by
  induction m with
  | nil => simp [Memory.set, eq_comm]
  | cons c m ih =>
    obtain ⟨a, w⟩ := c
    by_cases hj : j = k
    · subst hj
      simp only [Memory.set, if_true]
      split
      · simp
      · split
        · simp
        · rw [Memory.get?_cons, if_neg (by omega), ih, if_pos rfl]
    · rw [if_neg hj]
      simp only [Memory.set]
      split
      · rw [Memory.get?_cons, if_neg (by omega)]
      · split
        · subst_vars
          rw [Memory.get?_cons, Memory.get?_cons, if_neg (by omega), if_neg (by omega)]
        · rw [Memory.get?_cons, Memory.get?_cons, ih, if_neg hj]

/-- Consecutive writes define their locations and leave every other one as it was. -/
theorem Memory.get?_setList (m : Memory α) (k : Nat) (vs : List α) (j : Nat) :
    (m.setList k vs).get? j = if k ≤ j ∧ j < k + vs.length then vs[j - k]? else m.get? j := by
  induction vs generalizing m k with
  | nil => simp only [Memory.setList, List.length_nil]; rw [if_neg (by omega)]
  | cons v vs ih =>
    simp only [Memory.setList, ih, Memory.get?_set, List.length_cons]
    by_cases h : k + 1 ≤ j ∧ j < k + 1 + vs.length
    · rw [if_pos h, if_pos (by omega), show j - k = (j - (k + 1)) + 1 by omega, List.getElem?_cons_succ]
    · rw [if_neg h]
      by_cases hk : j = k
      · subst hk; simp
      · rw [if_neg hk, if_neg (by omega)]

theorem Memory.written_setList (m : Memory α) (k : Nat) (vs : List α) : m.Written (m.setList k vs) k vs :=
  Memory.get?_setList m k vs

theorem Memory.get?_listFrom (vs : List α) (k j : Nat) :
    (Memory.listFrom k vs).get? j = if k ≤ j then vs[j - k]? else none := by
  induction vs generalizing k with
  | nil => simp [Memory.listFrom]
  | cons v vs ih =>
    simp only [Memory.listFrom, Memory.get?_cons, ih]
    by_cases hk : k = j
    · subst hk; simp
    · rw [if_neg hk]
      by_cases h : k + 1 ≤ j
      · rw [if_pos h, if_pos (by omega), show j - k = (j - (k + 1)) + 1 by omega, List.getElem?_cons_succ]
      · rw [if_neg h, if_neg (by omega)]

/-- The locations of `ofList vs` hold `vs`, and no other location is specified. -/
@[simp] theorem Memory.get?_ofList (vs : List α) (j : Nat) : (Memory.ofList vs).get? j = vs[j]? := by
  simp [Memory.ofList, Memory.get?_listFrom]

/-- `forget` makes the locations of its range unspecified and leaves every other one as it was. -/
@[simp] theorem Memory.get?_forget (m : Memory α) (lo hi j : Nat) :
    (m.forget lo hi).get? j = if lo ≤ j ∧ j < hi then none else m.get? j := by
  induction m with
  | nil => simp [Memory.forget]
  | cons c m ih =>
    obtain ⟨a, w⟩ := c
    simp only [Memory.forget] at ih ⊢
    rw [List.filter_cons]
    by_cases h : a < lo ∨ hi ≤ a
    · rw [if_pos (by simpa using h), Memory.get?_cons, ih, Memory.get?_cons]
      split <;> split <;> first | rfl | omega
    · rw [if_neg (by simpa using h), ih, Memory.get?_cons]
      split
      · rfl
      · rw [if_neg (by omega)]

/-! ### The canonical form -/

theorem Memory.risingFrom_mono {m : Memory α} {lo lo' : Nat} (h : m.risingFrom lo' = true) (hl : lo ≤ lo') :
    m.risingFrom lo = true := by
  cases m with
  | nil => rfl
  | cons c m =>
    simp only [Memory.risingFrom, Bool.and_eq_true, decide_eq_true_eq] at h ⊢
    exact ⟨by omega, h.2⟩

theorem Memory.risingFrom_set {m : Memory α} {lo k : Nat} {v : α} (h : m.risingFrom lo = true) (hk : lo ≤ k) :
    (m.set k v).risingFrom lo = true := by
  induction m generalizing lo with
  | nil => simpa [Memory.set, Memory.risingFrom] using hk
  | cons c m ih =>
    obtain ⟨a, w⟩ := c
    simp only [Memory.risingFrom, Bool.and_eq_true, decide_eq_true_eq] at h
    simp only [Memory.set]
    split
    · simp only [Memory.risingFrom, Bool.and_eq_true, decide_eq_true_eq]
      exact ⟨hk, by omega, h.2⟩
    · split
      · subst_vars
        simp only [Memory.risingFrom, Bool.and_eq_true, decide_eq_true_eq]
        exact h
      · simp only [Memory.risingFrom, Bool.and_eq_true, decide_eq_true_eq]
        exact ⟨h.1, ih h.2 (by omega)⟩

theorem Memory.risingFrom_forget {m : Memory α} {lo : Nat} (a b : Nat) (h : m.risingFrom lo = true) :
    (m.forget a b).risingFrom lo = true := by
  induction m generalizing lo with
  | nil => rfl
  | cons c m ih =>
    obtain ⟨x, w⟩ := c
    simp only [Memory.risingFrom, Bool.and_eq_true, decide_eq_true_eq] at h
    simp only [Memory.forget] at ih ⊢
    rw [List.filter_cons]
    split
    · simp only [Memory.risingFrom, Bool.and_eq_true, decide_eq_true_eq]
      exact ⟨h.1, ih h.2⟩
    · exact Memory.risingFrom_mono (ih h.2) (by omega)

theorem Memory.risingFrom_listFrom (vs : List α) (k lo : Nat) (h : lo ≤ k) :
    (Memory.listFrom k vs).risingFrom lo = true := by
  induction vs generalizing k lo with
  | nil => rfl
  | cons v vs ih =>
    simp only [Memory.listFrom, Memory.risingFrom, Bool.and_eq_true, decide_eq_true_eq]
    exact ⟨h, ih _ _ (Nat.le_refl _)⟩

@[simp] theorem Memory.wf_nil : Memory.wf ([] : Memory α) = true := rfl

/-- A write keeps the canonical form. -/
theorem Memory.wf_set {m : Memory α} {k : Nat} {v : α} (h : m.wf = true) : (m.set k v).wf = true :=
  Memory.risingFrom_set h (Nat.zero_le _)

theorem Memory.wf_setList {m : Memory α} {k : Nat} {vs : List α} (h : m.wf = true) :
    (m.setList k vs).wf = true := by
  induction vs generalizing m k with
  | nil => exact h
  | cons v vs ih => exact ih (Memory.wf_set h)

theorem Memory.wf_forget {m : Memory α} {a b : Nat} (h : m.wf = true) : (m.forget a b).wf = true :=
  Memory.risingFrom_forget a b h

@[simp] theorem Memory.wf_ofList (vs : List α) : (Memory.ofList vs).wf = true :=
  Memory.risingFrom_listFrom vs 0 0 (Nat.le_refl _)

/-! ### The capacity bound -/

theorem Memory.below_iff {cap : Nat} {m : Memory α} : m.below cap = true ↔ ∀ c ∈ m, c.1 < cap := by
  simp [Memory.below]

@[simp] theorem Memory.below_nil (cap : Nat) : Memory.below cap ([] : Memory α) = true := rfl

theorem Memory.below_set {cap : Nat} {m : Memory α} {k : Nat} {v : α} (h : m.below cap = true) (hk : k < cap) :
    (m.set k v).below cap = true := by
  rw [Memory.below_iff] at h ⊢
  induction m with
  | nil => simpa [Memory.set] using hk
  | cons c m ih =>
    obtain ⟨a, w⟩ := c
    simp only [Memory.set]
    have h1 := h (a, w) (by simp)
    have h2 : ∀ c ∈ m, c.1 < cap := fun c hc => h c (List.mem_cons_of_mem _ hc)
    split
    · intro c hc
      simp only [List.mem_cons] at hc
      rcases hc with rfl | rfl | hc
      · exact hk
      · exact h1
      · exact h2 c hc
    · split
      · intro c hc
        rcases List.mem_cons.1 hc with rfl | hc
        · exact hk
        · exact h2 c hc
      · intro c hc
        rcases List.mem_cons.1 hc with rfl | hc
        · exact h1
        · exact ih h2 c hc

theorem Memory.below_setList {cap : Nat} {m : Memory α} {k : Nat} {vs : List α} (h : m.below cap = true)
    (hk : k + vs.length ≤ cap) : (m.setList k vs).below cap = true := by
  induction vs generalizing m k with
  | nil => exact h
  | cons v vs ih =>
    simp only [List.length_cons] at hk
    exact ih (Memory.below_set h (by omega)) (by omega)

theorem Memory.below_forget {cap : Nat} {m : Memory α} {a b : Nat} (h : m.below cap = true) :
    (m.forget a b).below cap = true := by
  rw [Memory.below_iff] at h ⊢
  exact fun c hc => h c (List.mem_of_mem_filter hc)

theorem Memory.below_listFrom {cap : Nat} (vs : List α) (k : Nat) (h : k + vs.length ≤ cap) :
    (Memory.listFrom k vs).below cap = true := by
  induction vs generalizing k with
  | nil => rfl
  | cons v vs ih =>
    simp only [List.length_cons] at h
    rw [Memory.below_iff]
    intro c hc
    rcases List.mem_cons.1 hc with rfl | hc
    · simp; omega
    · exact Memory.below_iff.1 (ih (k + 1) (by omega)) c hc

theorem Memory.below_ofList {cap : Nat} {vs : List α} (h : vs.length ≤ cap) :
    (Memory.ofList vs).below cap = true := Memory.below_listFrom vs 0 (by omega)

/-- A specified location lies below the capacity. -/
theorem Memory.lt_of_get? {cap : Nat} {m : Memory α} {k : Nat} {v : α} (h : m.below cap = true)
    (hk : m.get? k = some v) : k < cap := by
  induction m with
  | nil => cases hk
  | cons c m ih =>
    rw [Memory.below_iff] at h ih
    obtain ⟨a, w⟩ := c
    rw [Memory.get?_cons] at hk
    split at hk
    · next ha => exact ha ▸ h (a, w) (by simp)
    · exact ih (fun c hc => h c (List.mem_cons_of_mem _ hc)) hk

theorem Memory.covers_iff {n : Nat} {m : Memory α} :
    m.covers n = true ↔ ∀ k < n, (m.get? k).isSome = true := by
  simp [Memory.covers]

/-! ### Readings -/

theorem Memory.readAll_length (fresh : Nat → α) (m : Memory α) (ks : List Nat) (d : Nat) :
    (m.readAll fresh ks d).1.length = ks.length := by
  induction ks generalizing d with
  | nil => rfl
  | cons k ks ih => simp [Memory.readAll, ih]

/-- What a reading of listed locations gives at each position: the value of a specified location. -/
theorem Memory.readAll_get (fresh : Nat → α) (m : Memory α) (ks : List Nat) (d j : Nat) (k : Nat) (v : α)
    (hk : ks[j]? = some k) (hv : m.get? k = some v) : (m.readAll fresh ks d).1[j]? = some v := by
  induction ks generalizing d j with
  | nil => simp at hk
  | cons k' ks ih =>
    cases j with
    | zero =>
      simp only [List.getElem?_cons_zero, Option.some.injEq] at hk
      subst hk
      simp [Memory.readAll, Memory.read, hv]
    | succ j =>
      simp only [List.getElem?_cons_succ] at hk
      simpa [Memory.readAll] using ih _ j hk

/-- Reading specified locations takes no draw. -/
theorem Memory.readAll_specified (fresh : Nat → α) (m : Memory α) (ks : List Nat) (d : Nat)
    (h : ∀ k ∈ ks, (m.get? k).isSome = true) :
    m.readAll fresh ks d = (ks.filterMap m.get?, d) := by
  induction ks generalizing d with
  | nil => rfl
  | cons k ks ih =>
    obtain ⟨v, hv⟩ := Option.isSome_iff_exists.1 (h k (by simp))
    simp [Memory.readAll, Memory.read, hv, ih d (fun k hk => h k (List.mem_cons_of_mem _ hk))]

@[simp] theorem Memory.readRange_length (fresh : Nat → α) (m : Memory α) (k n d : Nat) :
    (m.readRange fresh k n d).1.length = n := by
  simp [Memory.readRange, Memory.readAll_length]

/-- A range reading is a possible reading of the memory (R53). -/
theorem Memory.readRange_reads (fresh : Nat → α) (m : Memory α) (k n d : Nat) :
    m.Reads k (m.readRange fresh k n d).1 := by
  intro j v hj hv
  rw [Memory.readRange_length] at hj
  exact Memory.readAll_get fresh m _ d j (k + j) v (by simp [hj]) hv

/-- The reading of a range whose every location is specified: its values, and no draw. -/
theorem Memory.readRange_specified (fresh : Nat → α) (m : Memory α) (k d : Nat) (vs : List α)
    (h : ∀ j, j < vs.length → m.get? (k + j) = vs[j]?) :
    m.readRange fresh k vs.length d = (vs, d) := by
  induction vs generalizing k with
  | nil => rfl
  | cons v vs ih =>
    have h0 : m.get? k = some v := by simpa using h 0 (by simp)
    have hs := ih (k + 1) (fun j hj => by
      have := h (j + 1) (by simpa using hj)
      rw [List.getElem?_cons_succ] at this
      rw [← this]
      congr 1
      omega)
    simp only [Memory.readRange] at hs ⊢
    rw [List.length_cons, List.range'_succ]
    simp [Memory.readAll, Memory.read, h0, hs]

/-- Reading the listed locations takes one draw for each unspecified one, and the value at an unspecified one is the
draw of its own number: one draw later for each unspecified location listed before it (R53). -/
theorem Memory.readAll_unspecified (fresh : Nat → α) (m : Memory α) (ks : List Nat) (d : Nat) :
    (m.readAll fresh ks d).2 = d + ks.countP (fun k => (m.get? k).isNone) ∧
    ∀ j k, ks[j]? = some k → m.get? k = none →
      (m.readAll fresh ks d).1[j]? = some (fresh (d + (ks.take j).countP (fun k => (m.get? k).isNone))) := by
  induction ks generalizing d with
  | nil => simp [Memory.readAll]
  | cons k ks ih =>
    cases hk : m.get? k with
    | none =>
      simp only [Memory.readAll, Memory.read, hk]
      refine ⟨by simp [ih (d + 1), hk]; omega, fun j k' hj hk' => ?_⟩
      cases j with
      | zero => simp
      | succ j =>
        rw [List.getElem?_cons_succ] at hj ⊢
        rw [(ih (d + 1)).2 j k' hj hk']
        simp [hk, Nat.add_comm 1, Nat.add_assoc]
    | some v =>
      simp only [Memory.readAll, Memory.read, hk]
      refine ⟨by simp [ih d, hk], fun j k' hj hk' => ?_⟩
      cases j with
      | zero => simp_all
      | succ j =>
        rw [List.getElem?_cons_succ] at hj ⊢
        rw [(ih d).2 j k' hj hk']
        simp [hk]

/-- A range reading takes one draw for each unspecified location of the range. -/
theorem Memory.readRange_draws (fresh : Nat → α) (m : Memory α) (k n d : Nat) :
    (m.readRange fresh k n d).2 = d + m.unspecified k n := (Memory.readAll_unspecified fresh m _ d).1

/-- The value of an unspecified location in a range reading: the draw of its own number. -/
theorem Memory.readRange_fresh (fresh : Nat → α) (m : Memory α) (k n d j : Nat) (hj : j < n)
    (h : m.get? (k + j) = none) :
    (m.readRange fresh k n d).1[j]? = some (fresh (d + m.unspecified k j)) := by
  have ht : (List.range' k n).take j = List.range' k j := by
    rw [show n = j + (n - j) by omega, ← List.range'_append_1, List.take_left' (by simp)]
  have := (Memory.readAll_unspecified fresh m (List.range' k n) d).2 j (k + j) (by simp [hj]) h
  rwa [ht] at this

/-- What was written reads back, without a draw. -/
theorem Memory.readRange_setList (fresh : Nat → α) (m : Memory α) (k d n : Nat) (vs : List α) (hn : vs.length = n) :
    (m.setList k vs).readRange fresh k n d = (vs, d) := by
  subst hn
  refine Memory.readRange_specified fresh _ k d vs (fun j hj => ?_)
  rw [Memory.get?_setList, if_pos (by omega), Nat.add_sub_cancel_left]

/-- A reading that has the length of the range and agrees with the memory is all there is to know about it: where
every location is specified, it is the list of the values. -/
theorem Memory.Reads.unique {m : Memory α} {k : Nat} {vs ws : List α} (hl : ws.length = vs.length)
    (hw : m.Reads k ws) (h : ∀ j, j < vs.length → m.get? (k + j) = vs[j]?) : ws = vs := by
  apply List.ext_getElem?
  intro j
  by_cases hj : j < vs.length
  · have := hw j vs[j] (by omega) (by rw [h j hj]; simp [hj])
    rw [this]; simp [hj]
  · rw [List.getElem?_eq_none (by omega), List.getElem?_eq_none (by omega)]

end Sys2Proof.Machine
end

