-- ==== Sys2Proof/Laws/Bits.lean ====
section
/-!
SUPPORT. Bit sequences, bytes and words: lengths and inverses (00_scope.md R13, 20_memory.md R63 to R65), and groups
of eight bits (41_bit_buffer.md R94).
-/

namespace Sys2Proof.Machine

@[simp] theorem bits8_length (v : Byte) : (bits8 v).length = 8 := by simp [bits8]

@[simp] theorem bits32_length (v : Word) : (bits32 v).length = 32 := by simp [bits32]

theorem bits32_getElem? (v : Word) (i : Nat) (h : i < 32) : (bits32 v)[i]? = some (v.getLsbD (31 - i)) := by
  simp [bits32, h, BitVec.getMsbD]

@[simp] theorem bytes4_length (v : Word) : (bytes4 v).length = 4 := rfl

/-- `bits8` and `byteOf` are inverse (R13). -/
@[simp] theorem byteOf_bits8 (v : Byte) : byteOf (bits8 v) = v := by
  revert v; decide

theorem bits8_byteOf_eight (a b c d e f g h : Bool) :
    bits8 (byteOf [a, b, c, d, e, f, g, h]) = [a, b, c, d, e, f, g, h] := by
  revert a b c d e f g h; decide

/-- Eight bits make a byte that has them. -/
theorem bits8_byteOf {bs : List Bool} (h : bs.length = 8) : bits8 (byteOf bs) = bs := by
  match bs, h with
  | [a, b, c, d, e, f, g, h], _ => exact bits8_byteOf_eight a b c d e f g h

theorem bits8_injective {v w : Byte} (h : bits8 v = bits8 w) : v = w := by
  rw [← byteOf_bits8 v, h, byteOf_bits8]

theorem flatMap_bits8_length (ys : List Byte) : (ys.flatMap bits8).length = 8 * ys.length := by
  induction ys with
  | nil => rfl
  | cons y ys ih => simp [ih]; omega

/-- A byte list is read off its bits in groups of eight. -/
theorem flatMap_bits8_injective {xs ys : List Byte} (h : xs.flatMap bits8 = ys.flatMap bits8) : xs = ys := by
  induction xs generalizing ys with
  | nil =>
    cases ys with
    | nil => rfl
    | cons y ys => have := congrArg List.length h; simp at this; omega
  | cons x xs ih =>
    cases ys with
    | nil => have := congrArg List.length h; simp at this
    | cons y ys =>
      simp only [List.flatMap_cons] at h
      obtain ⟨h1, h2⟩ := List.append_inj h (by simp)
      rw [bits8_injective h1, ih h2]

/-- Groups of eight bits, one after another, are the whole sequence. -/
theorem flatMap_byteOf_groups (n : Nat) (bs : List Bool) (h : bs.length = 8 * n) :
    ((List.range n).map (fun k => byteOf ((bs.drop (8 * k)).take 8))).flatMap bits8 = bs := by
  induction n generalizing bs with
  | zero => simp [List.length_eq_zero_iff.1 h]
  | succ n ih =>
    rw [List.range_succ_eq_map, List.map_cons, List.map_map, List.flatMap_cons,
      bits8_byteOf (by simp; omega)]
    have := ih (bs.drop 8) (by simp; omega)
    simp only [List.drop_drop] at this
    conv => rhs; rw [← List.take_append_drop 8 bs, ← this]
    congr 2
    apply List.map_congr_left
    intro k _
    simp only [Function.comp, Nat.succ_eq_add_one]
    rw [show 8 * (k + 1) = 8 + 8 * k by omega]

theorem padCount_lt (n : Nat) : padCount n < 8 := by unfold padCount; omega

theorem ceil8_pad (n : Nat) : 8 * ceil8 n = n + padCount n := by unfold ceil8 padCount; omega

@[simp] theorem packBytes_length (b : List Bool) : (packBytes b).length = ceil8 b.length + 1 := by
  simp [packBytes]

theorem packBytes_ne_nil (b : List Bool) : packBytes b ≠ [] := by simp [packBytes]

/-- A word written to BITBUF: sequence bit i of the word is word bit 31 - i (R65). -/
theorem get?_setList_bits32 (m : Memory Bool) (k : Nat) (v : Word) (j : Nat) :
    (m.setList k (bits32 v)).get? j = if k ≤ j ∧ j < k + 32 then some (v.getLsbD (31 - (j - k))) else m.get? j := by
  rw [Memory.get?_setList, bits32_length]
  by_cases h : k ≤ j ∧ j < k + 32
  · rw [if_pos h, if_pos h, bits32_getElem? _ _ (by omega)]
  · rw [if_neg h, if_neg h]

@[simp] theorem natOfBits_concat (bs : List Bool) (b : Bool) :
    natOfBits (bs ++ [b]) = 2 * natOfBits bs + b.toNat := by simp [natOfBits]

/-- The first bit of a sequence is the most significant bit of its number. -/
theorem natOfBits_testBit (bs : List Bool) (j : Nat) (h : j < bs.length) :
    (natOfBits bs).testBit j = bs.getD (bs.length - 1 - j) false := by
  induction bs using List.reverseRecOn generalizing j with
  | nil => simp at h
  | append_singleton bs b ih =>
    rw [natOfBits_concat]
    cases j with
    | zero => cases b <;> simp [Nat.testBit_zero, Nat.add_mod]
    | succ j =>
      simp only [List.length_append, List.length_singleton] at h
      rw [Nat.testBit_succ, show (2 * natOfBits bs + b.toNat) / 2 = natOfBits bs by cases b <;> simp; omega,
        ih j (by omega)]
      simp only [List.length_append, List.length_singleton, List.getD_eq_getElem?_getD]
      rw [List.getElem?_append_left (by omega)]
      congr 2
      omega

/-- Bit 31 - i of `wordOfBits` is sequence bit i, or 0 past the end (R65, R79). -/
theorem wordOfBits_getLsbD (bs : List Bool) (i : Nat) (h : i < 32) :
    (wordOfBits bs).getLsbD (31 - i) = bs.getD i false := by
  unfold wordOfBits
  rw [BitVec.getLsbD_ofNat, natOfBits_testBit _ _ (by simp; omega)]
  simp only [List.length_map, List.length_range]
  rw [show 32 - 1 - (31 - i) = i by omega]
  simp [List.getD_eq_getElem?_getD, h]
  omega

/-- A word is the word of its bits (R65). -/
@[simp] theorem wordOfBits_bits32 (v : Word) : wordOfBits (bits32 v) = v := by
  apply BitVec.eq_of_getLsbD_eq
  intro j hj
  have := wordOfBits_getLsbD (bits32 v) (31 - j) (by omega)
  rw [List.getD_eq_getElem?_getD, bits32_getElem? v _ (by omega), show 31 - (31 - j) = j by omega] at this
  simpa using this

/-- Byte m of a word of bytes is in bits [31-8m : 24-8m] (R64). -/
theorem wordOfBytes_lane {bs : List Byte} {m : Nat} {b : Byte} (hm : m < 4) (h : bs[m]? = some b) :
    (wordOfBytes bs).extractLsb' (24 - 8 * m) 8 = b := by
  have hb : bs.getD m 0 = b := by simp [List.getD_eq_getElem?_getD, h]
  apply BitVec.eq_of_getLsbD_eq
  intro j hj
  simp only [wordOfBytes, fieldAt, BitVec.getLsbD_extractLsb', BitVec.getLsbD_or, BitVec.getLsbD_shiftLeft,
    BitVec.getLsbD_setWidth]
  have h4 : m = 0 ∨ m = 1 ∨ m = 2 ∨ m = 3 := by omega
  rcases h4 with rfl | rfl | rfl | rfl <;> rw [hb]
  · rw [BitVec.getLsbD_of_ge (bs.getD 1 0) _ (by omega), BitVec.getLsbD_of_ge (bs.getD 2 0) _ (by omega),
      BitVec.getLsbD_of_ge (bs.getD 3 0) _ (by omega)]
    simp [hj, show j < 32 by omega, show 24 + j < 32 by omega]
  · rw [BitVec.getLsbD_of_ge (bs.getD 2 0) _ (by omega), BitVec.getLsbD_of_ge (bs.getD 3 0) _ (by omega)]
    simp [hj, show j < 32 by omega, show 16 + j < 32 by omega, show 16 + j < 24 by omega]
  · rw [BitVec.getLsbD_of_ge (bs.getD 3 0) _ (by omega)]
    simp [hj, show j < 32 by omega, show 8 + j < 32 by omega, show 8 + j < 24 by omega, show 8 + j < 16 by omega]
  · simp [hj, show j < 32 by omega, show j < 24 by omega, show j < 16 by omega]

/-- A word is the word of its bytes (R64). -/
@[simp] theorem wordOfBytes_bytes4 (v : Word) : wordOfBytes (bytes4 v) = v := by
  apply BitVec.eq_of_getLsbD_eq
  intro j hj
  simp only [wordOfBytes, bytes4, fieldAt, List.getD_cons_zero, List.getD_cons_succ, BitVec.getLsbD_or,
    BitVec.getLsbD_shiftLeft, BitVec.getLsbD_setWidth, BitVec.getLsbD_extractLsb']
  by_cases h1 : j < 8
  · simp [h1, hj, show j < 16 by omega, show j < 24 by omega]
  · by_cases h2 : j < 16
    · simp [h1, h2, hj, show j < 24 by omega, show j - 8 < 8 by omega, show j - 8 < 32 by omega,
        show 8 + (j - 8) = j by omega]
    · by_cases h3 : j < 24
      · simp [h1, h2, h3, hj, show j - 16 < 8 by omega, show ¬ j - 8 < 8 by omega, show j - 16 < 32 by omega,
          show 16 + (j - 16) = j by omega]
      · simp [h1, h2, h3, hj, show j - 24 < 8 by omega, show ¬ j - 8 < 8 by omega, show ¬ j - 16 < 8 by omega,
          show j - 24 < 32 by omega, show 24 + (j - 24) = j by omega]

end Sys2Proof.Machine
end

