-- ==== Sys2Proof/Laws/Trees.lean ====
section
/-!
SUPPORT. Trees: the lengths and unique parsing of the encoding (30_encoding.md R80), when an arena entry stands for a
shape, what R48 gives, and the walks over an arena (44_code_table.md, 45_tree_serdes.md, 46_encoder_decoder.md).
-/

namespace Sys2Proof.Machine

/-! ### Shapes and their encoding -/

theorem Shape.size_pos (T : Shape) : 0 < T.size := by cases T <;> simp [Shape.size]

theorem Shape.leaves_pos (T : Shape) : 0 < T.leaves := by
  induction T with
  | leaf => simp [Shape.leaves]
  | fork l r hl _ => simp only [Shape.leaves]; omega

/-- A strict binary tree with L leaves has 2L - 1 nodes. -/
theorem Shape.size_add_one (T : Shape) : T.size + 1 = 2 * T.leaves := by
  induction T with
  | leaf => rfl
  | fork l r hl hr => simp only [Shape.size, Shape.leaves]; omega

/-- The encoding of a tree with L leaves has 10 L - 1 bits (R115). -/
theorem Shape.encode_length (T : Shape) : T.encode.length + 1 = 10 * T.leaves := by
  induction T with
  | leaf => simp [Shape.encode, Shape.leaves]
  | fork l r hl hr => simp only [Shape.encode, Shape.leaves, List.length_cons, List.length_append]; omega

/-- An encoding ends where it ends: nothing that follows can be read as a part of it. -/
theorem Shape.encode_append_inj {T T' : Shape} {z z' : List Bool} (h : T.encode ++ z = T'.encode ++ z') :
    T = T' ∧ z = z' := by
  induction T generalizing T' z z' with
  | leaf sym =>
    cases T' with
    | leaf sym' =>
      simp only [Shape.encode, List.cons_append, List.cons.injEq, true_and] at h
      obtain ⟨h1, h2⟩ := List.append_inj h (by simp)
      exact ⟨by rw [bits8_injective h1], h2⟩
    | fork l r => simp [Shape.encode] at h
  | fork l r hl hr =>
    cases T' with
    | leaf sym' => simp [Shape.encode] at h
    | fork l' r' =>
      simp only [Shape.encode, List.cons_append, List.cons.injEq, true_and, List.append_assoc] at h
      obtain ⟨h1, h2⟩ := hl h
      obtain ⟨h3, h4⟩ := hr h2
      exact ⟨by rw [h1, h3], h4⟩

/-- TREE_SERIALIZE's bits are the encoding of the shape. -/
theorem treeBits_eq (arena : List NodeEntry) (fuel n : Nat) :
    treeBits arena fuel n = (shapeAt arena fuel n).encode := by
  induction fuel generalizing n with
  | zero => rfl
  | succ fuel ih =>
    simp only [treeBits, shapeAt]
    cases nodeAt arena n with
    | leaf => rfl
    | internal => simp only [Shape.encode, ih]

/-! ### Entries that stand for a shape -/

/-- Entry `n` of the arena, with the entries below it, is the tree `T`. -/
inductive IsTree (arena : List NodeEntry) : Nat → Shape → Prop where
  | leaf {n : Nat} {sym : Byte} {w : Word} : arena[n]? = some (.leaf sym w) → IsTree arena n (.leaf sym)
  | fork {n : Nat} {l r : BitVec 9} {w : Word} {L R : Shape} : arena[n]? = some (.internal l r w) →
      IsTree arena l.toNat L → IsTree arena r.toNat R → IsTree arena n (.fork L R)

theorem nodeAt_of_getElem? {arena : List NodeEntry} {n : Nat} {e : NodeEntry} (h : arena[n]? = some e) :
    nodeAt arena n = e := by
  simp [nodeAt, h]

variable {arena : List NodeEntry} {n : Nat} {T : Shape}

theorem IsTree.shapeAt (h : IsTree arena n T) {fuel : Nat} (hf : T.size ≤ fuel) : shapeAt arena fuel n = T := by
  induction h generalizing fuel with
  | leaf h =>
    cases fuel with
    | zero => simp [Shape.size] at hf
    | succ fuel => simp [Machine.shapeAt, nodeAt_of_getElem? h]
  | fork h _ _ hl hr =>
    cases fuel with
    | zero => simp [Shape.size] at hf
    | succ fuel =>
      simp only [Shape.size] at hf
      simp [Machine.shapeAt, nodeAt_of_getElem? h, hl (fuel := fuel) (by omega), hr (fuel := fuel) (by omega)]

theorem IsTree.unique {T' : Shape} (h : IsTree arena n T) (h' : IsTree arena n T') : T = T' := by
  exact (h.shapeAt (Nat.le_max_left T.size T'.size)).symm.trans (h'.shapeAt (Nat.le_max_right T.size T'.size))

theorem IsTree.visits_length (h : IsTree arena n T) {fuel : Nat} (hf : T.size ≤ fuel) :
    (visits arena fuel n).length = T.size := by
  induction h generalizing fuel with
  | leaf h =>
    cases fuel with
    | zero => simp [Shape.size] at hf
    | succ fuel => simp [visits, h, Shape.size]
  | fork h _ _ hl hr =>
    cases fuel with
    | zero => simp [Shape.size] at hf
    | succ fuel =>
      simp only [Shape.size] at hf
      simp only [visits, h, List.length_cons, List.length_append, Shape.size]
      rw [hl (by omega), hr (by omega)]

/-- The entries below entry `n` are the same to every sufficient depth. -/
theorem IsTree.visits_eq (h : IsTree arena n T) {fuel fuel' : Nat} (hf : T.size ≤ fuel) (hf' : T.size ≤ fuel') :
    visits arena fuel n = visits arena fuel' n := by
  induction h generalizing fuel fuel' with
  | leaf h =>
    cases fuel with
    | zero => simp [Shape.size] at hf
    | succ fuel =>
      cases fuel' with
      | zero => simp [Shape.size] at hf'
      | succ fuel' => simp [visits, h]
  | fork h _ _ hl hr =>
    simp only [Shape.size] at hf hf'
    cases fuel with
    | zero => omega
    | succ fuel =>
      cases fuel' with
      | zero => omega
      | succ fuel' =>
        simp only [visits, h]
        rw [hl (fuel := fuel) (fuel' := fuel') (by omega) (by omega),
          hr (fuel := fuel) (fuel' := fuel') (by omega) (by omega)]

/-- Entries visited to a depth they do not exhaust, all of them in the arena, make a tree. -/
theorem isTree_of_visits {fuel : Nat} (hlen : (visits arena fuel n).length ≤ fuel)
    (hin : ∀ m ∈ visits arena fuel n, m < arena.length) :
    ∃ T, IsTree arena n T ∧ T.size = (visits arena fuel n).length := by
  induction fuel generalizing n with
  | zero => simp [visits] at hlen
  | succ fuel ih =>
    have hn : n < arena.length := by
      apply hin; simp only [visits]; split <;> simp
    obtain ⟨e, he⟩ : ∃ e, arena[n]? = some e := ⟨_, List.getElem?_eq_getElem hn⟩
    cases e with
    | leaf sym w => exact ⟨.leaf sym, .leaf he, by simp [visits, he, Shape.size]⟩
    | internal l r w =>
      simp only [visits, he, List.length_cons, List.length_append] at hlen
      simp only [visits, he, List.mem_cons, List.mem_append] at hin
      obtain ⟨L, hL, hL'⟩ := ih (n := l.toNat) (by omega) (fun m hm => hin m (.inr (.inl hm)))
      obtain ⟨R, hR, hR'⟩ := ih (n := r.toNat) (by omega) (fun m hm => hin m (.inr (.inr hm)))
      refine ⟨.fork L R, .fork he hL hR, ?_⟩
      simp only [visits, he, List.length_cons, List.length_append, Shape.size, hL', hR']

/-- An arena as R48 says is a tree of as many nodes as it has entries. -/
theorem ArenaOk.isTree {root : Nat} (h : ArenaOk arena root) :
    ∃ T, IsTree arena root T ∧ T.size = arena.length := by
  have hl : (visits arena arena.length root).length = arena.length := by simpa using h.length_eq
  obtain ⟨T, hT, hs⟩ := isTree_of_visits (Nat.le_of_eq hl) (fun m hm => by simpa using h.mem_iff.1 hm)
  exact ⟨T, hT, hs.trans hl⟩

theorem ArenaOk.nodup {root : Nat} (h : ArenaOk arena root) : (visits arena arena.length root).Nodup :=
  h.nodup_iff.2 List.nodup_range

/-- The entry is a Leaf of the arena. -/
def leafAt (arena : List NodeEntry) (n : Nat) : Bool := (arena[n]?.map NodeEntry.isLeaf).getD false

theorem IsTree.countP_visits (h : IsTree arena n T) {fuel : Nat} (hf : T.size ≤ fuel) :
    (visits arena fuel n).countP (leafAt arena) = T.leaves := by
  induction h generalizing fuel with
  | leaf h =>
    cases fuel with
    | zero => simp [Shape.size] at hf
    | succ fuel => simp [visits, h, Shape.leaves, leafAt, NodeEntry.isLeaf]
  | fork h _ _ hl hr =>
    cases fuel with
    | zero => simp [Shape.size] at hf
    | succ fuel =>
      simp only [Shape.size] at hf
      simp only [visits, h, List.countP_cons, List.countP_append, Shape.leaves]
      rw [hl (by omega), hr (by omega)]
      simp [leafAt, h, NodeEntry.isLeaf]

/-- The leaves of a tree as R48 says are the Leaf entries of its arena. -/
theorem ArenaOk.countP_isLeaf {root : Nat} (h : ArenaOk arena root) (hT : IsTree arena root T) :
    arena.countP NodeEntry.isLeaf = T.leaves := by
  obtain ⟨T', hT', hs⟩ := h.isTree
  cases hT.unique hT'
  rw [← hT.countP_visits (fuel := arena.length) (by omega), h.countP_eq]
  suffices ∀ l : List NodeEntry, l.countP NodeEntry.isLeaf = (List.range l.length).countP (leafAt l) from this arena
  intro l
  induction l with
  | nil => rfl
  | cons e l ih =>
    rw [List.countP_cons, List.length_cons, List.range_succ_eq_map, List.countP_cons, List.countP_map, ih]
    congr 1

/-! ### Walks -/

/-- The leaves of a tree in pre-order with their paths, `p` before each. -/
def Shape.paths : Shape → List Bool → List (Byte × List Bool)
  | .leaf sym, p => [(sym, p)]
  | .fork l r, p => l.paths (p ++ [true]) ++ r.paths (p ++ [false])

/-- A walk lists the leaves of the shape with their paths. -/
theorem walk_eq (arena : List NodeEntry) (fuel n : Nat) (p : List Bool) :
    walk arena fuel n p = (Machine.shapeAt arena fuel n).paths p := by
  induction fuel generalizing n p with
  | zero => rfl
  | succ fuel ih =>
    simp only [walk, Machine.shapeAt]
    cases nodeAt arena n with
    | leaf => rfl
    | internal => simp only [Shape.paths, ih]

theorem Shape.mem_paths {T : Shape} {p q : List Bool} {sym : Byte} :
    (sym, q) ∈ T.paths p ↔ ∃ u, q = p ++ u ∧ T.symbolAt u = some sym := by
  induction T generalizing p with
  | leaf x =>
    simp only [Shape.paths, List.mem_singleton, Prod.mk.injEq]
    constructor
    · rintro ⟨rfl, rfl⟩; exact ⟨[], by simp, rfl⟩
    · rintro ⟨u, rfl, hu⟩
      cases u with
      | nil => simp only [Shape.symbolAt, Option.some.injEq] at hu; simp [hu]
      | cons b u => simp [Shape.symbolAt] at hu
  | fork l r hl hr =>
    simp only [Shape.paths, List.mem_append, hl, hr]
    constructor
    · rintro (⟨u, rfl, hu⟩ | ⟨u, rfl, hu⟩)
      · exact ⟨true :: u, by simp, by simpa [Shape.symbolAt] using hu⟩
      · exact ⟨false :: u, by simp, by simpa [Shape.symbolAt] using hu⟩
    · rintro ⟨u, rfl, hu⟩
      cases u with
      | nil => simp [Shape.symbolAt] at hu
      | cons b u =>
        cases b
        · exact .inr ⟨u, by simp, by simpa [Shape.symbolAt] using hu⟩
        · exact .inl ⟨u, by simp, by simpa [Shape.symbolAt] using hu⟩

/-- No path to a leaf goes on beyond another. -/
theorem Shape.symbolAt_append {T : Shape} {u v : List Bool} {a b : Byte} (h : T.symbolAt u = some a)
    (h' : T.symbolAt (u ++ v) = some b) : v = [] ∧ a = b := by
  induction T generalizing u with
  | leaf x =>
    cases u with
    | nil => cases v <;> simp_all [Shape.symbolAt]
    | cons c u => simp [Shape.symbolAt] at h
  | fork l r hl hr =>
    cases u with
    | nil => simp [Shape.symbolAt] at h
    | cons c u =>
      cases c
      · exact hr (by simpa [Shape.symbolAt] using h) (by simpa [Shape.symbolAt] using h')
      · exact hl (by simpa [Shape.symbolAt] using h) (by simpa [Shape.symbolAt] using h')

/-- Paths in an arena that is a tree are the paths of the shape. -/
theorem IsTree.leadsTo_iff (h : IsTree arena n T) {path : List Bool} {sym : Byte} :
    LeadsTo arena n path sym ↔ T.symbolAt path = some sym := by
  induction h generalizing path with
  | @leaf n x w h =>
    cases path with
    | nil => simp [LeadsTo, follow, h, Shape.symbolAt, eq_comm]
    | cons b bs => simp [LeadsTo, follow, child, h, Shape.symbolAt]
  | @fork n l r w L R h _ _ hl hr =>
    cases path with
    | nil => simp [LeadsTo, follow, h, Shape.symbolAt]
    | cons b bs =>
      simp only [LeadsTo] at hl hr
      cases b
      · simpa [LeadsTo, follow, child, h, Shape.symbolAt] using hr
      · simpa [LeadsTo, follow, child, h, Shape.symbolAt] using hl

/-- The codes of an arena that is a tree are the codes of the shape. -/
theorem IsTree.isCodeOf_iff (h : IsTree arena n T) {path : List Bool} {sym : Byte} :
    IsCodeOf arena n path sym ↔ T.decodes path = some sym := by
  cases h with
  | leaf h => simp [IsCodeOf, nodeAt_of_getElem? h, Shape.decodes]
  | fork h hl hr =>
    simp only [IsCodeOf, nodeAt_of_getElem? h, Shape.decodes]
    exact (IsTree.fork h hl hr).leadsTo_iff

/-- An entry that a path leads to is visited. -/
theorem IsTree.mem_visits_of_follow (h : IsTree arena n T) {path : List Bool} {m : Nat}
    (hm : follow arena n path = some m) : m ∈ visits arena T.size n := by
  induction h generalizing path with
  | @leaf n x w h =>
    cases path with
    | nil => simp only [follow, Option.some.injEq] at hm; subst hm; simp [Shape.size, visits, h]
    | cons b bs => simp [follow, child, h] at hm
  | @fork n l r w L R h hL hR hl hr =>
    simp only [Shape.size, visits, h, List.mem_cons, List.mem_append]
    cases path with
    | nil => simp only [follow, Option.some.injEq] at hm; exact .inl hm.symm
    | cons b bs =>
      right
      cases b
      · right
        rw [hR.visits_eq (fuel' := R.size) (by omega) (Nat.le_refl _)]
        exact hr (by simpa [follow, child, h] using hm)
      · left
        rw [hL.visits_eq (fuel' := L.size) (by omega) (Nat.le_refl _)]
        exact hl (by simpa [follow, child, h] using hm)

/-- A path leads to every entry that is visited. -/
theorem IsTree.follow_of_mem_visits (hT : IsTree arena n T) {m : Nat} (hm : m ∈ visits arena T.size n) :
    ∃ p, follow arena n p = some m := by
  induction hT with
  | @leaf n x w h =>
    simp [Shape.size, visits, h] at hm
    exact ⟨[], by simp [follow, hm]⟩
  | @fork n l r w L R h hL hR hl hr =>
    simp only [Shape.size, visits, h, List.mem_cons, List.mem_append] at hm
    rcases hm with rfl | hm | hm
    · exact ⟨[], rfl⟩
    · rw [hL.visits_eq (fuel' := L.size) (by omega) (Nat.le_refl _)] at hm
      obtain ⟨p, hp⟩ := hl hm
      exact ⟨true :: p, by simp [follow, child, h, hp]⟩
    · rw [hR.visits_eq (fuel' := R.size) (by omega) (Nat.le_refl _)] at hm
      obtain ⟨p, hp⟩ := hr hm
      exact ⟨false :: p, by simp [follow, child, h, hp]⟩

/-- The symbol of every Leaf entry of a tree as R48 says has a code. -/
theorem ArenaOk.code_of_leaf {root j : Nat} {sym : Byte} {w : Word} (hok : ArenaOk arena root)
    (hT : IsTree arena root T) (hj : arena[j]? = some (.leaf sym w)) : ∃ p, T.decodes p = some sym := by
  obtain ⟨T', hT', hs⟩ := hok.isTree
  cases hT.unique hT'
  have hm : j ∈ visits arena T.size root := by
    rw [hs]; exact hok.mem_iff.2 (by simp; exact (List.getElem?_eq_some_iff.1 hj).1)
  obtain ⟨p, hp⟩ := hT.follow_of_mem_visits hm
  have hlt : LeadsTo arena root p sym := ⟨j, w, hp, hj⟩
  cases hT with
  | @leaf _ y w' h =>
    have : (Shape.leaf y).symbolAt p = some sym := (IsTree.leaf h).leadsTo_iff.1 hlt
    cases p with
    | nil => simp only [Shape.symbolAt, Option.some.injEq] at this; exact ⟨[true], by simp [Shape.decodes, this]⟩
    | cons b p => simp [Shape.symbolAt] at this
  | fork h hl hr => exact ⟨p, (IsTree.fork h hl hr).leadsTo_iff.1 hlt⟩

end Sys2Proof.Machine
end

