-- ==== Sys2Proof/Laws/Builder.lean ====
section
/-!
SUPPORT. The tree builder (43_tree_builder.md): the priority structure stays in popping order, and the merges make
one tree of all the entries (10_state.md R48).
-/

namespace Sys2Proof.Machine

/-! ### The priority structure -/

theorem enqueue_perm (t : QueueItem) (q : List QueueItem) : (enqueue t q).Perm (t :: q) := by
  induction q with
  | nil => exact .refl _
  | cons u q ih =>
    simp only [enqueue]
    split
    · exact .refl _
    · exact (ih.cons u).trans (.swap t u q)

@[simp] theorem enqueue_length (t : QueueItem) (q : List QueueItem) : (enqueue t q).length = q.length + 1 := by
  simpa using (enqueue_perm t q).length_eq

/-- (weight, stamp) of `t` is at most that of `u` (R103). -/
def QueueItem.le (t u : QueueItem) : Prop := t.weight < u.weight ∨ (t.weight = u.weight ∧ t.stamp ≤ u.stamp)

theorem QueueItem.before_iff {t u : QueueItem} :
    t.before u = true ↔ t.weight < u.weight ∨ (t.weight = u.weight ∧ t.stamp < u.stamp) := by
  simp [QueueItem.before]

/-- An insertion keeps the structure in popping order. -/
theorem enqueue_sorted {t : QueueItem} {q : List QueueItem} (h : q.Pairwise QueueItem.le) :
    (enqueue t q).Pairwise QueueItem.le := by
  induction q with
  | nil => simp [enqueue]
  | cons u q ih =>
    obtain ⟨h1, h2⟩ := List.pairwise_cons.1 h
    simp only [enqueue]
    split
    · next hb =>
      rw [QueueItem.before_iff] at hb
      refine List.pairwise_cons.2 ⟨?_, h⟩
      intro v hv
      rcases List.mem_cons.1 hv with rfl | hv
      · unfold QueueItem.le; omega
      · have := h1 v hv
        unfold QueueItem.le at this ⊢
        omega
    · next hb =>
      rw [QueueItem.before_iff] at hb
      refine List.pairwise_cons.2 ⟨?_, ih h2⟩
      intro v hv
      rcases List.mem_cons.1 ((enqueue_perm t q).mem_iff.1 hv) with rfl | hv
      · unfold QueueItem.le; omega
      · exact h1 v hv

/-- The triples Init inserts (R104). -/
def leafItems : Nat → List (Nat × Word) → List QueueItem
  | _, [] => []
  | i, p :: ps => { weight := p.2.toNat, stamp := i, index := i } :: leafItems (i + 1) ps

theorem initQueue_perm (i : Nat) (ps : List (Nat × Word)) (q : List QueueItem) :
    (initQueue i ps q).Perm (leafItems i ps ++ q) := by
  induction ps generalizing i q with
  | nil => exact .refl _
  | cons p ps ih =>
    simp only [initQueue, leafItems, List.cons_append]
    exact (ih _ _).trans (((enqueue_perm _ q).append_left _).trans List.perm_middle)

theorem initQueue_sorted {i : Nat} {ps : List (Nat × Word)} {q : List QueueItem} (h : q.Pairwise QueueItem.le) :
    (initQueue i ps q).Pairwise QueueItem.le := by
  induction ps generalizing i q with
  | nil => exact h
  | cons p ps ih => exact ih (enqueue_sorted h)

theorem leafItems_length (i : Nat) (ps : List (Nat × Word)) : (leafItems i ps).length = ps.length := by
  induction ps generalizing i with
  | nil => rfl
  | cons p ps ih => simp [leafItems, ih]

theorem leafItems_map_index (i : Nat) (ps : List (Nat × Word)) :
    (leafItems i ps).map QueueItem.index = List.range' i ps.length := by
  induction ps generalizing i with
  | nil => rfl
  | cons p ps ih => simp [leafItems, ih, List.range'_succ]

@[simp] theorem initQueue_length (ps : List (Nat × Word)) : (initQueue 0 ps []).length = ps.length := by
  simpa [leafItems_length] using (initQueue_perm 0 ps []).length_eq

/-! ### The merges -/

/-- One merge: the two least leave the structure, the new entry takes the next index and goes in. -/
theorem mergeAll_cons_cons (fuel next stamp : Nat) (a b : QueueItem) (q : List QueueItem) :
    mergeAll (fuel + 1) next stamp (a :: b :: q) =
      (.internal (BitVec.ofNat 9 a.index) (BitVec.ofNat 9 b.index) (BitVec.ofNat 32 (a.weight + b.weight)) ::
        (mergeAll fuel (next + 1) (stamp + 1)
          (enqueue { weight := a.weight + b.weight, stamp := stamp, index := next } q)).1,
       (mergeAll fuel (next + 1) (stamp + 1)
          (enqueue { weight := a.weight + b.weight, stamp := stamp, index := next } q)).2) := rfl

theorem mergeAll_single (fuel next stamp : Nat) (a : QueueItem) : mergeAll fuel next stamp [a] = ([], a.index) := by
  cases fuel <;> rfl

/-- A structure of n triples takes n - 1 merges, each an Internal entry, and the last entry made is the root. -/
theorem mergeAll_length {fuel next stamp : Nat} {q : List QueueItem} (hq : q ≠ []) (hf : q.length ≤ fuel + 1) :
    (mergeAll fuel next stamp q).1.length = q.length - 1 := by
  induction fuel generalizing next stamp q with
  | zero =>
    match q, hq with
    | [a], _ => rfl
    | a :: b :: q, _ => simp only [List.length_cons] at hf; omega
  | succ fuel ih =>
    match q, hq with
    | [a], _ => rfl
    | a :: b :: q, _ =>
      rw [mergeAll_cons_cons]
      simp only [List.length_cons] at hf ⊢
      rw [ih (by intro h; simpa using congrArg List.length h) (by simp; omega)]
      simp

theorem mergeAll_root {fuel next stamp : Nat} {a b : QueueItem} {q : List QueueItem} (hf : q.length + 1 ≤ fuel) :
    (mergeAll fuel next stamp (a :: b :: q)).2 = next + q.length := by
  induction fuel generalizing next stamp a b q with
  | zero => omega
  | succ fuel ih =>
    rw [mergeAll_cons_cons]
    cases q with
    | nil => simp [enqueue, mergeAll_single]
    | cons c q =>
      obtain ⟨x, y, r, hr⟩ : ∃ x y r, enqueue { weight := a.weight + b.weight, stamp := stamp, index := next }
          (c :: q) = x :: y :: r := by
        have := enqueue_length { weight := a.weight + b.weight, stamp := stamp, index := next } (c :: q)
        match h : enqueue { weight := a.weight + b.weight, stamp := stamp, index := next } (c :: q) with
        | [] => simp [h] at this
        | [x] => simp [h] at this
        | x :: y :: r => exact ⟨x, y, r, rfl⟩
      have hl := enqueue_length { weight := a.weight + b.weight, stamp := stamp, index := next } (c :: q)
      simp only [hr, List.length_cons] at hl hf ⊢
      rw [ih (by omega)]
      omega

theorem mergeAll_internal {fuel next stamp : Nat} {q : List QueueItem} {e : NodeEntry}
    (h : e ∈ (mergeAll fuel next stamp q).1) : ∃ l r w, e = .internal l r w := by
  induction fuel generalizing next stamp q with
  | zero => unfold mergeAll at h; split at h <;> simp_all
  | succ fuel ih =>
    match q with
    | [] => simp [mergeAll] at h
    | [a] => simp [mergeAll] at h
    | a :: b :: q =>
      rw [mergeAll_cons_cons] at h
      rcases List.mem_cons.1 h with rfl | h
      · exact ⟨_, _, _, rfl⟩
      · exact ih h

/-! ### The tree of the merges (R48) -/

theorem IsTree.append {pre post : List NodeEntry} {n : Nat} {T : Shape} (h : IsTree pre n T) :
    IsTree (pre ++ post) n T := by
  have key : ∀ {k : Nat} {e : NodeEntry}, pre[k]? = some e → (pre ++ post)[k]? = some e := by
    intro k e he
    rw [List.getElem?_append_left (List.getElem?_eq_some_iff.1 he).1, he]
  induction h with
  | leaf h => exact .leaf (key h)
  | fork h _ _ hl hr => exact .fork (key h) hl hr

theorem IsTree.visits_append {pre post : List NodeEntry} {n fuel : Nat} {T : Shape} (h : IsTree pre n T)
    (hf : T.size ≤ fuel) : visits (pre ++ post) fuel n = visits pre fuel n := by
  have key : ∀ {k : Nat} {e : NodeEntry}, pre[k]? = some e → (pre ++ post)[k]? = some e := by
    intro k e he
    rw [List.getElem?_append_left (List.getElem?_eq_some_iff.1 he).1, he]
  induction h generalizing fuel with
  | leaf h =>
    cases fuel with
    | zero => rfl
    | succ fuel => simp [visits, h, key h]
  | fork h _ _ hl hr =>
    simp only [Shape.size] at hf
    cases fuel with
    | zero => omega
    | succ fuel => simp only [visits, h, key h]; rw [hl (by omega), hr (by omega)]

/-- What stands in the structure: the entries made so far are a forest whose roots are the structure's indices. -/
structure Forest (pre : List NodeEntry) (q : List QueueItem) : Prop where
  trees : ∀ t ∈ q, ∃ T, IsTree pre t.index T ∧ T.size ≤ pre.length
  nodes : (q.flatMap (fun t => visits pre pre.length t.index)).Perm (List.range pre.length)

theorem Forest.perm {pre : List NodeEntry} {q q' : List QueueItem} (h : Forest pre q) (hq : q.Perm q') :
    Forest pre q' :=
  ⟨fun t ht => h.trees t (hq.mem_iff.2 ht), (List.Perm.flatMap_right _ hq).symm.trans h.nodes⟩

/-- A merge keeps the forest. -/
theorem Forest.merge {pre : List NodeEntry} {q : List QueueItem} {a b : QueueItem} (h : Forest pre (a :: b :: q))
    (hpre : pre.length ≤ 511) (w s : Nat) :
    Forest (pre ++ [.internal (BitVec.ofNat 9 a.index) (BitVec.ofNat 9 b.index) (BitVec.ofNat 32 (a.weight + b.weight))])
      ({ weight := w, stamp := s, index := pre.length } :: q) := by
  obtain ⟨A, hA, hA'⟩ := h.trees a (by simp)
  obtain ⟨B, hB, hB'⟩ := h.trees b (by simp)
  have hin : ∀ {n T}, IsTree pre n T → n < pre.length := by
    intro n T hT
    cases hT with
    | leaf h => exact (List.getElem?_eq_some_iff.1 h).1
    | fork h _ _ => exact (List.getElem?_eq_some_iff.1 h).1
  have ha : (BitVec.ofNat 9 a.index).toNat = a.index := by have := hin hA; simp; omega
  have hb : (BitVec.ofNat 9 b.index).toNat = b.index := by have := hin hB; simp; omega
  have hsize : A.size + B.size ≤ pre.length := by
    have := h.nodes.length_eq
    simp only [List.flatMap_cons, List.length_append, List.length_range] at this
    rw [hA.visits_length hA', hB.visits_length hB'] at this
    omega
  have hnew : (pre ++ [NodeEntry.internal (BitVec.ofNat 9 a.index) (BitVec.ofNat 9 b.index)
      (BitVec.ofNat 32 (a.weight + b.weight))])[pre.length]? = some (.internal (BitVec.ofNat 9 a.index)
        (BitVec.ofNat 9 b.index) (BitVec.ofNat 32 (a.weight + b.weight))) := by simp
  refine ⟨?_, ?_⟩
  · intro t ht
    simp only [List.length_append, List.length_singleton]
    rcases List.mem_cons.1 ht with rfl | ht
    · refine ⟨.fork A B, .fork hnew (ha.symm ▸ hA.append) (hb.symm ▸ hB.append), ?_⟩
      simp only [Shape.size]
      omega
    · obtain ⟨T, hT, hT'⟩ := h.trees t (by simp [ht])
      exact ⟨T, hT.append, by omega⟩
  · simp only [List.length_append, List.length_singleton, List.flatMap_cons]
    have hroot : visits (pre ++ [NodeEntry.internal (BitVec.ofNat 9 a.index) (BitVec.ofNat 9 b.index)
        (BitVec.ofNat 32 (a.weight + b.weight))]) (pre.length + 1) pre.length =
        pre.length :: (visits pre pre.length a.index ++ visits pre pre.length b.index) := by
      simp only [visits, hnew, ha, hb]
      rw [hA.visits_append hA', hB.visits_append hB']
    have hrest : q.flatMap (fun t => visits (pre ++ [NodeEntry.internal (BitVec.ofNat 9 a.index)
        (BitVec.ofNat 9 b.index) (BitVec.ofNat 32 (a.weight + b.weight))]) (pre.length + 1) t.index) =
        q.flatMap (fun t => visits pre pre.length t.index) := by
      apply List.flatMap_congr
      intro t ht
      obtain ⟨T, hT, hT'⟩ := h.trees t (by simp [ht])
      rw [hT.visits_append (by omega), hT.visits_eq (by omega) hT']
    rw [hroot, hrest, List.range_succ]
    have := h.nodes
    simp only [List.flatMap_cons] at this
    rw [List.cons_append, List.append_assoc]
    exact (this.cons _).trans (List.perm_append_singleton _ _).symm

/-- The merges of a forest end in one tree of all the entries. -/
theorem mergeAll_arenaOk {fuel stamp : Nat} {pre : List NodeEntry} {q : List QueueItem} (hq : q ≠ [])
    (hf : q.length ≤ fuel + 1) (hcap : pre.length + q.length ≤ 512) (h : Forest pre q) :
    ArenaOk (pre ++ (mergeAll fuel pre.length stamp q).1) (mergeAll fuel pre.length stamp q).2 := by
  induction fuel generalizing stamp pre q with
  | zero =>
    match q, hq with
    | [a], _ => simpa [mergeAll_single, ArenaOk] using h.nodes
    | a :: b :: q, _ => simp only [List.length_cons] at hf; omega
  | succ fuel ih =>
    match q, hq with
    | [a], _ => simpa [mergeAll_single, ArenaOk] using h.nodes
    | a :: b :: q, _ =>
      rw [mergeAll_cons_cons]
      simp only [List.length_cons] at hf hcap
      have hm := (h.merge (by omega) (a.weight + b.weight) stamp).perm (enqueue_perm _ q).symm
      have := ih (stamp := stamp + 1) (by intro h; simpa using congrArg List.length h) (by simp; omega)
        (by simp; omega) hm
      simpa using this

/-! ### TREE_BUILD -/

theorem presentSymbols_eq (counts : List Word) :
    presentSymbols counts = ((List.range counts.length).filter (fun k => counts.getD k 0 != 0)).map
      (fun k => (k, counts.getD k 0)) := by
  have hz : (List.range counts.length).zip counts = (List.range counts.length).map (fun k => (k, counts.getD k 0)) := by
    apply List.ext_getElem
    · simp
    · intro i h1 h2
      simp only [List.length_map, List.length_range] at h2
      simp [List.getD_eq_getElem?_getD, h2]
  rw [presentSymbols, hz, List.filter_map]
  rfl

theorem presentSymbols_length (counts : List Word) : (presentSymbols counts).length = distinct counts := by
  unfold presentSymbols distinct
  rw [← List.countP_eq_length_filter]
  conv => rhs; rw [← List.map_snd_zip (l₁ := List.range counts.length) (l₂ := counts) (by simp), List.countP_map]
  rfl

theorem distinct_le (counts : List Word) : distinct counts ≤ counts.length := List.countP_le_length

@[simp] theorem leafEntries_length (present : List (Nat × Word)) : (leafEntries present).length = present.length := by
  simp [leafEntries]

theorem leafEntries_getElem? {present : List (Nat × Word)} {j : Nat} (h : j < present.length) :
    ∃ sym w, (leafEntries present)[j]? = some (.leaf sym w) :=
  ⟨BitVec.ofNat 8 present[j].1, present[j].2, by
    simp only [leafEntries, List.getElem?_map, List.getElem?_eq_getElem h, Option.map_some]⟩

theorem initQueue_forest (present : List (Nat × Word)) :
    Forest (leafEntries present) (initQueue 0 present []) := by
  have hp := initQueue_perm 0 present []
  rw [List.append_nil] at hp
  refine Forest.perm ?_ hp.symm
  have hv : ∀ t ∈ leafItems 0 present, ∃ sym w, (leafEntries present)[t.index]? = some (.leaf sym w) := by
    intro t ht
    have := List.mem_map_of_mem (f := QueueItem.index) ht
    rw [leafItems_map_index] at this
    exact leafEntries_getElem? (by simpa [List.mem_range'_1] using this)
  refine ⟨?_, ?_⟩
  · intro t ht
    obtain ⟨sym, w, h⟩ := hv t ht
    exact ⟨_, .leaf h, by have := (List.getElem?_eq_some_iff.1 h).1; simp only [Shape.size]; omega⟩
  · have : (leafItems 0 present).flatMap (fun t => visits (leafEntries present) (leafEntries present).length t.index) =
        (leafItems 0 present).flatMap (fun t => [t.index]) := by
      apply List.flatMap_congr
      intro t ht
      obtain ⟨sym, w, h⟩ := hv t ht
      have hl := (List.getElem?_eq_some_iff.1 h).1
      obtain ⟨n, hn⟩ : ∃ n, (leafEntries present).length = n + 1 := ⟨_, (Nat.succ_pred_eq_of_pos (by omega)).symm⟩
      rw [hn]
      simp [visits, h]
    rw [this, ← List.map_eq_flatMap, leafItems_map_index, leafEntries_length, List.range_eq_range']

/-- TREE_BUILD's arena: the leaves, then the entries the merges make. -/
theorem buildTree_eq (counts : List Word) :
    buildTree counts =
      (leafEntries (presentSymbols counts) ++
        (mergeAll (distinct counts) (distinct counts) (distinct counts) (initQueue 0 (presentSymbols counts) [])).1,
       (mergeAll (distinct counts) (distinct counts) (distinct counts) (initQueue 0 (presentSymbols counts) [])).2) := by
  simp only [buildTree, presentSymbols_length]

theorem initQueue_present_ne_nil {counts : List Word} (h : distinct counts ≠ 0) :
    initQueue 0 (presentSymbols counts) [] ≠ [] := by
  intro hq
  have := congrArg List.length hq
  simp [presentSymbols_length, h] at this

/-- TREE_BUILD's arena is a tree as R48 says. -/
theorem buildTree_arenaOk {counts : List Word} (h : distinct counts ≠ 0) (h' : counts.length ≤ 256) :
    ArenaOk (buildTree counts).1 (buildTree counts).2 := by
  have hd := distinct_le counts
  rw [buildTree_eq]
  have hl : (leafEntries (presentSymbols counts)).length = distinct counts := by
    rw [leafEntries_length, presentSymbols_length]
  have := mergeAll_arenaOk (fuel := distinct counts) (stamp := distinct counts) (initQueue_present_ne_nil h)
    (by simp [presentSymbols_length]) (by simp [presentSymbols_length]; omega)
    (initQueue_forest (presentSymbols counts))
  rw [hl] at this
  exact this

theorem buildTree_length {counts : List Word} (h : distinct counts ≠ 0) :
    (buildTree counts).1.length = 2 * distinct counts - 1 := by
  rw [buildTree_eq]
  simp only [List.length_append, leafEntries_length, presentSymbols_length]
  rw [mergeAll_length (initQueue_present_ne_nil h) (by simp [presentSymbols_length])]
  simp only [initQueue_length, presentSymbols_length]
  omega

theorem buildTree_root {counts : List Word} (h : distinct counts ≠ 0) :
    (buildTree counts).2 = 2 * distinct counts - 2 := by
  rw [buildTree_eq]
  have hl : (initQueue 0 (presentSymbols counts) []).length = distinct counts := by simp [presentSymbols_length]
  match hq : initQueue 0 (presentSymbols counts) [] with
  | [] => exact absurd hq (initQueue_present_ne_nil h)
  | [a] =>
    have hi : a.index ∈ (leafItems 0 (presentSymbols counts)).map QueueItem.index := by
      have hp := initQueue_perm 0 (presentSymbols counts) []
      rw [hq, List.append_nil] at hp
      exact List.mem_map_of_mem (hp.mem_iff.1 (by simp))
    rw [leafItems_map_index, presentSymbols_length] at hi
    rw [hq] at hl
    simp only [List.length_singleton] at hl
    simp only [mergeAll_single, ← hl]
    rw [← hl] at hi
    simpa using hi
  | a :: b :: q =>
    rw [hq] at hl
    simp only [List.length_cons] at hl
    simp only
    rw [mergeAll_root (by omega)]
    omega

/-- A nonempty input has a symbol with a count > 0. -/
theorem distinct_freqOf {x : List Byte} (hx : x ≠ []) (hl : x.length < 2 ^ 32) : distinct (freqOf x) ≠ 0 := by
  cases x with
  | nil => exact absurd rfl hx
  | cons a x =>
    have : 0 < distinct (freqOf (a :: x)) := by
      unfold distinct
      rw [List.countP_pos_iff]
      have hle : (a :: x).countP (fun b => b.toNat == a.toNat) ≤ (a :: x).length := List.countP_le_length
      refine ⟨BitVec.ofNat 32 ((a :: x).countP (fun b => b.toNat == a.toNat)), ?_, ?_⟩
      · unfold freqOf
        exact List.mem_map.2 ⟨a.toNat, by simp; exact a.isLt, rfl⟩
      · simp only [bne_iff_ne, ne_eq]
        rw [← BitVec.toNat_inj]
        simp only [BitVec.toNat_ofNat]
        rw [Nat.mod_eq_of_lt (by omega)]
        have : 0 < (a :: x).countP (fun b => b.toNat == a.toNat) := List.countP_pos_iff.2 ⟨a, by simp, by simp⟩
        show ¬ _ = 0
        omega
    omega

/-- Every symbol of the input has a leaf in the tree built from its counts. -/
theorem buildTree_leaf_of_mem {x : List Byte} (hl : x.length < 2 ^ 32) {sym : Byte} (hs : sym ∈ x) :
    ∃ (j : Nat) (w : Word), (buildTree (freqOf x)).1[j]? = some (NodeEntry.leaf sym w) := by
  have hmem : (sym.toNat, BitVec.ofNat 32 (x.countP (fun b => b.toNat == sym.toNat))) ∈ presentSymbols (freqOf x) := by
    rw [presentSymbols_eq]
    refine List.mem_map.2 ⟨sym.toNat, List.mem_filter.2 ⟨by simp [freqOf]; exact sym.isLt, ?_⟩, ?_⟩
    all_goals
      have hg : (freqOf x).getD sym.toNat 0 = BitVec.ofNat 32 (x.countP (fun b => b.toNat == sym.toNat)) := by
        have := sym.isLt
        rw [List.getD_eq_getElem?_getD, freqOf, List.getElem?_map, List.getElem?_range (show sym.toNat < 256 from this)]; rfl
      rw [hg]
    · have hle : x.countP (fun b => b.toNat == sym.toNat) ≤ x.length := List.countP_le_length
      have : 0 < x.countP (fun b => b.toNat == sym.toNat) := List.countP_pos_iff.2 ⟨sym, hs, by simp⟩
      simp only [bne_iff_ne, ne_eq]
      rw [← BitVec.toNat_inj]
      simp only [BitVec.toNat_ofNat]
      rw [Nat.mod_eq_of_lt (by omega)]
      show ¬ _ = 0
      omega
  obtain ⟨j, hj⟩ := List.getElem?_of_mem hmem
  refine ⟨j, BitVec.ofNat 32 (x.countP (fun b => b.toNat == sym.toNat)), ?_⟩
  rw [buildTree_eq]
  have hjl : j < (leafEntries (presentSymbols (freqOf x))).length := by rw [leafEntries_length]; exact (List.getElem?_eq_some_iff.1 hj).1
  rw [List.getElem?_append_left hjl, leafEntries, List.getElem?_map, hj]
  simp

/-! ### The structure and the arena together (R103, R105) -/

/-- What stands in the structure while the merges run: in popping order, each triple with its entry's weight and its
index as stamp, the indices those that no Internal entry has taken, the weights adding up to `total`. -/
structure QueueOk (pre : List NodeEntry) (q : List QueueItem) (total : Nat) : Prop where
  sorted : q.Pairwise QueueItem.le
  items : ∀ t ∈ q, t.stamp = t.index ∧ ∃ e, pre[t.index]? = some e ∧ e.weight.toNat = t.weight
  nodup : (q.map QueueItem.index).Nodup
  free : ∀ j, j < pre.length → (j ∈ q.map QueueItem.index ↔ ¬ Consumed pre pre.length j)
  sum : (q.map QueueItem.weight).sum = total
  low : ∀ (k : Nat) (l r : BitVec 9) (w : Word), pre[k]? = some (.internal l r w) → l.toNat < k ∧ r.toNat < k

/-- Later entries take nothing back. -/
theorem consumed_append {pre post : List NodeEntry} {i j : Nat} (h : i ≤ pre.length) :
    Consumed (pre ++ post) i j ↔ Consumed pre i j := by
  unfold Consumed
  constructor
  · rintro ⟨k, l, r, w, hk, he, hj⟩
    rw [List.getElem?_append_left (by omega)] at he
    exact ⟨k, l, r, w, hk, he, hj⟩
  · rintro ⟨k, l, r, w, hk, he, hj⟩
    exact ⟨k, l, r, w, hk, by rw [List.getElem?_append_left (by omega)]; exact he, hj⟩

theorem getElem?_append_of_some {pre post : List NodeEntry} {i : Nat} {e : NodeEntry} (h : pre[i]? = some e) : 
    (pre ++ post)[i]? = some e := by
  rw [List.getElem?_append_left (List.getElem?_eq_some_iff.1 h).1, h]

/-- A merge keeps it: the two least leave, the new entry goes in with the sum of their weights. -/
theorem QueueOk.merge {pre : List NodeEntry} {a b : QueueItem} {q : List QueueItem} {total : Nat}
    (h : QueueOk pre (a :: b :: q) total) (hcap : pre.length ≤ 511) (hS : total < 2 ^ 32) :
    QueueOk (pre ++ [.internal (BitVec.ofNat 9 a.index) (BitVec.ofNat 9 b.index)
        (BitVec.ofNat 32 (a.weight + b.weight))])
      (enqueue { weight := a.weight + b.weight, stamp := pre.length, index := pre.length } q) total := by
  obtain ⟨sa, ea, hea, hwa⟩ := h.items a (by simp)
  obtain ⟨sb, eb, heb, hwb⟩ := h.items b (by simp)
  have hia := (List.getElem?_eq_some_iff.1 hea).1
  have hib := (List.getElem?_eq_some_iff.1 heb).1
  have ha : (BitVec.ofNat 9 a.index).toNat = a.index := by simp; omega
  have hb : (BitVec.ofNat 9 b.index).toNat = b.index := by simp; omega
  have hsum := h.sum
  simp only [List.map_cons, List.sum_cons] at hsum
  have hnd := h.nodup
  simp only [List.map_cons, List.nodup_cons, List.mem_cons, not_or] at hnd
  set new : NodeEntry := .internal (BitVec.ofNat 9 a.index) (BitVec.ofNat 9 b.index) (BitVec.ofNat 32 (a.weight + b.weight)) with hnew
  have hnw : new.weight.toNat = a.weight + b.weight := by simp [hnew, NodeEntry.weight]; omega
  have hcons : ∀ j, Consumed (pre ++ [new]) (pre.length + 1) j ↔ (Consumed pre pre.length j ∨ j = a.index ∨ j = b.index) := by
    intro j
    unfold Consumed
    constructor
    · rintro ⟨k, l, r, w, hk, he, hj⟩
      by_cases hk' : k < pre.length
      · rw [List.getElem?_append_left hk'] at he
        exact .inl ⟨k, l, r, w, hk', he, hj⟩
      · have : k = pre.length := by omega
        subst this
        simp [hnew] at he
        obtain ⟨rfl, rfl, -⟩ := he
        rw [ha, hb] at hj
        exact .inr hj
    · rintro (⟨k, l, r, w, hk, he, hj⟩ | hj)
      · exact ⟨k, l, r, w, by omega, getElem?_append_of_some he, hj⟩
      · exact ⟨pre.length, BitVec.ofNat 9 a.index, BitVec.ofNat 9 b.index, BitVec.ofNat 32 (a.weight + b.weight), by omega, by simp [hnew], by rw [ha, hb]; exact hj⟩
  have hsort := List.pairwise_cons.1 h.sorted
  have hsort2 := List.pairwise_cons.1 hsort.2
  show QueueOk (pre ++ [new]) _ total
  have hp := enqueue_perm { weight := a.weight + b.weight, stamp := pre.length, index := pre.length } q
  refine ⟨enqueue_sorted hsort2.2, ?_, ?_, ?_, ?_, ?_⟩
  · intro t ht
    rcases List.mem_cons.1 (hp.mem_iff.1 ht) with rfl | ht
    · exact ⟨rfl, new, by simp, hnw⟩
    · obtain ⟨s1, e, he, hw⟩ := h.items t (by simp [ht])
      exact ⟨s1, e, getElem?_append_of_some he, hw⟩
  · rw [(hp.map _).nodup_iff]
    simp only [List.map_cons, List.nodup_cons]
    refine ⟨?_, hnd.2.2⟩
    intro hm
    obtain ⟨t, ht, hte⟩ := List.mem_map.1 hm
    obtain ⟨_, e, he, _⟩ := h.items t (by simp [ht])
    have := (List.getElem?_eq_some_iff.1 he).1
    omega
  · intro j hj
    rw [(hp.map _).mem_iff]
    simp only [List.length_append, List.length_singleton] at hj ⊢
    rw [hcons]
    simp only [List.map_cons, List.mem_cons, not_or]
    by_cases hjn : j = pre.length
    · subst hjn
      simp only [true_or, true_iff]
      refine ⟨?_, by omega, by omega⟩
      rintro ⟨k, l, r, w, hk, he, hj⟩
      have := h.low k l r w he
      omega
    · have := h.free j (by omega)
      simp only [List.map_cons, List.mem_cons] at this
      constructor
      · rintro (rfl | hm)
        · exact absurd rfl hjn
        · refine ⟨this.1 (.inr (.inr hm)), ?_, ?_⟩
          · rintro rfl; exact hnd.1.2 hm
          · rintro rfl; exact hnd.2.1 hm
      · rintro ⟨h1, h2, h3⟩
        rcases this.2 h1 with h4 | h4 | h4
        · exact absurd h4 h2
        · exact absurd h4 h3
        · exact .inr h4
  · rw [(hp.map _).sum_eq]
    simp only [List.map_cons, List.sum_cons]
    omega
  · intro k l r w he
    by_cases hk : k < pre.length
    · rw [List.getElem?_append_left hk] at he
      exact h.low k l r w he
    · have hk2 := (List.getElem?_eq_some_iff.1 he).1
      simp only [List.length_append, List.length_singleton] at hk2
      have : k = pre.length := by omega
      subst this
      simp [hnew] at he
      obtain ⟨rfl, rfl, -⟩ := he
      rw [ha, hb]; exact ⟨hia, hib⟩

/-- It holds after Init, with the sum of all counts as the total (R106). -/
theorem queueOk_init (counts : List Word) :
    QueueOk (leafEntries (presentSymbols counts)) (initQueue 0 (presentSymbols counts) [])
      ((counts.map BitVec.toNat).sum) := by
  have hp := initQueue_perm 0 (presentSymbols counts) []
  rw [List.append_nil] at hp
  have hnoint : ∀ (k : Nat) (l r : BitVec 9) (w : Word), (leafEntries (presentSymbols counts))[k]? ≠ some (.internal l r w) := by
    intro k l r w h
    simp [leafEntries] at h
  refine ⟨initQueue_sorted List.Pairwise.nil, ?_, ?_, ?_, ?_, fun k l r w h => absurd h (hnoint k l r w)⟩
  · intro t ht
    have ht := hp.mem_iff.1 ht
    suffices ∀ i ps, t ∈ leafItems i ps → t.stamp = t.index ∧ i ≤ t.index ∧ ∃ e, (leafEntries ps)[t.index - i]? = some e ∧ e.weight.toNat = t.weight by
      obtain ⟨a, -, b⟩ := this 0 _ ht
      exact ⟨a, b⟩
    intro i ps h
    induction ps generalizing i with
    | nil => simp [leafItems] at h
    | cons p ps ih =>
      simp only [leafItems, List.mem_cons] at h
      rcases h with rfl | h
      · exact ⟨rfl, Nat.le_refl _, by simp [leafEntries, NodeEntry.weight]⟩
      · obtain ⟨a, b, e, he, hw⟩ := ih _ h
        refine ⟨a, by omega, e, ?_, hw⟩
        rw [show t.index - i = (t.index - (i + 1)) + 1 by omega]
        simpa [leafEntries] using he
  · rw [(hp.map _).nodup_iff, leafItems_map_index]
    exact List.nodup_range'
  · intro j hj
    rw [(hp.map _).mem_iff, leafItems_map_index]
    rw [leafEntries_length] at hj
    constructor
    · rintro - ⟨k, l, r, w, hk, he, hj⟩
      exact hnoint k l r w he
    · intro _
      simpa [List.mem_range'_1] using hj
  · rw [(hp.map _).sum_eq]
    have : (leafItems 0 (presentSymbols counts)).map QueueItem.weight = (presentSymbols counts).map (fun p => p.2.toNat) := by
      generalize presentSymbols counts = ps
      suffices ∀ i, (leafItems i ps).map QueueItem.weight = ps.map (fun p => p.2.toNat) from this 0
      induction ps with
      | nil => intro i; rfl
      | cons p ps ih => intro i; simp [leafItems, ih]
    rw [this]
    unfold presentSymbols
    have hz : ∀ (l : List (Nat × Word)), ((l.filter (fun p => p.2 != 0)).map (fun p => p.2.toNat)).sum = ((l.map Prod.snd).map BitVec.toNat).sum := by
      intro l
      induction l with
      | nil => rfl
      | cons p l ih =>
        rw [List.filter_cons]
        split
        · simp only [List.map_cons, List.sum_cons, ih]
        · next h =>
          have : p.2 = 0 := by simpa using h
          rw [ih]; simp [this]
    rw [hz, List.map_snd_zip (by simp)]

end Sys2Proof.Machine
end

