-- ==== Sys2Proof/Laws/State.lean ====
section
/-!
SUPPORT. The named updates of State, one lemma per field: what each update leaves and what it writes. No later proof
unfolds an update of the state.
-/

namespace Sys2Proof.Machine

variable (s : State) (c : ErrCode) (n w : Word) (o : Byte) (a : BusAnswer)

/-! ### Completion (40_control.md R88) -/

@[simp] theorem State.completeWith_params : (s.completeWith c n o).params = s.params := rfl
@[simp] theorem State.completeWith_eng : (s.completeWith c n o).eng = .idle := rfl
@[simp] theorem State.completeWith_irqEn : (s.completeWith c n o).irqEn = s.irqEn := rfl
@[simp] theorem State.completeWith_done : (s.completeWith c n o).done = true := rfl
@[simp] theorem State.completeWith_overrun : (s.completeWith c n o).overrun = s.overrun := rfl
@[simp] theorem State.completeWith_freqValid : (s.completeWith c n o).freqValid = s.freqValid := rfl
@[simp] theorem State.completeWith_treeValid : (s.completeWith c n o).treeValid = s.treeValid := rfl
@[simp] theorem State.completeWith_codeValid : (s.completeWith c n o).codeValid = s.codeValid := rfl
@[simp] theorem State.completeWith_err : (s.completeWith c n o).err = c := rfl
@[simp] theorem State.completeWith_lastOp : (s.completeWith c n o).lastOp = s.lastOp := rfl
@[simp] theorem State.completeWith_errInfo : (s.completeWith c n o).errInfo = n := rfl
@[simp] theorem State.completeWith_errOp : (s.completeWith c n o).errOp = o := rfl
@[simp] theorem State.completeWith_inLen : (s.completeWith c n o).inLen = s.inLen := rfl
@[simp] theorem State.completeWith_outLen : (s.completeWith c n o).outLen = s.outLen := rfl
@[simp] theorem State.completeWith_bbLen : (s.completeWith c n o).bbLen = s.bbLen := rfl
@[simp] theorem State.completeWith_cursor : (s.completeWith c n o).cursor = s.cursor := rfl
@[simp] theorem State.completeWith_root : (s.completeWith c n o).root = s.root := rfl
@[simp] theorem State.completeWith_nodeCnt : (s.completeWith c n o).nodeCnt = s.nodeCnt := rfl
@[simp] theorem State.completeWith_symCnt : (s.completeWith c n o).symCnt = s.symCnt := rfl
@[simp] theorem State.completeWith_pad : (s.completeWith c n o).pad = s.pad := rfl
@[simp] theorem State.completeWith_inBuf : (s.completeWith c n o).inBuf = s.inBuf := rfl
@[simp] theorem State.completeWith_outBuf : (s.completeWith c n o).outBuf = s.outBuf := rfl
@[simp] theorem State.completeWith_bitBuf : (s.completeWith c n o).bitBuf = s.bitBuf := rfl
@[simp] theorem State.completeWith_freq : (s.completeWith c n o).freq = s.freq := rfl
@[simp] theorem State.completeWith_node : (s.completeWith c n o).node = s.node := rfl
@[simp] theorem State.completeWith_code : (s.completeWith c n o).code = s.code := rfl
@[simp] theorem State.completeWith_draws : (s.completeWith c n o).draws = s.draws := rfl
@[simp] theorem State.completeWith_inputs : (s.completeWith c n o).inputs = s.inputs := rfl
@[simp] theorem State.completeWith_schedule : (s.completeWith c n o).schedule = s.schedule := rfl
@[simp] theorem State.completeWith_answers : (s.completeWith c n o).answers = s.answers := rfl

/-! ### Issue (40_control.md R85) -/

@[simp] theorem State.issue_params : (s.issue w).params = s.params := rfl
@[simp] theorem State.issue_eng : (s.issue w).eng = .pending w := rfl
@[simp] theorem State.issue_irqEn : (s.issue w).irqEn = s.irqEn := rfl
@[simp] theorem State.issue_done : (s.issue w).done = false := rfl
@[simp] theorem State.issue_overrun : (s.issue w).overrun = s.overrun := rfl
@[simp] theorem State.issue_freqValid : (s.issue w).freqValid = s.freqValid := rfl
@[simp] theorem State.issue_treeValid : (s.issue w).treeValid = s.treeValid := rfl
@[simp] theorem State.issue_codeValid : (s.issue w).codeValid = s.codeValid := rfl
@[simp] theorem State.issue_err : (s.issue w).err = .ok := rfl
@[simp] theorem State.issue_lastOp : (s.issue w).lastOp = opcodeField w := rfl
@[simp] theorem State.issue_errInfo : (s.issue w).errInfo = s.errInfo := rfl
@[simp] theorem State.issue_errOp : (s.issue w).errOp = s.errOp := rfl
@[simp] theorem State.issue_inLen : (s.issue w).inLen = s.inLen := rfl
@[simp] theorem State.issue_outLen : (s.issue w).outLen = s.outLen := rfl
@[simp] theorem State.issue_bbLen : (s.issue w).bbLen = s.bbLen := rfl
@[simp] theorem State.issue_cursor : (s.issue w).cursor = s.cursor := rfl
@[simp] theorem State.issue_root : (s.issue w).root = s.root := rfl
@[simp] theorem State.issue_nodeCnt : (s.issue w).nodeCnt = s.nodeCnt := rfl
@[simp] theorem State.issue_symCnt : (s.issue w).symCnt = s.symCnt := rfl
@[simp] theorem State.issue_pad : (s.issue w).pad = s.pad := rfl
@[simp] theorem State.issue_inBuf : (s.issue w).inBuf = s.inBuf := rfl
@[simp] theorem State.issue_outBuf : (s.issue w).outBuf = s.outBuf := rfl
@[simp] theorem State.issue_bitBuf : (s.issue w).bitBuf = s.bitBuf := rfl
@[simp] theorem State.issue_freq : (s.issue w).freq = s.freq := rfl
@[simp] theorem State.issue_node : (s.issue w).node = s.node := rfl
@[simp] theorem State.issue_code : (s.issue w).code = s.code := rfl
@[simp] theorem State.issue_draws : (s.issue w).draws = s.draws := rfl
@[simp] theorem State.issue_inputs : (s.issue w).inputs = s.inputs := rfl
@[simp] theorem State.issue_schedule : (s.issue w).schedule = s.schedule := rfl
@[simp] theorem State.issue_answers : (s.issue w).answers = s.answers := rfl

/-! ### The writes of a failing tree command (43_tree_builder.md R108) -/

@[simp] theorem State.clearTree_params : (s.clearTree).params = s.params := rfl
@[simp] theorem State.clearTree_eng : (s.clearTree).eng = s.eng := rfl
@[simp] theorem State.clearTree_irqEn : (s.clearTree).irqEn = s.irqEn := rfl
@[simp] theorem State.clearTree_done : (s.clearTree).done = s.done := rfl
@[simp] theorem State.clearTree_overrun : (s.clearTree).overrun = s.overrun := rfl
@[simp] theorem State.clearTree_freqValid : (s.clearTree).freqValid = s.freqValid := rfl
@[simp] theorem State.clearTree_treeValid : (s.clearTree).treeValid = false := rfl
@[simp] theorem State.clearTree_codeValid : (s.clearTree).codeValid = false := rfl
@[simp] theorem State.clearTree_err : (s.clearTree).err = s.err := rfl
@[simp] theorem State.clearTree_lastOp : (s.clearTree).lastOp = s.lastOp := rfl
@[simp] theorem State.clearTree_errInfo : (s.clearTree).errInfo = s.errInfo := rfl
@[simp] theorem State.clearTree_errOp : (s.clearTree).errOp = s.errOp := rfl
@[simp] theorem State.clearTree_inLen : (s.clearTree).inLen = s.inLen := rfl
@[simp] theorem State.clearTree_outLen : (s.clearTree).outLen = s.outLen := rfl
@[simp] theorem State.clearTree_bbLen : (s.clearTree).bbLen = s.bbLen := rfl
@[simp] theorem State.clearTree_cursor : (s.clearTree).cursor = s.cursor := rfl
@[simp] theorem State.clearTree_root : (s.clearTree).root = 0 := rfl
@[simp] theorem State.clearTree_nodeCnt : (s.clearTree).nodeCnt = 0 := rfl
@[simp] theorem State.clearTree_symCnt : (s.clearTree).symCnt = 0 := rfl
@[simp] theorem State.clearTree_pad : (s.clearTree).pad = s.pad := rfl
@[simp] theorem State.clearTree_inBuf : (s.clearTree).inBuf = s.inBuf := rfl
@[simp] theorem State.clearTree_outBuf : (s.clearTree).outBuf = s.outBuf := rfl
@[simp] theorem State.clearTree_bitBuf : (s.clearTree).bitBuf = s.bitBuf := rfl
@[simp] theorem State.clearTree_freq : (s.clearTree).freq = s.freq := rfl
@[simp] theorem State.clearTree_node : (s.clearTree).node = s.node := rfl
@[simp] theorem State.clearTree_code : (s.clearTree).code = s.code := rfl
@[simp] theorem State.clearTree_draws : (s.clearTree).draws = s.draws := rfl
@[simp] theorem State.clearTree_inputs : (s.clearTree).inputs = s.inputs := rfl
@[simp] theorem State.clearTree_schedule : (s.clearTree).schedule = s.schedule := rfl
@[simp] theorem State.clearTree_answers : (s.clearTree).answers = s.answers := rfl

/-! ### The bus answer (20_memory.md R56) -/

@[simp] theorem State.answer_params : (s.answer a).params = s.params := rfl
@[simp] theorem State.answer_eng : (s.answer a).eng = s.eng := rfl
@[simp] theorem State.answer_irqEn : (s.answer a).irqEn = s.irqEn := rfl
@[simp] theorem State.answer_done : (s.answer a).done = s.done := rfl
@[simp] theorem State.answer_overrun : (s.answer a).overrun = s.overrun := rfl
@[simp] theorem State.answer_freqValid : (s.answer a).freqValid = s.freqValid := rfl
@[simp] theorem State.answer_treeValid : (s.answer a).treeValid = s.treeValid := rfl
@[simp] theorem State.answer_codeValid : (s.answer a).codeValid = s.codeValid := rfl
@[simp] theorem State.answer_err : (s.answer a).err = s.err := rfl
@[simp] theorem State.answer_lastOp : (s.answer a).lastOp = s.lastOp := rfl
@[simp] theorem State.answer_errInfo : (s.answer a).errInfo = s.errInfo := rfl
@[simp] theorem State.answer_errOp : (s.answer a).errOp = s.errOp := rfl
@[simp] theorem State.answer_inLen : (s.answer a).inLen = s.inLen := rfl
@[simp] theorem State.answer_outLen : (s.answer a).outLen = s.outLen := rfl
@[simp] theorem State.answer_bbLen : (s.answer a).bbLen = s.bbLen := rfl
@[simp] theorem State.answer_cursor : (s.answer a).cursor = s.cursor := rfl
@[simp] theorem State.answer_root : (s.answer a).root = s.root := rfl
@[simp] theorem State.answer_nodeCnt : (s.answer a).nodeCnt = s.nodeCnt := rfl
@[simp] theorem State.answer_symCnt : (s.answer a).symCnt = s.symCnt := rfl
@[simp] theorem State.answer_pad : (s.answer a).pad = s.pad := rfl
@[simp] theorem State.answer_inBuf : (s.answer a).inBuf = s.inBuf := rfl
@[simp] theorem State.answer_outBuf : (s.answer a).outBuf = s.outBuf := rfl
@[simp] theorem State.answer_bitBuf : (s.answer a).bitBuf = s.bitBuf := rfl
@[simp] theorem State.answer_freq : (s.answer a).freq = s.freq := rfl
@[simp] theorem State.answer_node : (s.answer a).node = s.node := rfl
@[simp] theorem State.answer_code : (s.answer a).code = s.code := rfl
@[simp] theorem State.answer_draws : (s.answer a).draws = s.draws := rfl
@[simp] theorem State.answer_inputs : (s.answer a).inputs = s.inputs := rfl
@[simp] theorem State.answer_schedule : (s.answer a).schedule = s.schedule := rfl
@[simp] theorem State.answer_answers : (s.answer a).answers = a :: s.answers := rfl

/-! ### How a command ends -/

@[simp] theorem complete_success (s : State) : complete (.success s) = s.completeWith .ok 0 0 := rfl
@[simp] theorem complete_failed (e : Failure) (s : State) :
    complete (.failed e s) = s.completeWith e.code e.info e.op := rfl
@[simp] theorem complete_raise (i : Instr) (c : ErrCode) (n : Nat) (s : State) :
    complete (raise i c n s) = s.completeWith c (BitVec.ofNat 32 n) i.opcode := rfl

@[simp] theorem State.completeWith_completeWith (s : State) (c c' : ErrCode) (n n' : Word) (o o' : Byte) :
    (s.completeWith c n o).completeWith c' n' o' = s.completeWith c' n' o' := rfl

theorem State.completedOk_completeWith (s : State) : (s.completeWith .ok 0 0).CompletedOk :=
  ⟨rfl, rfl, rfl, rfl, rfl⟩

theorem State.completedErr_completeWith (s : State) (i : Instr) (c : ErrCode) (n : Nat) :
    (s.completeWith c (BitVec.ofNat 32 n) i.opcode).CompletedErr i c n := ⟨rfl, rfl, rfl, rfl, rfl⟩

/-- A success makes the completion writes of a success. -/
theorem completedOk_success (s : State) : (complete (.success s)).CompletedOk := ⟨rfl, rfl, rfl, rfl, rfl⟩

/-- A failure makes the completion writes of its error. -/
theorem completedErr_raise (i : Instr) (c : ErrCode) (n : Nat) (s : State) :
    (complete (raise i c n s)).CompletedErr i c n := ⟨rfl, rfl, rfl, rfl, rfl⟩

/-- A frame does not see which completion was written. -/
theorem State.uncomplete_completeWith (s t : State) (c : ErrCode) (n : Word) (o : Byte) :
    (t.completeWith c n o).uncomplete s = t.uncomplete s := rfl

end Sys2Proof.Machine
end

