-- ==== Sys2Proof/Laws/Bus.lean ====
section
/-!
SUPPORT. What a host access does, said once: the target of every register offset, what an unadmitted access answers,
and reads and writes of registers while Idle and while Pending.
-/

namespace Sys2Proof.Machine

@[simp] theorem State.busy_of_idle {s : State} (h : s.eng = .idle) : s.busy = false := by
  simp [State.busy, h]

@[simp] theorem State.busy_of_pending {s : State} {w : Word} (h : s.eng = .pending w) : s.busy = true := by
  simp [State.busy, h]

/-- Every register offset of R25 names its register. -/
@[simp] theorem admitted_reg (p : Config.Params) (r : Reg) :
    admitted p r.offset .word 0xF = some (.reg r) := by
  cases r <;> rfl

/-- An access of any other width, strobe or alignment, or to an unmapped offset, has no target (R57, R58). -/
theorem admitted_eq_none {p : Config.Params} {offset : Nat} {size : AccessSize} {strobe : BitVec 4}
    (h : size ≠ .word ∨ strobe ≠ 0xF ∨ offset % 4 ≠ 0 ∨ target p offset = none) :
    admitted p offset size strobe = none := by
  unfold admitted
  split
  · next hc => obtain ⟨h1, h2, h3⟩ := hc; simpa [h1, h2, h3] using h
  · rfl

theorem ite_eq_cases {α : Type} {c : Prop} [Decidable c] {x e t : α} (h : (if c then x else e) = t) :
    (c ∧ x = t) ∨ (¬ c ∧ e = t) := by
  by_cases hc : c
  · exact .inl ⟨hc, (if_pos hc).symm.trans h⟩
  · exact .inr ⟨hc, (if_neg hc).symm.trans h⟩

/-- What stands at an offset (R25, R55, R62): a register at its own offset, a window word inside its window. -/
theorem target_inv {p : Config.Params} {offset : Nat} {t : Target} (h : target p offset = some t) :
    match t with
    | .reg r => offset = r.offset
    | .freqWord sym => sym < 256 ∧ sym = (offset - 0x001000) / 4 ∧ 0x001000 ≤ offset
    | .nodeWord i w => i < 511 ∧ w < 4 ∧ (offset - 0x002000) / 4 = 4 * i + w ∧ 0x002000 ≤ offset
    | .codeWord sym w => sym < 256 ∧ w < 16 ∧ (offset - 0x004000) / 4 = 16 * sym + w ∧ 0x004000 ≤ offset
    | .inWord k => k = (offset - 0x400000) / 4 ∧ 0x400000 ≤ offset ∧ offset < 0x400000 + p.inCap
    | .outWord k => k = (offset - 0x800000) / 4 ∧ 0x800000 ≤ offset ∧ offset < 0x800000 + p.outCap
    | .bbWord k => k = (offset - 0xC00000) / 4 ∧ 0xC00000 ≤ offset ∧ offset < 0xC00000 + p.bbCap / 8 := by
  obtain ⟨-, h⟩ | ⟨_, h⟩ := ite_eq_cases h
  · obtain ⟨r, hr, rfl⟩ := Option.map_eq_some_iff.1 h
    exact (beq_iff_eq.1 (List.find?_some hr :)).symm
  · iterate 11
      obtain ⟨_, h⟩ | ⟨_, h⟩ := ite_eq_cases h
      · cases h <;> (dsimp only; omega)
    cases h

/-- An admitted access is a whole word at a multiple of 4, and its target is that of its offset (R57). -/
theorem admitted_inv {p : Config.Params} {offset : Nat} {size : AccessSize} {strobe : BitVec 4} {t : Target}
    (h : admitted p offset size strobe = some t) :
    size = .word ∧ strobe = 0xF ∧ offset % 4 = 0 ∧ target p offset = some t := by
  unfold admitted at h
  split at h
  · next ha => exact ⟨ha.1, ha.2.1, ha.2.2, h⟩
  · cases h

/-- A register has one offset and admits only whole words (R25, R57). -/
theorem admitted_reg_inv {p : Config.Params} {offset : Nat} {size : AccessSize} {strobe : BitVec 4} {r : Reg}
    (h : admitted p offset size strobe = some (.reg r)) : size = .word ∧ strobe = 0xF ∧ offset = r.offset :=
  let ⟨hs, hb, _, ht⟩ := admitted_inv h
  ⟨hs, hb, target_inv ht⟩

/-- A whole-word access at a multiple of 4 has the target of its offset (R57). -/
theorem admitted_eq_target {p : Config.Params} {offset : Nat} (h : offset % 4 = 0) :
    admitted p offset .word 0xF = target p offset := by
  simp [admitted, h]

/-- The word offsets of the windows (R62, R78, R79). -/
theorem target_freqWord (p : Config.Params) {sym : Nat} (h : sym < 256) :
    target p (0x001000 + 4 * sym) = some (.freqWord sym) := by
  simp (disch := omega) only [target, if_pos, if_neg]
  congr 2; omega

theorem target_nodeWord (p : Config.Params) {i w : Nat} (hi : i ≤ 510) (hw : w < 4) :
    target p (0x002000 + 16 * i + 4 * w) = some (.nodeWord i w) := by
  simp (disch := omega) only [target, if_pos, if_neg]
  congr 2 <;> omega

theorem target_codeWord (p : Config.Params) {sym w : Nat} (hs : sym < 256) (hw : w < 16) :
    target p (0x004000 + 64 * sym + 4 * w) = some (.codeWord sym w) := by
  simp (disch := omega) only [target, if_pos, if_neg]
  congr 2 <;> omega

section Windows

variable {p : Config.Params} (hp : paramsWellFormed p = true)

include hp

theorem paramsWellFormed_bounds : p.inCap % 4 = 0 ∧ p.inCap ≤ 4194304 ∧ p.outCap % 4 = 0 ∧ p.outCap ≤ 4194304 ∧
    p.bbCap % 32 = 0 ∧ p.bbCap ≤ 33554432 := by
  simp [paramsWellFormed, byteCapOk, bitCapOk] at hp
  omega

theorem target_inWord {k : Nat} (hk : 4 * k < p.inCap) : target p (0x400000 + 4 * k) = some (.inWord k) := by
  have := paramsWellFormed_bounds hp
  simp (disch := omega) only [target, if_pos, if_neg]
  congr 2; omega

theorem target_outWord {k : Nat} (hk : 4 * k < p.outCap) : target p (0x800000 + 4 * k) = some (.outWord k) := by
  have := paramsWellFormed_bounds hp
  simp (disch := omega) only [target, if_pos, if_neg]
  congr 2; omega

theorem target_bbWord {k : Nat} (hk : 32 * k < p.bbCap) : target p (0xC00000 + 4 * k) = some (.bbWord k) := by
  have := paramsWellFormed_bounds hp
  simp (disch := omega) only [target, if_pos, if_neg]
  congr 2; omega

end Windows

/-- Word k of the IN window: its four bytes lie in IN_BUF (R55, R64). -/
theorem admitted_inWord {p : Config.Params} {offset k : Nat} {size : AccessSize} {strobe : BitVec 4}
    (h : admitted p offset size strobe = some (.inWord k)) (hc : p.inCap % 4 = 0) :
    offset = 0x400000 + 4 * k ∧ 4 * k + 4 ≤ p.inCap := by
  obtain ⟨-, -, h4, ht⟩ := admitted_inv h
  have := target_inv ht
  omega

/-- Word k of the BB window: its 32 bits lie in BITBUF (R55, R65). -/
theorem admitted_bbWord {p : Config.Params} {offset k : Nat} {size : AccessSize} {strobe : BitVec 4}
    (h : admitted p offset size strobe = some (.bbWord k)) (hc : p.bbCap % 32 = 0) :
    offset = 0xC00000 + 4 * k ∧ 32 * k + 32 ≤ p.bbCap := by
  obtain ⟨-, -, h4, ht⟩ := admitted_inv h
  have := target_inv ht
  omega

theorem busRead_unadmitted {s : State} {offset : Nat} {size : AccessSize}
    (h : admitted s.params offset size 0xF = none) :
    busRead s offset size = s.answer (.readData 0 .slverr) := by
  unfold busRead; rw [h]

theorem busRead_admitted {s : State} {offset : Nat} {size : AccessSize} {t : Target}
    (h : admitted s.params offset size 0xF = some t) :
    busRead s offset size =
      { s with draws := (readMapped s t).2 }.answer (.readData (readMapped s t).1 .okay) := by
  unfold busRead; rw [h]

/-- An admitted whole-word read is answered OKAY with what its target reads (R56). -/
theorem readsOkay_of_admitted {s : State} {offset : Nat} {t : Target} {w : Word} {d : Nat}
    (h : admitted s.params offset .word 0xF = some t) (hr : readMapped s t = (w, d)) : s.ReadsOkay offset w d := by
  unfold State.ReadsOkay
  rw [busRead_admitted h, hr]

theorem busWrite_unadmitted {s : State} {offset : Nat} {size : AccessSize} {strobe : BitVec 4} {v : Word}
    (h : admitted s.params offset size strobe = none) :
    busWrite s offset size strobe v = s.answer (.writeDone .slverr) := by
  unfold busWrite; rw [h]

theorem busWrite_admitted {s : State} {offset : Nat} {size : AccessSize} {strobe : BitVec 4} {v : Word} {t : Target}
    (h : admitted s.params offset size strobe = some t) :
    busWrite s offset size strobe v = (writeMapped s v t).answer (.writeDone .okay) := by
  unfold busWrite; rw [h]

theorem readMapped_idle {s : State} (h : s.eng = .idle) (t : Target) : readMapped s t = readTarget s t := by
  simp [readMapped, h]

theorem readMapped_pending {s : State} {w : Word} (h : s.eng = .pending w) (t : Target) :
    readMapped s t = readPending s t := by
  simp [readMapped, h]

theorem writeMapped_idle {s : State} (h : s.eng = .idle) (v : Word) (t : Target) :
    writeMapped s v t = writeTarget s v t := by
  simp [writeMapped, h]

/-- An admitted write while Idle. -/
theorem busWrite_idle {s : State} {offset : Nat} {size : AccessSize} {strobe : BitVec 4} {v : Word} {t : Target}
    (he : s.eng = .idle) (h : admitted s.params offset size strobe = some t) :
    busWrite s offset size strobe v = (writeTarget s v t).answer (.writeDone .okay) := by
  rw [busWrite_admitted h, writeMapped_idle he]

/-- An admitted whole-word read while Idle is answered OKAY with what its target reads. -/
theorem readsOkay_idle {s : State} {offset : Nat} {t : Target} (he : s.eng = .idle)
    (h : admitted s.params offset .word 0xF = some t) : s.ReadsOkay offset (readTarget s t).1 (readTarget s t).2 :=
  readsOkay_of_admitted h (readMapped_idle he t)

theorem writeMapped_pending {s : State} {w : Word} (h : s.eng = .pending w) (v : Word) (t : Target) :
    writeMapped s v t = writePending s v t := by
  simp [writeMapped, h]

/-- STATUS writes act alike, a command pending or not (R31, R68). -/
@[simp] theorem writeMapped_status (s : State) (v : Word) : writeMapped s v (.reg .status) = s.writeStatus v := by
  unfold writeMapped; split <;> rfl

/-- CTRL writes act alike, a command pending or not (R29, R68). -/
@[simp] theorem writeMapped_ctrl (s : State) (v : Word) : writeMapped s v (.reg .ctrl) = s.writeCtrl v := by
  unfold writeMapped; split <;> rfl

theorem busWrite_status (s : State) (v : Word) :
    busWrite s 0x028 .word 0xF v = (s.writeStatus v).answer (.writeDone .okay) := by
  rw [show 0x028 = Reg.status.offset from rfl, busWrite_admitted (admitted_reg s.params .status), writeMapped_status]

theorem busWrite_ctrl (s : State) (v : Word) :
    busWrite s 0x020 .word 0xF v = (s.writeCtrl v).answer (.writeDone .okay) := by
  rw [show 0x020 = Reg.ctrl.offset from rfl, busWrite_admitted (admitted_reg s.params .ctrl), writeMapped_ctrl]

theorem busWrite_cmd {s : State} (h : s.eng = .idle) (w : Word) :
    busWrite s 0x024 .word 0xF w = (s.issue w).answer (.writeDone .okay) := by
  rw [show 0x024 = Reg.cmd.offset from rfl, busWrite_admitted (admitted_reg s.params .cmd), writeMapped_idle h]; rfl

/-- The window words of bytes and bits are the words of range readings (R62). -/
theorem readTarget_inWord (s : State) (k : Nat) : readTarget s (.inWord k) =
    (wordOfBytes (s.inBuf.readRange freshByte (4 * k) 4 s.draws).1, s.draws + s.inBuf.unspecified (4 * k) 4) := by
  rw [← Memory.readRange_draws freshByte]; rfl

theorem readTarget_outWord (s : State) (k : Nat) : readTarget s (.outWord k) =
    (wordOfBytes (s.outBuf.readRange freshByte (4 * k) 4 s.draws).1, s.draws + s.outBuf.unspecified (4 * k) 4) := by
  rw [← Memory.readRange_draws freshByte]; rfl

theorem readTarget_bbWord (s : State) (k : Nat) : readTarget s (.bbWord k) =
    (wordOfBits (s.bitBuf.readRange freshBit (32 * k) 32 s.draws).1, s.draws + s.bitBuf.unspecified (32 * k) 32) := by
  rw [← Memory.readRange_draws freshBit]; rfl

/-- Byte j of a word read from a memory: the specified byte, or the draw of its own number (R53, R64). -/
theorem wordOfBytes_readRange (m : Memory Byte) (k d : Nat) {j : Nat} (hj : j < 4) :
    (wordOfBytes (m.readRange freshByte k 4 d).1).extractLsb' (24 - 8 * j) 8 =
      (m.get? (k + j)).getD (freshByte (d + m.unspecified k j)) := by
  refine wordOfBytes_lane hj ?_
  cases h : m.get? (k + j) with
  | some b => exact Memory.readRange_reads freshByte m k 4 d j b (by simpa using hj) h
  | none => exact Memory.readRange_fresh freshByte m k 4 d j hj h

/-- Bit j of a word read from a memory: the specified bit, or the draw of its own number (R53, R65). -/
theorem wordOfBits_readRange (m : Memory Bool) (k d : Nat) {j : Nat} (hj : j < 32) :
    (wordOfBits (m.readRange freshBit k 32 d).1).getLsbD (31 - j) =
      (m.get? (k + j)).getD (freshBit (d + m.unspecified k j)) := by
  rw [wordOfBits_getLsbD _ _ hj, List.getD_eq_getElem?_getD]
  cases h : m.get? (k + j) with
  | some b => rw [Memory.readRange_reads freshBit m k 32 d j b (by simpa using hj) h]; rfl
  | none => rw [Memory.readRange_fresh freshBit m k 32 d j hj h]; rfl

/-- A word written to the IN window reads back (R64). -/
theorem readTarget_inWord_written (s : State) (v : Word) (k : Nat) :
    readTarget { s with inBuf := s.inBuf.setList (4 * k) (bytes4 v) } (.inWord k) = (v, s.draws) := by
  simp only [readTarget]
  rw [Memory.readRange_setList freshByte s.inBuf (4 * k) s.draws 4 (bytes4 v) rfl, wordOfBytes_bytes4]

/-- A word written to the BB window reads back (R65). -/
theorem readTarget_bbWord_written (s : State) (v : Word) (k : Nat) :
    readTarget { s with bitBuf := s.bitBuf.setList (32 * k) (bits32 v) } (.bbWord k) = (v, s.draws) := by
  simp only [readTarget]
  rw [Memory.readRange_setList freshBit s.bitBuf (32 * k) s.draws 32 (bits32 v) (bits32_length v), wordOfBits_bits32]

/-- What a host access does to the state: every read leaves all but the answers and the draw counter. -/
theorem busRead_frame (s : State) (offset : Nat) (size : AccessSize) :
    ∃ a d, busRead s offset size = { s with draws := d }.answer a := by
  cases h : admitted s.params offset size 0xF with
  | none => exact ⟨_, s.draws, busRead_unadmitted h⟩
  | some t => exact ⟨_, _, busRead_admitted h⟩

@[simp] theorem readReg_answer (s : State) (a : BusAnswer) (r : Reg) : readReg (s.answer a) r = readReg s r := by
  cases r <;> simp only [readReg, statusWord, statusWith, validBits, State.error, State.busy, ctrlWord, State.answer]

@[simp] theorem readTarget_answer (s : State) (a : BusAnswer) (t : Target) :
    readTarget (s.answer a) t = readTarget s t := by
  cases t <;>
    simp only [readTarget, readReg_answer, State.answer_draws, State.answer_freq, State.answer_nodeCnt,
      State.answer_node, State.answer_code, State.answer_inBuf, State.answer_outBuf, State.answer_bitBuf]
  rfl

@[simp] theorem readPending_answer (s : State) (a : BusAnswer) (t : Target) :
    readPending (s.answer a) t = readPending s t := by
  cases t with
  | reg r =>
    cases r <;> simp only [readPending, readReg_answer, State.answer_draws]
    rfl
  | _ => rfl

/-- A read does not depend on the answers given before. -/
@[simp] theorem readMapped_answer (s : State) (a : BusAnswer) (t : Target) :
    readMapped (s.answer a) t = readMapped s t := by
  unfold readMapped
  rw [readTarget_answer, readPending_answer]
  rfl

/-- What a write access can do to the state before its answer, at the target `tg`. -/
inductive WriteEffect (s : State) (v : Word) (tg : Option Target) : State → Prop where
  | unchanged : WriteEffect s v tg s
  | softReset : tg = some (.reg .ctrl) → v.getLsbD 1 = true → WriteEffect s v tg s.softReset
  | irqEn : WriteEffect s v tg { s with irqEn := v.getLsbD 0 }
  | status : WriteEffect s v tg (s.writeStatus v)
  | overrun : WriteEffect s v tg { s with overrun := true }
  | issue : s.eng = .idle → WriteEffect s v tg (s.issue v)
  | inLen : WriteEffect s v tg { s with inLen := v }
  | bbLen : WriteEffect s v tg { s with bbLen := v }
  | inWord (k : Nat) : tg = some (.inWord k) →
      WriteEffect s v tg { s with inBuf := s.inBuf.setList (4 * k) (bytes4 v) }
  | bbWord (k : Nat) : tg = some (.bbWord k) →
      WriteEffect s v tg { s with bitBuf := s.bitBuf.setList (32 * k) (bits32 v) }

/-- A write access changes a valid flag only by the soft reset (R42). -/
theorem WriteEffect.valid_flags {s t : State} {v : Word} {tg : Option Target} (h : WriteEffect s v tg t) :
    (tg = some (.reg .ctrl) ∧ v.getLsbD 1 = true ∧ t = s.softReset) ∨
      (t.freqValid = s.freqValid ∧ t.treeValid = s.treeValid ∧ t.codeValid = s.codeValid) := by
  cases h with
  | softReset htg hv => exact .inl ⟨htg, hv, rfl⟩
  | _ => exact .inr ⟨rfl, rfl, rfl⟩

theorem writeCtrl_effect (s : State) (v : Word) : WriteEffect s v (some (.reg .ctrl)) (s.writeCtrl v) := by
  unfold State.writeCtrl; split
  · next h => exact .softReset rfl h
  · exact .irqEn

/-- Every write access has one of the effects. -/
theorem busWrite_effect (s : State) (offset : Nat) (size : AccessSize) (strobe : BitVec 4) (v : Word) :
    ∃ a t, busWrite s offset size strobe v = State.answer t a ∧
      WriteEffect s v (admitted s.params offset size strobe) t := by
  cases h : admitted s.params offset size strobe with
  | none => exact ⟨_, s, busWrite_unadmitted h, .unchanged⟩
  | some t =>
    refine ⟨_, _, busWrite_admitted h, ?_⟩
    cases he : s.eng with
    | pending w =>
      rw [writeMapped_pending he]
      cases t with
      | reg r => cases r <;> first | exact writeCtrl_effect s v | exact .status | exact .overrun
      | _ => exact .overrun
    | idle =>
      rw [writeMapped_idle he]
      cases t with
      | reg r =>
        cases r <;>
          first
            | exact writeCtrl_effect s v | exact .issue he | exact .status | exact .inLen | exact .bbLen
            | exact .unchanged
      | inWord k => exact .inWord k rfl
      | bbWord k => exact .bbWord k rfl
      | _ => exact .unchanged

end Sys2Proof.Machine
end

