-- ==== Sys2Proof/Laws/Codes.lean ====
section
/-!
SUPPORT. The code table CODE_EXTRACT derives (44_code_table.md R110 to R113): every entry is specified, the last
assignment in walk order stands, and a symbol without an assignment is absent.
-/

namespace Sys2Proof.Machine

theorem codeTable_concat (ws : List (Byte × List Bool)) (w : Byte × List Bool) :
    codeTable (ws ++ [w]) = (codeTable ws).set w.1.toNat { present := true, path := w.2 } := by
  simp [codeTable]

@[simp] theorem codeTable_wf (ws : List (Byte × List Bool)) : (codeTable ws).wf = true := by
  induction ws using List.reverseRecOn with
  | nil => exact Memory.wf_ofList _
  | append_singleton ws w ih => rw [codeTable_concat]; exact Memory.wf_set ih

@[simp] theorem codeTable_below (ws : List (Byte × List Bool)) : (codeTable ws).below Config.alphabet = true := by
  induction ws using List.reverseRecOn with
  | nil => exact Memory.below_ofList (by simp)
  | append_singleton ws w ih => rw [codeTable_concat]; exact Memory.below_set ih (by have := w.1.isLt; omega)

/-- A symbol without an assignment is absent (R113). -/
theorem codeTable_absent {ws : List (Byte × List Bool)} {k : Nat} (hk : k < 256)
    (h : ∀ w ∈ ws, w.1.toNat ≠ k) : (codeTable ws).get? k = some absentCode := by
  induction ws using List.reverseRecOn with
  | nil => simp [codeTable, hk]
  | append_singleton ws w ih =>
    rw [codeTable_concat, Memory.get?_set, if_neg (fun hw => h w (by simp) hw.symm)]
    exact ih (fun v hv => h v (by simp [hv]))

/-- The last assignment of a symbol stands (R111). -/
theorem codeTable_last {us vs : List (Byte × List Bool)} {w : Byte × List Bool} (h : ∀ v ∈ vs, v.1 ≠ w.1) :
    (codeTable (us ++ w :: vs)).get? w.1.toNat = some { present := true, path := w.2 } := by
  induction vs using List.reverseRecOn with
  | nil => rw [codeTable_concat, Memory.get?_set, if_pos rfl]
  | append_singleton vs v ih =>
    rw [← List.cons_append, ← List.append_assoc, codeTable_concat, Memory.get?_set,
      if_neg (fun hv => h v (by simp) (BitVec.eq_of_toNat_eq hv.symm))]
    exact ih (fun u hu => h u (by simp [hu]))

/-- Every entry of the alphabet is specified: absent, or the last assignment of its symbol. -/
theorem codeTable_get? (ws : List (Byte × List Bool)) {k : Nat} (hk : k < 256) :
    ((codeTable ws).get? k = some absentCode ∧ ∀ w ∈ ws, w.1.toNat ≠ k) ∨
      ∃ us w vs, ws = us ++ w :: vs ∧ w.1.toNat = k ∧ (∀ v ∈ vs, v.1 ≠ w.1) ∧
        (codeTable ws).get? k = some { present := true, path := w.2 } := by
  induction ws using List.reverseRecOn with
  | nil => exact .inl ⟨codeTable_absent hk (by simp), by simp⟩
  | append_singleton ws w ih =>
    by_cases hw : w.1.toNat = k
    · exact .inr ⟨ws, w, [], rfl, hw, by simp, by rw [codeTable_concat, Memory.get?_set, if_pos hw.symm]⟩
    · have hne : (codeTable (ws ++ [w])).get? k = (codeTable ws).get? k := by
        rw [codeTable_concat, Memory.get?_set, if_neg (fun h => hw h.symm)]
      rcases ih with ⟨h1, h2⟩ | ⟨us, x, vs, h1, h2, h3, h4⟩
      · refine .inl ⟨hne.trans h1, ?_⟩
        intro v hv
        rcases List.mem_append.1 hv with hv | hv
        · exact h2 v hv
        · rw [List.mem_singleton.1 hv]; exact hw
      · refine .inr ⟨us, x, vs ++ [w], by simp [h1], h2, ?_, hne.trans h4⟩
        intro v hv
        rcases List.mem_append.1 hv with hv | hv
        · exact h3 v hv
        · rw [List.mem_singleton.1 hv]
          exact fun he => hw (by rw [he, h2])

@[simp] theorem codeTable_covers (ws : List (Byte × List Bool)) : (codeTable ws).covers Config.alphabet = true := by
  rw [Memory.covers_iff]
  intro k hk
  rcases codeTable_get? ws hk with ⟨h, _⟩ | ⟨_, _, _, _, _, _, h⟩ <;> simp [h]

/-- The assignments of an arena that is a tree are its codes in pre-order (R110, R112). -/
theorem codeWrites_eq {arena : List NodeEntry} {root : Nat} {T : Shape} (h : IsTree arena root T)
    (hs : T.size ≤ arena.length) :
    codeWrites arena root = match T with
      | .leaf sym => [(sym, [true])]
      | .fork _ _ => T.paths [] := by
  cases h with
  | leaf he => simp [codeWrites, nodeAt_of_getElem? he]
  | fork he hl hr =>
    simp only [codeWrites, nodeAt_of_getElem? he]
    rw [walk_eq, (IsTree.fork he hl hr).shapeAt hs]

/-- An assignment is a code of the shape and a code of the shape is an assignment. -/
theorem mem_codeWrites {arena : List NodeEntry} {root : Nat} {T : Shape} (h : IsTree arena root T)
    (hs : T.size ≤ arena.length) {sym : Byte} {p : List Bool} :
    (sym, p) ∈ codeWrites arena root ↔ T.decodes p = some sym := by
  rw [codeWrites_eq h hs]
  cases T with
  | leaf x =>
    simp only [List.mem_singleton, Prod.mk.injEq, Shape.decodes]
    constructor
    · rintro ⟨rfl, rfl⟩; simp
    · intro hp
      split at hp
      · next h1 => simp only [Option.some.injEq] at hp; exact ⟨hp.symm, h1⟩
      · cases hp
  | fork l r =>
    rw [Shape.mem_paths]
    constructor
    · rintro ⟨u, rfl, hu⟩; simpa [Shape.decodes] using hu
    · intro hp; exact ⟨p, by simp, hp⟩

/-- Leaves stand in pre-order: a leaf listed earlier has a path that goes Left where the two part. -/
theorem Shape.paths_ordered (T : Shape) (p : List Bool) :
    (T.paths p).Pairwise (fun a b => PathBefore a.2 b.2) := by
  induction T generalizing p with
  | leaf x => simp [Shape.paths]
  | fork l r hl hr =>
    simp only [Shape.paths]
    refine List.pairwise_append.2 ⟨hl _, hr _, ?_⟩
    rintro ⟨x, q⟩ hq ⟨y, q'⟩ hq'
    obtain ⟨u, rfl, _⟩ := Shape.mem_paths.1 hq
    obtain ⟨v, rfl, _⟩ := Shape.mem_paths.1 hq'
    exact ⟨p, u, v, by simp, by simp⟩

end Sys2Proof.Machine
end

