-- ==== Sys2Proof/Laws/Walks.lean ====
section
/-!
SUPPORT. The loops of ENCODE_DATA and DECODE_DATA (46_encoder_decoder.md R120 to R123): when they succeed, what they
give, and where they fail.
-/

namespace Sys2Proof.Machine

/-! ### The loop of ENCODE_DATA -/

/-- While every entry is present and the bits fit, the loop appends the paths and goes on. -/
theorem encodeLoop_append {cap n k : Nat} {es fs : List CodeEntry} (hp : ∀ e ∈ es, e.present = true)
    (hc : n + (es.flatMap CodeEntry.path).length ≤ cap) :
    encodeLoop cap n k (es ++ fs) =
      (encodeLoop cap (n + (es.flatMap CodeEntry.path).length) (k + es.length) fs).map
        (es.flatMap CodeEntry.path ++ ·) := by
  induction es generalizing n k with
  | nil => cases h : encodeLoop cap n k fs <;> simp [Except.map, h]
  | cons e es ih =>
    simp only [List.flatMap_cons, List.length_append] at hc
    simp only [List.cons_append, encodeLoop]
    rw [if_neg (by simp [hp e (by simp)]), if_neg (by omega),
      ih (fun e he => hp e (List.mem_cons_of_mem _ he)) (by omega)]
    simp only [List.flatMap_cons, List.length_append, List.length_cons]
    rw [show n + e.path.length + (es.flatMap CodeEntry.path).length =
      n + (e.path.length + (es.flatMap CodeEntry.path).length) by omega,
      show k + 1 + es.length = k + (es.length + 1) by omega]
    cases encodeLoop cap (n + (e.path.length + (es.flatMap CodeEntry.path).length)) (k + (es.length + 1)) fs <;>
      simp [Except.map]

theorem encodeLoop_all {cap n k : Nat} {es : List CodeEntry} (hp : ∀ e ∈ es, e.present = true)
    (hc : n + (es.flatMap CodeEntry.path).length ≤ cap) :
    encodeLoop cap n k es = .ok (es.flatMap CodeEntry.path) := by
  have := encodeLoop_append (cap := cap) (n := n) (k := k) (es := es) (fs := []) hp hc
  simpa [encodeLoop, Except.map] using this

/-- What a success of the loop says. -/
theorem encodeLoop_ok {cap n k : Nat} {es : List CodeEntry} {bits : List Bool}
    (h : encodeLoop cap n k es = .ok bits) :
    (∀ e ∈ es, e.present = true) ∧ bits = es.flatMap CodeEntry.path ∧ (n ≤ cap → n + bits.length ≤ cap) := by
  induction es generalizing n k bits with
  | nil =>
    simp only [encodeLoop, Except.ok.injEq] at h
    subst h
    simp
  | cons e es ih =>
    simp only [encodeLoop] at h
    split at h
    · cases h
    · next hp =>
      split at h
      · cases h
      · next hc =>
        split at h
        · cases h
        · next b hb =>
          simp only [Except.ok.injEq] at h
          subst h
          obtain ⟨h1, h2, h3⟩ := ih hb
          refine ⟨?_, by simp [h2], ?_⟩
          · intro d hd
            rcases List.mem_cons.1 hd with rfl | hd
            · simpa using hp
            · exact h1 d hd
          · intro _
            have := h3 (by omega)
            simp only [List.length_append]
            omega

/-- The loop fails with UNCODED_SYMBOL or CAPACITY alone. -/
theorem encodeLoop_error_code {cap n k j : Nat} {es : List CodeEntry} {c : ErrCode}
    (h : encodeLoop cap n k es = .error (c, j)) : c = .uncodedSymbol ∨ c = .capacity := by
  induction es generalizing n k with
  | nil => cases h
  | cons e es ih =>
    simp only [encodeLoop] at h
    split at h
    · injection h with h; injection h with h _; exact .inl h.symm
    · split at h
      · injection h with h; injection h with h _; exact .inr h.symm
      · split at h
        · next x hx =>
          injection h with h
          subst h
          exact ih hx
        · cases h

/-! ### The walk on a lone leaf -/

theorem decodeLone_ok {cap m i : Nat} {sym : Byte} {bits : List Bool} {out : List Byte}
    (h : decodeLone cap sym m i bits = .ok out) :
    out = List.replicate bits.length sym ∧ (m ≤ cap → m + out.length ≤ cap) := by
  induction bits generalizing m i out with
  | nil => simp only [decodeLone, Except.ok.injEq] at h; subst h; simp
  | cons b bs ih =>
    simp only [decodeLone] at h
    split at h
    · cases h
    · split at h
      · cases h
      · split at h
        · cases h
        · next o ho =>
          simp only [Except.ok.injEq] at h
          subst h
          obtain ⟨h1, h2⟩ := ih ho
          refine ⟨by simp [h1, List.replicate_succ], ?_⟩
          intro hm
          have := h2 (by omega)
          simp only [List.length_cons]
          omega

theorem decodeLone_error_code {cap m i j : Nat} {sym : Byte} {bits : List Bool} {c : ErrCode}
    (h : decodeLone cap sym m i bits = .error (c, j)) : c = .malformedPayload ∨ c = .capacity := by
  induction bits generalizing m i with
  | nil => cases h
  | cons b bs ih =>
    simp only [decodeLone] at h
    split at h
    · injection h with h; injection h with h _; exact .inl h.symm
    · split at h
      · injection h with h; injection h with h _; exact .inr h.symm
      · split at h
        · next x hx => injection h with h; subst h; exact ih hx
        · cases h

/-- 1 bits that fit emit the symbol each. -/
theorem decodeLone_ones {cap m i n : Nat} {sym : Byte} {rest : List Bool} (h : m + n ≤ cap) :
    decodeLone cap sym m i (List.replicate n true ++ rest) =
      (decodeLone cap sym (m + n) (i + n) rest).map (List.replicate n sym ++ ·) := by
  induction n generalizing m i with
  | zero => cases h : decodeLone cap sym m i rest <;> simp [Except.map, h]
  | succ n ih =>
    simp only [List.replicate_succ, List.cons_append, decodeLone]
    rw [if_neg (by simp), if_neg (by omega), ih (by omega), show m + 1 + n = m + (n + 1) by omega,
      show i + 1 + n = i + (n + 1) by omega]
    cases decodeLone cap sym (m + (n + 1)) (i + (n + 1)) rest <;> simp [Except.map]

/-! ### The walk from an Internal root -/

variable {arena : List NodeEntry} {root cap : Nat}

theorem decodeWalk_ok {p m start i : Nat} {bits : List Bool} {out : List Byte}
    (h : decodeWalk arena root cap p m start i bits = .ok out) :
    out.length ≤ bits.length ∧ (m ≤ cap → m + out.length ≤ cap) := by
  induction bits generalizing p m start i out with
  | nil =>
    simp only [decodeWalk] at h
    split at h
    · simp only [Except.ok.injEq] at h; subst h; simp
    · cases h
  | cons b bs ih =>
    simp only [decodeWalk] at h
    split at h
    · obtain ⟨h1, h2⟩ := ih h
      exact ⟨by simp only [List.length_cons]; omega, h2⟩
    · split at h
      · cases h
      · split at h
        · cases h
        · next o ho =>
          simp only [Except.ok.injEq] at h
          subst h
          obtain ⟨h1, h2⟩ := ih ho
          refine ⟨by simpa using h1, ?_⟩
          intro hm
          have := h2 (by omega)
          simp only [List.length_cons]
          omega

theorem decodeWalk_error_code {p m start i j : Nat} {bits : List Bool} {c : ErrCode}
    (h : decodeWalk arena root cap p m start i bits = .error (c, j)) : c = .truncatedWalk ∨ c = .capacity := by
  induction bits generalizing p m start i with
  | nil =>
    simp only [decodeWalk] at h
    split at h
    · cases h
    · injection h with h; injection h with h _; exact .inl h.symm
  | cons b bs ih =>
    simp only [decodeWalk] at h
    split at h
    · exact ih h
    · split at h
      · injection h with h; injection h with h _; exact .inr h.symm
      · split at h
        · next x hx => injection h with h; subst h; exact ih hx
        · cases h

/-- Along a path to a leaf, from an Internal entry: the symbol is emitted and the walk goes on from the root, or the
byte does not fit. -/
theorem decodeWalk_code {p m start i : Nat} {L R : Shape} {u rest : List Bool} {sym : Byte}
    (hp : IsTree arena p (.fork L R)) (hu : (Shape.fork L R).symbolAt u = some sym) :
    decodeWalk arena root cap p m start i (u ++ rest) =
      if m = cap then .error (.capacity, i + u.length - 1)
      else (decodeWalk arena root cap root (m + 1) (i + u.length) (i + u.length) rest).map (sym :: ·) := by
  induction u generalizing p start i L R with
  | nil => simp [Shape.symbolAt] at hu
  | cons b u ih =>
    cases hp with
    | @fork _ l r w _ _ he hl hr =>
      obtain ⟨q, S, hq, hS, hSu⟩ : ∃ q S, (if b then l.toNat else r.toNat) = q ∧ IsTree arena q S ∧
          S.symbolAt u = some sym := by
        cases b
        · exact ⟨_, R, rfl, hr, by simpa [Shape.symbolAt] using hu⟩
        · exact ⟨_, L, rfl, hl, by simpa [Shape.symbolAt] using hu⟩
      simp only [List.cons_append, decodeWalk, nodeAt_of_getElem? he, hq]
      cases hS with
      | @leaf _ x w' hx =>
        simp only [nodeAt_of_getElem? hx]
        cases u with
        | nil =>
          simp only [Shape.symbolAt, Option.some.injEq] at hSu
          subst hSu
          simp only [List.nil_append, List.length_cons, List.length_nil, Nat.zero_add]
          split
          · rw [show i + 1 - 1 = i by omega]
          · cases decodeWalk arena root cap root (m + 1) (i + 1) (i + 1) rest <;> simp [Except.map]
        | cons c u => simp [Shape.symbolAt] at hSu
      | @fork _ l' r' w' L' R' he' hl' hr' =>
        simp only [nodeAt_of_getElem? he']
        rw [ih (.fork he' hl' hr') hSu]
        simp only [List.length_cons]
        rw [show i + 1 + u.length = i + (u.length + 1) by omega]

/-- Along a path that stops at an Internal entry, the bits end there. -/
theorem decodeWalk_stop {p q m start i : Nat} {T : Shape} {u : List Bool} (hp : IsTree arena p T)
    (hu : follow arena p u = some q) (hq : ∃ l r w, arena[q]? = some (.internal l r w)) :
    decodeWalk arena root cap p m start i u = if q = root then .ok [] else .error (.truncatedWalk, start) := by
  induction u generalizing p i T with
  | nil => simp only [follow, Option.some.injEq] at hu; subst hu; rfl
  | cons b u ih =>
    cases hp with
    | leaf hx => simp [follow, child, hx] at hu
    | @fork _ l r w L R he hl hr =>
      simp only [follow, child, he] at hu
      simp only [decodeWalk, nodeAt_of_getElem? he]
      obtain ⟨S, hS⟩ : ∃ S, IsTree arena (if b then l.toNat else r.toNat) S := by
        cases b
        · exact ⟨R, hr⟩
        · exact ⟨L, hl⟩
      cases hn : nodeAt arena (if b then l.toNat else r.toNat) with
      | internal l' r' w' => exact ih hS hu
      | leaf x w' =>
        exfalso
        cases hS with
        | fork he' _ _ => rw [nodeAt_of_getElem? he'] at hn; cases hn
        | leaf he' =>
          cases u with
          | nil =>
            simp only [follow, Option.some.injEq] at hu
            obtain ⟨_, _, _, hq⟩ := hq
            rw [← hu, he'] at hq
            cases hq
          | cons c u => simp [follow, child, he'] at hu

/-- Codes one after another, from the root: their symbols, and the walk goes on after them. -/
theorem decodeWalk_codes {m start : Nat} {L R : Shape} {ps : List (List Bool × Byte)} {rest : List Bool}
    (hr : IsTree arena root (.fork L R)) (hp : ∀ p ∈ ps, (Shape.fork L R).symbolAt p.1 = some p.2)
    (hc : m + ps.length ≤ cap) :
    decodeWalk arena root cap root m start start (ps.flatMap Prod.fst ++ rest) =
      (decodeWalk arena root cap root (m + ps.length) (start + (ps.flatMap Prod.fst).length)
        (start + (ps.flatMap Prod.fst).length) rest).map (ps.map Prod.snd ++ ·) := by
  induction ps generalizing m start with
  | nil => cases h : decodeWalk arena root cap root m start start rest <;> simp [Except.map, h]
  | cons p ps ih =>
    simp only [List.length_cons] at hc
    rw [List.flatMap_cons, List.append_assoc, decodeWalk_code hr (hp p (by simp)), if_neg (by omega),
      ih (fun q hq => hp q (by simp [hq])) (by omega)]
    simp only [List.length_append, List.length_cons, Nat.add_assoc, Nat.add_comm 1]
    cases decodeWalk arena root cap root (m + (ps.length + 1))
      (start + (p.1.length + (ps.flatMap Prod.fst).length))
      (start + (p.1.length + (ps.flatMap Prod.fst).length)) rest <;> simp [Except.map]

/-! ### DECODE_DATA's walk -/

theorem decodeBits_ok {start : Nat} {bits : List Bool} {out : List Byte}
    (h : decodeBits arena root cap start bits = .ok out) : out.length ≤ bits.length ∧ out.length ≤ cap := by
  unfold decodeBits at h
  split at h
  · obtain ⟨h1, h2⟩ := decodeLone_ok h
    exact ⟨by simp [h1], by simpa using h2 (Nat.zero_le _)⟩
  · obtain ⟨h1, h2⟩ := decodeWalk_ok h
    exact ⟨h1, by simpa using h2 (Nat.zero_le _)⟩

theorem decodeBits_error_ne_ok {start j : Nat} {bits : List Bool} {c : ErrCode}
    (h : decodeBits arena root cap start bits = .error (c, j)) : c ≠ .ok := by
  unfold decodeBits at h
  split at h
  · rcases decodeLone_error_code h with rfl | rfl <;> simp
  · rcases decodeWalk_error_code h with rfl | rfl <;> simp

/-- Codes of a tree one after another decode to their symbols, on a lone leaf too (R112, R121, R122). -/
theorem decodeBits_codes {start : Nat} {T : Shape} {ps : List (List Bool × Byte)} (hT : IsTree arena root T)
    (hp : ∀ p ∈ ps, T.decodes p.1 = some p.2) (hc : ps.length ≤ cap) :
    decodeBits arena root cap start (ps.flatMap Prod.fst) = .ok (ps.map Prod.snd) := by
  cases hT with
  | @leaf _ x w he =>
    simp only [decodeBits, nodeAt_of_getElem? he]
    have h1 : ps.flatMap Prod.fst = List.replicate ps.length true ∧ ps.map Prod.snd = List.replicate ps.length x := by
      clear hc
      induction ps with
      | nil => exact ⟨rfl, rfl⟩
      | cons p ps ih =>
        obtain ⟨i1, i2⟩ := ih (fun q hq => hp q (by simp [hq]))
        have := hp p (by simp)
        simp only [Shape.decodes] at this
        split at this
        · next h => simp only [Option.some.injEq] at this; simp [i1, i2, h, this, List.replicate_succ]
        · cases this
    rw [h1.1, h1.2]
    have := decodeLone_ones (cap := cap) (m := 0) (i := start) (sym := x) (rest := []) (n := ps.length) (by omega)
    simpa [decodeLone, Except.map] using this
  | @fork _ l r w L R he hl hr =>
    simp only [decodeBits, nodeAt_of_getElem? he]
    have := decodeWalk_codes (cap := cap) (m := 0) (start := start) (rest := []) (.fork he hl hr) hp (by omega)
    simpa [decodeWalk, Except.map] using this

end Sys2Proof.Machine
end

