-- ==== Sys2Proof/Laws/Commands.lean ====
section
/-!
SUPPORT. The commands seen alike: each is a body followed by its completion (40_control.md R87, R88). What no body
reads, and how bodies run in sequence.
-/

namespace Sys2Proof.Machine

/-- The body of a command: its effects before the completion writes. -/
def body : Instr → State → Result
  | .nop => nopBody
  | .freqBuild => freqBuildBody
  | .treeBuild => treeBuildBody
  | .codeExtract => codeExtractBody
  | .treeSerialize => treeSerializeBody
  | .encodeData => encodeDataBody
  | .pack => packBody
  | .unpack => unpackBody
  | .treeDeserialize => treeDeserializeBody
  | .decodeData => decodeDataBody
  | .compress => compressBody
  | .decompress => decompressBody
  | .out2in => out2inBody

/-- Every command is its body and then its completion: it always completes (R88, R152). -/
theorem exec_eq (i : Instr) (s : State) : exec i s = .next (complete (body i s)) := by
  cases i <;> rfl

@[simp] theorem exec_eq_next (i : Instr) (s t : State) : exec i s = .next t ↔ t = complete (body i s) := by
  rw [exec_eq]; constructor
  · intro h; injection h with h; exact h.symm
  · rintro rfl; rfl

@[simp] theorem Result.andThen_success (s : State) (f : State → Result) : (Result.success s).andThen f = f s := rfl

@[simp] theorem Result.andThen_failed (e : Failure) (s : State) (f : State → Result) :
    (Result.failed e s).andThen f = .failed e s := rfl

theorem Result.andThen_assoc (r : Result) (f g : State → Result) :
    (r.andThen f).andThen g = r.andThen (fun s => (f s).andThen g) := by
  cases r <;> rfl

/-! ### Every way a primitive command's body ends, in the order of its checks -/

section Ways

variable {s : State}

theorem out2inBody_capacity (h : s.params.inCap < s.outLen.toNat) :
    out2inBody s = raise .out2in .capacity s.outLen.toNat s := if_pos h

theorem out2inBody_ok (h : s.outLen.toNat ≤ s.params.inCap) :
    out2inBody s = .success { s with
      inBuf := s.inBuf.setList 0 s.readOut.1, inLen := s.outLen, draws := s.readOut.2 } :=
  if_neg (Nat.not_lt.2 h)

theorem packBody_long (h : s.params.bbCap < s.bbLen.toNat) :
    packBody s = raise .pack .capacity s.bbLen.toNat { s with outLen := 0 } := if_pos h

theorem packBody_room (h : s.bbLen.toNat ≤ s.params.bbCap) (h2 : s.params.outCap < ceil8 s.bbLen.toNat + 1) :
    packBody s = raise .pack .capacity (ceil8 s.bbLen.toNat + 1) { s with outLen := 0 } :=
  (if_neg (Nat.not_lt.2 h)).trans (if_pos h2)

theorem packBody_ok (h : s.bbLen.toNat ≤ s.params.bbCap) (h2 : ceil8 s.bbLen.toNat + 1 ≤ s.params.outCap) :
    packBody s = .success { s with
      outBuf := s.outBuf.setList 0 (packBytes (s.readBits 0).1)
      outLen := BitVec.ofNat 32 (packBytes (s.readBits 0).1).length
      pad := BitVec.ofNat 3 (padCount s.bbLen.toNat)
      draws := (s.readBits 0).2 } :=
  (if_neg (Nat.not_lt.2 h)).trans (if_neg (Nat.not_lt.2 h2))

/-- The control byte UNPACK reads. -/
def State.control (s : State) : Byte × Nat := s.inBuf.read freshByte (s.inLen.toNat - 1) s.draws

/-- The data bytes UNPACK reads. -/
def State.payload (s : State) : List Byte × Nat :=
  s.inBuf.readRange freshByte 0 (s.inLen.toNat - 1) s.control.2

theorem unpackBody_long (h : s.params.inCap < s.inLen.toNat) :
    unpackBody s = raise .unpack .capacity s.inLen.toNat { s with bbLen := 0 } := if_pos h

theorem unpackBody_empty (h : s.inLen.toNat ≤ s.params.inCap) (h2 : s.inLen.toNat = 0) :
    unpackBody s = raise .unpack .malformedPayload 0 { s with bbLen := 0 } :=
  (if_neg (Nat.not_lt.2 h)).trans (if_pos h2)

theorem unpackBody_padding (h : s.inLen.toNat ≤ s.params.inCap) (h2 : s.inLen.toNat ≠ 0)
    (h3 : 7 < s.control.1.toNat ∨ 8 * (s.inLen.toNat - 1) < s.control.1.toNat) :
    unpackBody s = raise .unpack .invalidPadding s.control.1.toNat
      { s with bbLen := 0, draws := s.control.2 } := by
  refine (if_neg (Nat.not_lt.2 h)).trans ((if_neg h2).trans ?_)
  by_cases h4 : 7 < s.control.1.toNat
  · exact if_pos h4
  · exact (if_neg h4).trans (if_pos (h3.resolve_left h4))

theorem unpackBody_room (h : s.inLen.toNat ≤ s.params.inCap) (h2 : s.inLen.toNat ≠ 0)
    (h3 : s.control.1.toNat ≤ 7) (h4 : s.control.1.toNat ≤ 8 * (s.inLen.toNat - 1))
    (h5 : s.params.bbCap < 8 * (s.inLen.toNat - 1) - s.control.1.toNat) :
    unpackBody s = raise .unpack .capacity (8 * (s.inLen.toNat - 1) - s.control.1.toNat)
      { s with bbLen := 0, draws := s.control.2 } :=
  (if_neg (Nat.not_lt.2 h)).trans ((if_neg h2).trans ((if_neg (Nat.not_lt.2 h3)).trans
    ((if_neg (Nat.not_lt.2 h4)).trans (if_pos h5))))

theorem unpackBody_ok (h : s.inLen.toNat ≤ s.params.inCap) (h2 : s.inLen.toNat ≠ 0)
    (h3 : s.control.1.toNat ≤ 7) (h4 : s.control.1.toNat ≤ 8 * (s.inLen.toNat - 1))
    (h5 : 8 * (s.inLen.toNat - 1) - s.control.1.toNat ≤ s.params.bbCap) :
    unpackBody s = .success { s with
      bitBuf := s.bitBuf.setList 0 (unpackBits s.payload.1 s.control.1.toNat)
      bbLen := BitVec.ofNat 32 (unpackBits s.payload.1 s.control.1.toNat).length
      pad := BitVec.ofNat 3 s.control.1.toNat
      draws := s.payload.2 } :=
  (if_neg (Nat.not_lt.2 h)).trans ((if_neg h2).trans ((if_neg (Nat.not_lt.2 h3)).trans
    ((if_neg (Nat.not_lt.2 h4)).trans (if_neg (Nat.not_lt.2 h5)))))

theorem freqBuildBody_long (h : s.params.inCap < s.inLen.toNat) :
    freqBuildBody s = raise .freqBuild .capacity s.inLen.toNat { s with freqValid := false, symCnt := 0 } := if_pos h

theorem freqBuildBody_ok (h : s.inLen.toNat ≤ s.params.inCap) :
    freqBuildBody s = .success { s with
      freq := Memory.ofList (freqOf s.readIn.1)
      symCnt := BitVec.ofNat 9 (distinct (freqOf s.readIn.1))
      freqValid := true
      draws := s.readIn.2 } := if_neg (Nat.not_lt.2 h)

theorem treeBuildBody_noFreq (h : s.freqValid = false) :
    treeBuildBody s = raise .treeBuild .noFreq 0 s.clearTree := if_pos h

theorem treeBuildBody_empty (h : s.freqValid = true) (h2 : distinct s.readFreq.1 = 0) :
    treeBuildBody s = raise .treeBuild .emptyInput 0 { s.clearTree with draws := s.readFreq.2 } :=
  by simp only [treeBuildBody, h, h2, ↓reduceIte, Bool.true_eq_false]

theorem treeBuildBody_ok (h : s.freqValid = true) (h2 : distinct s.readFreq.1 ≠ 0) :
    treeBuildBody s = .success { s with
      node := Memory.ofList (buildTree s.readFreq.1).1
      root := BitVec.ofNat 9 (buildTree s.readFreq.1).2
      nodeCnt := BitVec.ofNat 10 (2 * distinct s.readFreq.1 - 1)
      symCnt := BitVec.ofNat 9 (distinct s.readFreq.1)
      treeValid := true
      codeValid := false
      draws := s.readFreq.2 } :=
  by simp only [treeBuildBody, h, h2, ↓reduceIte, Bool.true_eq_false]

theorem codeExtractBody_noTree (h : s.treeValid = false) :
    codeExtractBody s = raise .codeExtract .noTree 0 { s with codeValid := false } := if_pos h

theorem codeExtractBody_ok (h : s.treeValid = true) :
    codeExtractBody s = .success { s with
      code := codeTable (codeWrites s.readArena.1 s.root.toNat), codeValid := true, draws := s.readArena.2 } :=
  if_neg (by simp [h])

theorem treeSerializeBody_noTree (h : s.treeValid = false) :
    treeSerializeBody s = raise .treeSerialize .noTree 0 { s with bbLen := 0 } := if_pos h

/-- The bits TREE_SERIALIZE makes. -/
def State.treeBits (s : State) : List Bool :=
  Sys2Proof.Machine.treeBits s.readArena.1 s.readArena.1.length s.root.toNat

theorem treeSerializeBody_room (h : s.treeValid = true) (h2 : s.params.bbCap < s.treeBits.length) :
    treeSerializeBody s = raise .treeSerialize .capacity s.treeBits.length
      { s with bbLen := 0, draws := s.readArena.2 } :=
  (if_neg (by simp [h])).trans (if_pos h2)

theorem treeSerializeBody_ok (h : s.treeValid = true) (h2 : s.treeBits.length ≤ s.params.bbCap) :
    treeSerializeBody s = .success { s with
      bitBuf := s.bitBuf.setList 0 s.treeBits
      bbLen := BitVec.ofNat 32 s.treeBits.length
      draws := s.readArena.2 } :=
  (if_neg (by simp [h])).trans (if_neg (Nat.not_lt.2 h2))

theorem treeDeserializeBody_long (h : s.params.bbCap < s.bbLen.toNat) :
    treeDeserializeBody s = raise .treeDeserialize .capacity s.bbLen.toNat { s.clearTree with cursor := 0 } :=
  if_pos h

theorem treeDeserializeBody_malformed {c : Nat} (h : s.bbLen.toNat ≤ s.params.bbCap)
    (h2 : parseTree (s.readBits 0).1 = .error c) :
    treeDeserializeBody s = raise .treeDeserialize .malformedPayload c
      { s.clearTree with cursor := 0, node := [], draws := (s.readBits 0).2 } := by
  simp only [treeDeserializeBody, Nat.not_lt.2 h, ↓reduceIte, h2]

theorem treeDeserializeBody_ok {p : Parsed} (h : s.bbLen.toNat ≤ s.params.bbCap)
    (h2 : parseTree (s.readBits 0).1 = .ok p) :
    treeDeserializeBody s = .success { s with
      node := Memory.ofList p.entries
      root := 0
      cursor := BitVec.ofNat 32 p.cursor
      nodeCnt := BitVec.ofNat 10 p.entries.length
      symCnt := BitVec.ofNat 9 (p.entries.countP NodeEntry.isLeaf)
      treeValid := true
      codeValid := false
      draws := (s.readBits 0).2 } := by
  simp only [treeDeserializeBody, Nat.not_lt.2 h, ↓reduceIte, h2]

theorem encodeDataBody_noCode (h : s.codeValid = false) :
    encodeDataBody s = raise .encodeData .noCode 0 { s with bbLen := 0 } := if_pos h

theorem encodeDataBody_long (h : s.codeValid = true) (h2 : s.params.inCap < s.inLen.toNat) :
    encodeDataBody s = raise .encodeData .capacity s.inLen.toNat { s with bbLen := 0 } :=
  (if_neg (by simp [h])).trans (if_pos h2)

theorem encodeDataBody_full (h : s.codeValid = true) (h2 : s.inLen.toNat ≤ s.params.inCap)
    (h3 : s.params.bbCap < s.bbLen.toNat) :
    encodeDataBody s = raise .encodeData .capacity s.bbLen.toNat { s with bbLen := 0 } :=
  (if_neg (by simp [h])).trans ((if_neg (Nat.not_lt.2 h2)).trans (if_pos h3))

/-- The CODE entries of the input bytes ENCODE_DATA reads. -/
def State.inCodes (s : State) : List CodeEntry × Nat := s.readCodes s.readIn.1 s.readIn.2

theorem encodeDataBody_error {c : ErrCode} {k : Nat} (h : s.codeValid = true)
    (h2 : s.inLen.toNat ≤ s.params.inCap) (h3 : s.bbLen.toNat ≤ s.params.bbCap)
    (h4 : encodeLoop s.params.bbCap s.bbLen.toNat 0 s.inCodes.1 = .error (c, k)) :
    encodeDataBody s = raise .encodeData c k { s with
      bbLen := 0, bitBuf := s.bitBuf.forget s.bbLen.toNat s.params.bbCap, draws := s.inCodes.2 } := by
  unfold State.inCodes at h4 ⊢
  simp only [encodeDataBody, h, Nat.not_lt.2 h2, Nat.not_lt.2 h3, ↓reduceIte, Bool.true_eq_false, h4]

theorem encodeDataBody_ok {bits : List Bool} (h : s.codeValid = true)
    (h2 : s.inLen.toNat ≤ s.params.inCap) (h3 : s.bbLen.toNat ≤ s.params.bbCap)
    (h4 : encodeLoop s.params.bbCap s.bbLen.toNat 0 s.inCodes.1 = .ok bits) :
    encodeDataBody s = .success { s with
      bitBuf := s.bitBuf.setList s.bbLen.toNat bits
      bbLen := BitVec.ofNat 32 (s.bbLen.toNat + bits.length)
      draws := s.inCodes.2 } := by
  unfold State.inCodes at h4 ⊢
  simp only [encodeDataBody, h, Nat.not_lt.2 h2, Nat.not_lt.2 h3, ↓reduceIte, Bool.true_eq_false, h4]

theorem decodeDataBody_noTree (h : s.treeValid = false) :
    decodeDataBody s = raise .decodeData .noTree 0 { s with outLen := 0 } := if_pos h

theorem decodeDataBody_long (h : s.treeValid = true) (h2 : s.params.bbCap < s.bbLen.toNat) :
    decodeDataBody s = raise .decodeData .capacity s.bbLen.toNat { s with outLen := 0 } :=
  (if_neg (by simp [h])).trans (if_pos h2)

theorem decodeDataBody_cursor (h : s.treeValid = true) (h2 : s.bbLen.toNat ≤ s.params.bbCap)
    (h3 : s.bbLen.toNat < s.cursor.toNat) :
    decodeDataBody s = raise .decodeData .malformedPayload s.cursor.toNat { s with outLen := 0 } :=
  (if_neg (by simp [h])).trans ((if_neg (Nat.not_lt.2 h2)).trans (if_pos h3))

/-- The bits DECODE_DATA reads, from CURSOR on. -/
def State.dataBits (s : State) : List Bool × Nat :=
  s.bitBuf.readRange freshBit s.cursor.toNat (s.bbLen.toNat - s.cursor.toNat) s.readArena.2

theorem decodeDataBody_error {c : ErrCode} {k : Nat} (h : s.treeValid = true) (h2 : s.bbLen.toNat ≤ s.params.bbCap)
    (h3 : s.cursor.toNat ≤ s.bbLen.toNat)
    (h4 : decodeBits s.readArena.1 s.root.toNat s.params.outCap s.cursor.toNat s.dataBits.1 = .error (c, k)) :
    decodeDataBody s = raise .decodeData c k { s with
      outLen := 0, outBuf := s.outBuf.forget 0 s.params.outCap, draws := s.dataBits.2 } := by
  unfold State.dataBits at h4 ⊢
  simp only [decodeDataBody, State.readBits, h, Nat.not_lt.2 h2, Nat.not_lt.2 h3, ↓reduceIte, Bool.true_eq_false, h4]

theorem decodeDataBody_ok {out : List Byte} (h : s.treeValid = true) (h2 : s.bbLen.toNat ≤ s.params.bbCap)
    (h3 : s.cursor.toNat ≤ s.bbLen.toNat)
    (h4 : decodeBits s.readArena.1 s.root.toNat s.params.outCap s.cursor.toNat s.dataBits.1 = .ok out) :
    decodeDataBody s = .success { s with
      outBuf := s.outBuf.setList 0 out
      outLen := BitVec.ofNat 32 out.length
      draws := s.dataBits.2 } := by
  unfold State.dataBits at h4 ⊢
  simp only [decodeDataBody, State.readBits, h, Nat.not_lt.2 h2, Nat.not_lt.2 h3, ↓reduceIte, Bool.true_eq_false, h4]

end Ways

/-! ### The same, as one rule of case analysis per body -/

section Elim

variable {P : Result → Prop} (s : State)

/-- Case analysis on how `out2inBody` ends. -/
theorem out2inBody_elim
    (capacity : s.params.inCap < s.outLen.toNat →
      P (raise .out2in .capacity s.outLen.toNat s))
    (ok : s.outLen.toNat ≤ s.params.inCap →
      P (.success { s with
        inBuf := s.inBuf.setList 0 s.readOut.1
        inLen := s.outLen
        draws := s.readOut.2 })) :
    P (out2inBody s) := by
  by_cases h1 : s.params.inCap < s.outLen.toNat
  · rw [out2inBody_capacity h1]; exact capacity h1
  · rw [out2inBody_ok (Nat.not_lt.1 h1)]; exact ok (Nat.not_lt.1 h1)

/-- Case analysis on how `packBody` ends. -/
theorem packBody_elim
    (long : s.params.bbCap < s.bbLen.toNat →
      P (raise .pack .capacity s.bbLen.toNat { s with outLen := 0 }))
    (room : s.bbLen.toNat ≤ s.params.bbCap → s.params.outCap < ceil8 s.bbLen.toNat + 1 →
      P (raise .pack .capacity (ceil8 s.bbLen.toNat + 1) { s with outLen := 0 }))
    (ok : s.bbLen.toNat ≤ s.params.bbCap → ceil8 s.bbLen.toNat + 1 ≤ s.params.outCap →
      P (.success { s with
        outBuf := s.outBuf.setList 0 (packBytes (s.readBits 0).1)
        outLen := BitVec.ofNat 32 (packBytes (s.readBits 0).1).length
        pad := BitVec.ofNat 3 (padCount s.bbLen.toNat)
        draws := (s.readBits 0).2 })) :
    P (packBody s) := by
  by_cases h1 : s.params.bbCap < s.bbLen.toNat
  · rw [packBody_long h1]; exact long h1
  replace h1 := Nat.not_lt.1 h1
  by_cases h2 : s.params.outCap < ceil8 s.bbLen.toNat + 1
  · rw [packBody_room h1 h2]; exact room h1 h2
  · rw [packBody_ok h1 (Nat.not_lt.1 h2)]; exact ok h1 (Nat.not_lt.1 h2)

/-- Case analysis on how `unpackBody` ends. -/
theorem unpackBody_elim
    (long : s.params.inCap < s.inLen.toNat →
      P (raise .unpack .capacity s.inLen.toNat { s with bbLen := 0 }))
    (empty : s.inLen.toNat ≤ s.params.inCap → s.inLen.toNat = 0 →
      P (raise .unpack .malformedPayload 0 { s with bbLen := 0 }))
    (padding : s.inLen.toNat ≤ s.params.inCap → s.inLen.toNat ≠ 0 →
      (7 < s.control.1.toNat ∨ 8 * (s.inLen.toNat - 1) < s.control.1.toNat) →
      P (raise .unpack .invalidPadding s.control.1.toNat { s with
        bbLen := 0
        draws := s.control.2 }))
    (room : s.inLen.toNat ≤ s.params.inCap → s.inLen.toNat ≠ 0 → s.control.1.toNat ≤ 7 →
      s.control.1.toNat ≤ 8 * (s.inLen.toNat - 1) → s.params.bbCap < 8 * (s.inLen.toNat - 1) - s.control.1.toNat →
      P (raise .unpack .capacity (8 * (s.inLen.toNat - 1) - s.control.1.toNat) { s with
        bbLen := 0
        draws := s.control.2 }))
    (ok : s.inLen.toNat ≤ s.params.inCap → s.inLen.toNat ≠ 0 → s.control.1.toNat ≤ 7 →
      s.control.1.toNat ≤ 8 * (s.inLen.toNat - 1) → 8 * (s.inLen.toNat - 1) - s.control.1.toNat ≤ s.params.bbCap →
      P (.success { s with
        bitBuf := s.bitBuf.setList 0 (unpackBits s.payload.1 s.control.1.toNat)
        bbLen := BitVec.ofNat 32 (unpackBits s.payload.1 s.control.1.toNat).length
        pad := BitVec.ofNat 3 s.control.1.toNat
        draws := s.payload.2 })) :
    P (unpackBody s) := by
  by_cases h1 : s.params.inCap < s.inLen.toNat
  · rw [unpackBody_long h1]; exact long h1
  replace h1 := Nat.not_lt.1 h1
  by_cases h2 : s.inLen.toNat = 0
  · rw [unpackBody_empty h1 h2]; exact empty h1 h2
  by_cases h3 : 7 < s.control.1.toNat ∨ 8 * (s.inLen.toNat - 1) < s.control.1.toNat
  · rw [unpackBody_padding h1 h2 h3]; exact padding h1 h2 h3
  obtain ⟨h3, h4⟩ := not_or.1 h3
  replace h3 := Nat.not_lt.1 h3
  replace h4 := Nat.not_lt.1 h4
  by_cases h5 : s.params.bbCap < 8 * (s.inLen.toNat - 1) - s.control.1.toNat
  · rw [unpackBody_room h1 h2 h3 h4 h5]; exact room h1 h2 h3 h4 h5
  · rw [unpackBody_ok h1 h2 h3 h4 (Nat.not_lt.1 h5)]; exact ok h1 h2 h3 h4 (Nat.not_lt.1 h5)

/-- Case analysis on how `freqBuildBody` ends. -/
theorem freqBuildBody_elim
    (long : s.params.inCap < s.inLen.toNat →
      P (raise .freqBuild .capacity s.inLen.toNat { s with
        freqValid := false
        symCnt := 0 }))
    (ok : s.inLen.toNat ≤ s.params.inCap →
      P (.success { s with
        freq := Memory.ofList (freqOf s.readIn.1)
        symCnt := BitVec.ofNat 9 (distinct (freqOf s.readIn.1))
        freqValid := true
        draws := s.readIn.2 })) :
    P (freqBuildBody s) := by
  by_cases h1 : s.params.inCap < s.inLen.toNat
  · rw [freqBuildBody_long h1]; exact long h1
  · rw [freqBuildBody_ok (Nat.not_lt.1 h1)]; exact ok (Nat.not_lt.1 h1)

/-- Case analysis on how `treeBuildBody` ends. -/
theorem treeBuildBody_elim
    (noFreq : s.freqValid = false →
      P (raise .treeBuild .noFreq 0 s.clearTree))
    (empty : s.freqValid = true → distinct s.readFreq.1 = 0 →
      P (raise .treeBuild .emptyInput 0 { s.clearTree with draws := s.readFreq.2 }))
    (ok : s.freqValid = true → distinct s.readFreq.1 ≠ 0 →
      P (.success { s with
        node := Memory.ofList (buildTree s.readFreq.1).1
        root := BitVec.ofNat 9 (buildTree s.readFreq.1).2
        nodeCnt := BitVec.ofNat 10 (2 * distinct s.readFreq.1 - 1)
        symCnt := BitVec.ofNat 9 (distinct s.readFreq.1)
        treeValid := true
        codeValid := false
        draws := s.readFreq.2 })) :
    P (treeBuildBody s) := by
  by_cases h1 : s.freqValid = false
  · rw [treeBuildBody_noFreq h1]; exact noFreq h1
  replace h1 : s.freqValid = true := by simpa using h1
  by_cases h2 : distinct s.readFreq.1 = 0
  · rw [treeBuildBody_empty h1 h2]; exact empty h1 h2
  · rw [treeBuildBody_ok h1 h2]; exact ok h1 h2

/-- Case analysis on how `codeExtractBody` ends. -/
theorem codeExtractBody_elim
    (noTree : s.treeValid = false →
      P (raise .codeExtract .noTree 0 { s with codeValid := false }))
    (ok : s.treeValid = true →
      P (.success { s with
        code := codeTable (codeWrites s.readArena.1 s.root.toNat)
        codeValid := true
        draws := s.readArena.2 })) :
    P (codeExtractBody s) := by
  by_cases h1 : s.treeValid = false
  · rw [codeExtractBody_noTree h1]; exact noTree h1
  replace h1 : s.treeValid = true := by simpa using h1
  rw [codeExtractBody_ok h1]; exact ok h1

/-- Case analysis on how `treeSerializeBody` ends. -/
theorem treeSerializeBody_elim
    (noTree : s.treeValid = false →
      P (raise .treeSerialize .noTree 0 { s with bbLen := 0 }))
    (room : s.treeValid = true → s.params.bbCap < s.treeBits.length →
      P (raise .treeSerialize .capacity s.treeBits.length { s with
        bbLen := 0
        draws := s.readArena.2 }))
    (ok : s.treeValid = true → s.treeBits.length ≤ s.params.bbCap →
      P (.success { s with
        bitBuf := s.bitBuf.setList 0 s.treeBits
        bbLen := BitVec.ofNat 32 s.treeBits.length
        draws := s.readArena.2 })) :
    P (treeSerializeBody s) := by
  by_cases h1 : s.treeValid = false
  · rw [treeSerializeBody_noTree h1]; exact noTree h1
  replace h1 : s.treeValid = true := by simpa using h1
  by_cases h2 : s.params.bbCap < s.treeBits.length
  · rw [treeSerializeBody_room h1 h2]; exact room h1 h2
  · rw [treeSerializeBody_ok h1 (Nat.not_lt.1 h2)]; exact ok h1 (Nat.not_lt.1 h2)

/-- Case analysis on how `treeDeserializeBody` ends. -/
theorem treeDeserializeBody_elim
    (long : s.params.bbCap < s.bbLen.toNat →
      P (raise .treeDeserialize .capacity s.bbLen.toNat { s.clearTree with cursor := 0 }))
    (malformed : ∀ (c : Nat), s.bbLen.toNat ≤ s.params.bbCap → parseTree (s.readBits 0).1 = .error c →
      P (raise .treeDeserialize .malformedPayload c { s.clearTree with
        cursor := 0
        node := []
        draws := (s.readBits 0).2 }))
    (ok : ∀ (p : Parsed), s.bbLen.toNat ≤ s.params.bbCap → parseTree (s.readBits 0).1 = .ok p →
      P (.success { s with
        node := Memory.ofList p.entries
        root := 0
        cursor := BitVec.ofNat 32 p.cursor
        nodeCnt := BitVec.ofNat 10 p.entries.length
        symCnt := BitVec.ofNat 9 (p.entries.countP NodeEntry.isLeaf)
        treeValid := true
        codeValid := false
        draws := (s.readBits 0).2 })) :
    P (treeDeserializeBody s) := by
  by_cases h1 : s.params.bbCap < s.bbLen.toNat
  · rw [treeDeserializeBody_long h1]; exact long h1
  replace h1 := Nat.not_lt.1 h1
  cases h2 : parseTree (s.readBits 0).1 with
  | error c => rw [treeDeserializeBody_malformed h1 h2]; exact malformed c h1 h2
  | ok p => rw [treeDeserializeBody_ok h1 h2]; exact ok p h1 h2

/-- Case analysis on how `encodeDataBody` ends. -/
theorem encodeDataBody_elim
    (noCode : s.codeValid = false →
      P (raise .encodeData .noCode 0 { s with bbLen := 0 }))
    (long : s.codeValid = true → s.params.inCap < s.inLen.toNat →
      P (raise .encodeData .capacity s.inLen.toNat { s with bbLen := 0 }))
    (full : s.codeValid = true → s.inLen.toNat ≤ s.params.inCap → s.params.bbCap < s.bbLen.toNat →
      P (raise .encodeData .capacity s.bbLen.toNat { s with bbLen := 0 }))
    (error : ∀ (c : ErrCode) (k : Nat), s.codeValid = true → s.inLen.toNat ≤ s.params.inCap →
      s.bbLen.toNat ≤ s.params.bbCap → encodeLoop s.params.bbCap s.bbLen.toNat 0 s.inCodes.1 = .error (c, k) →
      P (raise .encodeData c k { s with
        bbLen := 0
        bitBuf := s.bitBuf.forget s.bbLen.toNat s.params.bbCap
        draws := s.inCodes.2 }))
    (ok : ∀ (bits : List Bool), s.codeValid = true → s.inLen.toNat ≤ s.params.inCap →
      s.bbLen.toNat ≤ s.params.bbCap → encodeLoop s.params.bbCap s.bbLen.toNat 0 s.inCodes.1 = .ok bits →
      P (.success { s with
        bitBuf := s.bitBuf.setList s.bbLen.toNat bits
        bbLen := BitVec.ofNat 32 (s.bbLen.toNat + bits.length)
        draws := s.inCodes.2 })) :
    P (encodeDataBody s) := by
  by_cases h1 : s.codeValid = false
  · rw [encodeDataBody_noCode h1]; exact noCode h1
  replace h1 : s.codeValid = true := by simpa using h1
  by_cases h2 : s.params.inCap < s.inLen.toNat
  · rw [encodeDataBody_long h1 h2]; exact long h1 h2
  replace h2 := Nat.not_lt.1 h2
  by_cases h3 : s.params.bbCap < s.bbLen.toNat
  · rw [encodeDataBody_full h1 h2 h3]; exact full h1 h2 h3
  replace h3 := Nat.not_lt.1 h3
  cases h4 : encodeLoop s.params.bbCap s.bbLen.toNat 0 s.inCodes.1 with
  | error e => obtain ⟨c, k⟩ := e; rw [encodeDataBody_error h1 h2 h3 h4]; exact error c k h1 h2 h3 h4
  | ok bits => rw [encodeDataBody_ok h1 h2 h3 h4]; exact ok bits h1 h2 h3 h4

/-- Case analysis on how `decodeDataBody` ends. -/
theorem decodeDataBody_elim
    (noTree : s.treeValid = false →
      P (raise .decodeData .noTree 0 { s with outLen := 0 }))
    (long : s.treeValid = true → s.params.bbCap < s.bbLen.toNat →
      P (raise .decodeData .capacity s.bbLen.toNat { s with outLen := 0 }))
    (cursor : s.treeValid = true → s.bbLen.toNat ≤ s.params.bbCap → s.bbLen.toNat < s.cursor.toNat →
      P (raise .decodeData .malformedPayload s.cursor.toNat { s with outLen := 0 }))
    (error : ∀ (c : ErrCode) (k : Nat), s.treeValid = true → s.bbLen.toNat ≤ s.params.bbCap →
      s.cursor.toNat ≤ s.bbLen.toNat →
      decodeBits s.readArena.1 s.root.toNat s.params.outCap s.cursor.toNat s.dataBits.1 = .error (c, k) →
      P (raise .decodeData c k { s with
        outLen := 0
        outBuf := s.outBuf.forget 0 s.params.outCap
        draws := s.dataBits.2 }))
    (ok : ∀ (out : List Byte), s.treeValid = true → s.bbLen.toNat ≤ s.params.bbCap →
      s.cursor.toNat ≤ s.bbLen.toNat →
      decodeBits s.readArena.1 s.root.toNat s.params.outCap s.cursor.toNat s.dataBits.1 = .ok out →
      P (.success { s with
        outBuf := s.outBuf.setList 0 out
        outLen := BitVec.ofNat 32 out.length
        draws := s.dataBits.2 })) :
    P (decodeDataBody s) := by
  by_cases h1 : s.treeValid = false
  · rw [decodeDataBody_noTree h1]; exact noTree h1
  replace h1 : s.treeValid = true := by simpa using h1
  by_cases h2 : s.params.bbCap < s.bbLen.toNat
  · rw [decodeDataBody_long h1 h2]; exact long h1 h2
  replace h2 := Nat.not_lt.1 h2
  by_cases h3 : s.bbLen.toNat < s.cursor.toNat
  · rw [decodeDataBody_cursor h1 h2 h3]; exact cursor h1 h2 h3
  replace h3 := Nat.not_lt.1 h3
  cases h4 : decodeBits s.readArena.1 s.root.toNat s.params.outCap s.cursor.toNat s.dataBits.1 with
  | error e => obtain ⟨c, k⟩ := e; rw [decodeDataBody_error h1 h2 h3 h4]; exact error c k h1 h2 h3 h4
  | ok out => rw [decodeDataBody_ok h1 h2 h3 h4]; exact ok out h1 h2 h3 h4

end Elim

/-- How a primitive command fails: with an error, in its own name, and never with OK (R89). -/
def Result.FailsAs (i : Instr) (r : Result) : Prop := ∀ e t, r = .failed e t → e.code ≠ .ok ∧ e.op = i.opcode

theorem failsAs_raise (i : Instr) {c : ErrCode} (hc : c ≠ .ok) (n : Nat) (s : State) :
    (raise i c n s).FailsAs i := by
  intro e t h
  cases h
  exact ⟨hc, rfl⟩

theorem failsAs_success (i : Instr) (s : State) : (Result.success s).FailsAs i := by
  intro e t h
  cases h

/-- Every primitive command fails in its own name, with an error. -/
theorem body_failsAs (i : Instr) (s : State) (h : i ∉ [Instr.compress, .decompress]) : (body i s).FailsAs i := by
  cases i
  case compress => simp at h
  case decompress => simp at h
  case nop => exact failsAs_success _ _
  case out2in => exact out2inBody_elim s (fun _ => failsAs_raise _ (by decide) _ _) (fun _ => failsAs_success _ _)
  case pack =>
    exact packBody_elim s (fun _ => failsAs_raise _ (by decide) _ _) (fun _ _ => failsAs_raise _ (by decide) _ _)
      (fun _ _ => failsAs_success _ _)
  case unpack =>
    exact unpackBody_elim s (fun _ => failsAs_raise _ (by decide) _ _) (fun _ _ => failsAs_raise _ (by decide) _ _)
      (fun _ _ _ => failsAs_raise _ (by decide) _ _) (fun _ _ _ _ _ => failsAs_raise _ (by decide) _ _)
      (fun _ _ _ _ _ => failsAs_success _ _)
  case freqBuild => exact freqBuildBody_elim s (fun _ => failsAs_raise _ (by decide) _ _) (fun _ => failsAs_success _ _)
  case treeBuild =>
    exact treeBuildBody_elim s (fun _ => failsAs_raise _ (by decide) _ _)
      (fun _ _ => failsAs_raise _ (by decide) _ _) (fun _ _ => failsAs_success _ _)
  case codeExtract =>
    exact codeExtractBody_elim s (fun _ => failsAs_raise _ (by decide) _ _) (fun _ => failsAs_success _ _)
  case treeSerialize =>
    exact treeSerializeBody_elim s (fun _ => failsAs_raise _ (by decide) _ _)
      (fun _ _ => failsAs_raise _ (by decide) _ _) (fun _ _ => failsAs_success _ _)
  case treeDeserialize =>
    exact treeDeserializeBody_elim s (fun _ => failsAs_raise _ (by decide) _ _)
      (fun _ _ _ => failsAs_raise _ (by decide) _ _) (fun _ _ _ => failsAs_success _ _)
  case encodeData =>
    exact encodeDataBody_elim s (fun _ => failsAs_raise _ (by decide) _ _)
      (fun _ _ => failsAs_raise _ (by decide) _ _) (fun _ _ _ => failsAs_raise _ (by decide) _ _)
      (fun c k _ _ _ h => failsAs_raise _ (by rcases encodeLoop_error_code h with rfl | rfl <;> decide) _ _)
      (fun _ _ _ _ _ => failsAs_success _ _)
  case decodeData =>
    exact decodeDataBody_elim s (fun _ => failsAs_raise _ (by decide) _ _)
      (fun _ _ => failsAs_raise _ (by decide) _ _) (fun _ _ _ => failsAs_raise _ (by decide) _ _)
      (fun c k _ _ _ h => failsAs_raise _ (decodeBits_error_ne_ok h) _ _) (fun _ _ _ _ _ => failsAs_success _ _)

/-! ### Sequences: what every step keeps, the sequence keeps -/

/-- The state a result leaves, before its completion. -/
def Result.state : Result → State
  | .success t => t
  | .failed _ t => t

/-- A property of the state that the completion writes do not touch holds of the completed state. -/
theorem complete_of_state {P : State → Prop} (hP : ∀ t c n o, P t → P (t.completeWith c n o)) {r : Result}
    (h : P r.state) : P (complete r) := by
  cases r with
  | success t => exact hP _ _ _ _ h
  | failed e t => exact hP _ _ _ _ h

theorem Result.andThen_state {P : State → Prop} {r : Result} {f : State → Result} (h : P r.state)
    (hf : ∀ t, P t → P (f t).state) : P (r.andThen f).state := by
  cases r with
  | success t => exact hf t h
  | failed e t => exact h

/-- What the primitives keep, every command keeps: a property that does not look at OUT_LEN's reset to 0. -/
theorem body_keeps {P : State → Prop} (h0 : ∀ s, P s → P { s with outLen := 0 })
    (hp : ∀ i s, i ∉ [Instr.compress, .decompress] → P s → P (body i s).state) (i : Instr) {s : State} (h : P s) :
    P (body i s).state := by
  by_cases hc : i = .compress
  · subst hc
    show P (compressBody s).state
    unfold compressBody
    refine Result.andThen_state (Result.andThen_state (Result.andThen_state (Result.andThen_state
      (Result.andThen_state (hp .freqBuild _ (by decide) (h0 s h)) ?_) ?_) ?_) ?_) ?_
    · exact fun t => hp .treeBuild t (by decide)
    · exact fun t => hp .codeExtract t (by decide)
    · exact fun t => hp .treeSerialize t (by decide)
    · exact fun t => hp .encodeData t (by decide)
    · exact fun t => hp .pack t (by decide)
  · by_cases hd : i = .decompress
    · subst hd
      show P (decompressBody s).state
      unfold decompressBody
      refine Result.andThen_state (Result.andThen_state (hp .unpack _ (by decide) (h0 s h)) ?_) ?_
      · exact fun t => hp .treeDeserialize t (by decide)
      · exact fun t => hp .decodeData t (by decide)
    · exact hp i s (by simp [hc, hd]) h

/-! ### What the operand readings and bodies do not see: a completion -/

variable (s : State) (c : ErrCode) (n : Word) (o : Byte)

@[simp] theorem State.readIn_completeWith : (s.completeWith c n o).readIn = s.readIn := rfl
@[simp] theorem State.readOut_completeWith : (s.completeWith c n o).readOut = s.readOut := rfl
@[simp] theorem State.readBits_completeWith (k : Nat) : (s.completeWith c n o).readBits k = s.readBits k := rfl
@[simp] theorem State.readFreq_completeWith : (s.completeWith c n o).readFreq = s.readFreq := rfl
@[simp] theorem State.readArena_completeWith : (s.completeWith c n o).readArena = s.readArena := rfl
@[simp] theorem State.readCodes_completeWith (xs : List Byte) (d : Nat) :
    (s.completeWith c n o).readCodes xs d = s.readCodes xs d := rfl

/-- The completion `c n o` written over the state of a result. -/
def Result.over (c : ErrCode) (n : Word) (o : Byte) : Result → Result
  | .success t => .success (t.completeWith c n o)
  | .failed e t => .failed e (t.completeWith c n o)

@[simp] theorem complete_over (c : ErrCode) (n : Word) (o : Byte) (r : Result) :
    complete (r.over c n o) = complete r := by
  cases r <;> rfl

theorem Result.over_andThen {c : ErrCode} {n : Word} {o : Byte} {r : Result} {f : State → Result}
    (hf : ∀ t, f (t.completeWith c n o) = (f t).over c n o) :
    (r.over c n o).andThen f = (r.andThen f).over c n o := by
  cases r with
  | success t => exact hf t
  | failed e t => rfl

/-- No body reads or writes the completion registers. -/
theorem body_completeWith (i : Instr) : body i (s.completeWith c n o) = (body i s).over c n o := by
  have prim : ∀ (j : Instr) (t : State), j ≠ .compress → j ≠ .decompress →
      body j (t.completeWith c n o) = (body j t).over c n o := by
    intro j t h h'
    cases j
    case nop => rfl
    case compress => exact absurd rfl h
    case decompress => exact absurd rfl h'
    case out2in =>
      simp only [body]
      by_cases h1 : t.params.inCap < t.outLen.toNat
      · rw [out2inBody_capacity h1, out2inBody_capacity (s := t.completeWith c n o) h1]; rfl
      replace h1 := Nat.not_lt.1 h1
      rw [out2inBody_ok h1, out2inBody_ok (s := t.completeWith c n o) h1]; rfl
    case pack =>
      simp only [body]
      by_cases h1 : t.params.bbCap < t.bbLen.toNat
      · rw [packBody_long h1, packBody_long (s := t.completeWith c n o) h1]; rfl
      replace h1 := Nat.not_lt.1 h1
      by_cases h2 : t.params.outCap < ceil8 t.bbLen.toNat + 1
      · rw [packBody_room h1 h2, packBody_room (s := t.completeWith c n o) h1 h2]; rfl
      replace h2 := Nat.not_lt.1 h2
      rw [packBody_ok h1 h2, packBody_ok (s := t.completeWith c n o) h1 h2]; rfl
    case freqBuild =>
      simp only [body]
      by_cases h1 : t.params.inCap < t.inLen.toNat
      · rw [freqBuildBody_long h1, freqBuildBody_long (s := t.completeWith c n o) h1]; rfl
      replace h1 := Nat.not_lt.1 h1
      rw [freqBuildBody_ok h1, freqBuildBody_ok (s := t.completeWith c n o) h1]; rfl
    case treeBuild =>
      simp only [body]
      by_cases h1 : t.freqValid = false
      · rw [treeBuildBody_noFreq h1, treeBuildBody_noFreq (s := t.completeWith c n o) h1]; rfl
      replace h1 : t.freqValid = true := by simpa using h1
      have hr : (t.completeWith c n o).readFreq = t.readFreq := t.readFreq_completeWith c n o
      by_cases h2 : distinct t.readFreq.1 = 0
      · rw [treeBuildBody_empty h1 h2, treeBuildBody_empty (s := t.completeWith c n o) h1 (by rw [hr]; exact h2), hr]
        generalize t.readFreq = r
        rfl
      · rw [treeBuildBody_ok h1 h2, treeBuildBody_ok (s := t.completeWith c n o) h1 (by rw [hr]; exact h2), hr]
        generalize t.readFreq = r
        rfl
    case codeExtract =>
      simp only [body]
      by_cases h1 : t.treeValid = false
      · rw [codeExtractBody_noTree h1, codeExtractBody_noTree (s := t.completeWith c n o) h1]; rfl
      replace h1 : t.treeValid = true := by simpa using h1
      rw [codeExtractBody_ok h1, codeExtractBody_ok (s := t.completeWith c n o) h1]; rfl
    case treeSerialize =>
      simp only [body]
      by_cases h1 : t.treeValid = false
      · rw [treeSerializeBody_noTree h1, treeSerializeBody_noTree (s := t.completeWith c n o) h1]; rfl
      replace h1 : t.treeValid = true := by simpa using h1
      by_cases h2 : t.params.bbCap < t.treeBits.length
      · rw [treeSerializeBody_room h1 h2, treeSerializeBody_room (s := t.completeWith c n o) h1 h2]; rfl
      replace h2 := Nat.not_lt.1 h2
      rw [treeSerializeBody_ok h1 h2, treeSerializeBody_ok (s := t.completeWith c n o) h1 h2]; rfl
    case unpack =>
      simp only [body]
      by_cases h1 : t.params.inCap < t.inLen.toNat
      · rw [unpackBody_long h1, unpackBody_long (s := t.completeWith c n o) h1]; rfl
      replace h1 := Nat.not_lt.1 h1
      by_cases h2 : t.inLen.toNat = 0
      · rw [unpackBody_empty h1 h2, unpackBody_empty (s := t.completeWith c n o) h1 h2]; rfl
      by_cases h3 : 7 < t.control.1.toNat ∨ 8 * (t.inLen.toNat - 1) < t.control.1.toNat
      · rw [unpackBody_padding h1 h2 h3, unpackBody_padding (s := t.completeWith c n o) h1 h2 h3]; rfl
      obtain ⟨h3, h4⟩ := not_or.1 h3
      replace h3 := Nat.not_lt.1 h3
      replace h4 := Nat.not_lt.1 h4
      by_cases h5 : t.params.bbCap < 8 * (t.inLen.toNat - 1) - t.control.1.toNat
      · rw [unpackBody_room h1 h2 h3 h4 h5, unpackBody_room (s := t.completeWith c n o) h1 h2 h3 h4 h5]; rfl
      replace h5 := Nat.not_lt.1 h5
      rw [unpackBody_ok h1 h2 h3 h4 h5, unpackBody_ok (s := t.completeWith c n o) h1 h2 h3 h4 h5]; rfl
    case treeDeserialize =>
      simp only [body]
      by_cases h1 : t.params.bbCap < t.bbLen.toNat
      · rw [treeDeserializeBody_long h1, treeDeserializeBody_long (s := t.completeWith c n o) h1]; rfl
      replace h1 := Nat.not_lt.1 h1
      cases h2 : parseTree (t.readBits 0).1 with
      | error k =>
        rw [treeDeserializeBody_malformed h1 h2, treeDeserializeBody_malformed (s := t.completeWith c n o) h1 h2]; rfl
      | ok p => rw [treeDeserializeBody_ok h1 h2, treeDeserializeBody_ok (s := t.completeWith c n o) h1 h2]; rfl
    case encodeData =>
      simp only [body]
      by_cases h1 : t.codeValid = false
      · rw [encodeDataBody_noCode h1, encodeDataBody_noCode (s := t.completeWith c n o) h1]; rfl
      replace h1 : t.codeValid = true := by simpa using h1
      by_cases h2 : t.params.inCap < t.inLen.toNat
      · rw [encodeDataBody_long h1 h2, encodeDataBody_long (s := t.completeWith c n o) h1 h2]; rfl
      replace h2 := Nat.not_lt.1 h2
      by_cases h3 : t.params.bbCap < t.bbLen.toNat
      · rw [encodeDataBody_full h1 h2 h3, encodeDataBody_full (s := t.completeWith c n o) h1 h2 h3]; rfl
      replace h3 := Nat.not_lt.1 h3
      cases h4 : encodeLoop t.params.bbCap t.bbLen.toNat 0 t.inCodes.1 with
      | error e =>
        obtain ⟨x, k⟩ := e
        rw [encodeDataBody_error h1 h2 h3 h4, encodeDataBody_error (s := t.completeWith c n o) h1 h2 h3 h4]; rfl
      | ok b => rw [encodeDataBody_ok h1 h2 h3 h4, encodeDataBody_ok (s := t.completeWith c n o) h1 h2 h3 h4]; rfl
    case decodeData =>
      simp only [body]
      by_cases h1 : t.treeValid = false
      · rw [decodeDataBody_noTree h1, decodeDataBody_noTree (s := t.completeWith c n o) h1]; rfl
      replace h1 : t.treeValid = true := by simpa using h1
      by_cases h2 : t.params.bbCap < t.bbLen.toNat
      · rw [decodeDataBody_long h1 h2, decodeDataBody_long (s := t.completeWith c n o) h1 h2]; rfl
      replace h2 := Nat.not_lt.1 h2
      by_cases h3 : t.bbLen.toNat < t.cursor.toNat
      · rw [decodeDataBody_cursor h1 h2 h3, decodeDataBody_cursor (s := t.completeWith c n o) h1 h2 h3]; rfl
      replace h3 := Nat.not_lt.1 h3
      cases h4 : decodeBits t.readArena.1 t.root.toNat t.params.outCap t.cursor.toNat t.dataBits.1 with
      | error e =>
        obtain ⟨x, k⟩ := e
        rw [decodeDataBody_error h1 h2 h3 h4, decodeDataBody_error (s := t.completeWith c n o) h1 h2 h3 h4]; rfl
      | ok b => rw [decodeDataBody_ok h1 h2 h3 h4, decodeDataBody_ok (s := t.completeWith c n o) h1 h2 h3 h4]; rfl
  cases i
  case compress =>
    have h0 : freqBuildBody { s.completeWith c n o with outLen := 0 } =
        (freqBuildBody { s with outLen := 0 }).over c n o :=
      prim .freqBuild { s with outLen := 0 } (by decide) (by decide)
    have h1 (t : State) := prim .treeBuild t (by decide) (by decide)
    simp only [body] at h1
    show compressBody _ = (compressBody s).over c n o
    unfold compressBody
    rw [h0, Result.over_andThen (f := treeBuildBody) h1,
      Result.over_andThen (f := codeExtractBody) (fun t => prim .codeExtract t (by decide) (by decide)),
      Result.over_andThen (f := treeSerializeBody) (fun t => prim .treeSerialize t (by decide) (by decide)),
      Result.over_andThen (f := encodeDataBody) (fun t => prim .encodeData t (by decide) (by decide)),
      Result.over_andThen (f := packBody) (fun t => prim .pack t (by decide) (by decide))]
  case decompress =>
    have h0 : unpackBody { s.completeWith c n o with outLen := 0 } =
        (unpackBody { s with outLen := 0 }).over c n o :=
      prim .unpack { s with outLen := 0 } (by decide) (by decide)
    show decompressBody _ = (decompressBody s).over c n o
    unfold decompressBody
    rw [h0, Result.over_andThen (f := treeDeserializeBody) (fun t => prim .treeDeserialize t (by decide) (by decide)),
      Result.over_andThen (f := decodeDataBody) (fun t => prim .decodeData t (by decide) (by decide))]
  all_goals exact prim _ _ (by decide) (by decide)

end Sys2Proof.Machine
end

