-- ==== Sys2Proof/Laws/Operands.lean ====
section
/-!
SUPPORT. The operands ENGINE reads: how many there are, that each is a possible reading of its memory (10_state.md
R53), and that specified operands are read as they stand, without a draw.
-/

namespace Sys2Proof.Machine

variable (s : State)

@[simp] theorem State.readIn_length : s.readIn.1.length = s.inLen.toNat := by simp [State.readIn]
@[simp] theorem State.readOut_length : s.readOut.1.length = s.outLen.toNat := by simp [State.readOut]
@[simp] theorem State.readBits_length (k : Nat) : (s.readBits k).1.length = s.bbLen.toNat - k := by simp [State.readBits]
@[simp] theorem State.readFreq_length : s.readFreq.1.length = 256 := by simp only [State.readFreq, Memory.readRange_length]
@[simp] theorem State.readArena_length : s.readArena.1.length = s.nodeCnt.toNat := by simp [State.readArena]
@[simp] theorem State.arena_length : s.arena.length = s.nodeCnt.toNat := s.readArena_length
@[simp] theorem State.payload_length : s.payload.1.length = s.inLen.toNat - 1 := by simp [State.payload]
@[simp] theorem State.dataBits_length : s.dataBits.1.length = s.bbLen.toNat - s.cursor.toNat := by simp [State.dataBits]
@[simp] theorem State.inCodes_length : s.inCodes.1.length = s.inLen.toNat := by
  simp [State.inCodes, State.readCodes, Memory.readAll_length]

theorem State.readIn_reads : s.inBuf.Reads 0 s.readIn.1 := Memory.readRange_reads _ _ _ _ _
theorem State.readOut_reads : s.outBuf.Reads 0 s.readOut.1 := Memory.readRange_reads _ _ _ _ _
theorem State.readBits_reads (k : Nat) : s.bitBuf.Reads k (s.readBits k).1 := Memory.readRange_reads _ _ _ _ _
theorem State.readFreq_reads : s.freq.Reads 0 s.readFreq.1 := Memory.readRange_reads _ _ _ _ _
theorem State.dataBits_reads : s.bitBuf.Reads s.cursor.toNat s.dataBits.1 := Memory.readRange_reads _ _ _ _ _

/-- UNPACK reads the data bytes and the control byte, each once. -/
theorem State.payload_reads : s.inBuf.Reads 0 (s.payload.1 ++ [s.control.1]) := by
  intro j v hj hv
  simp only [List.length_append, State.payload_length, List.length_singleton] at hj
  rw [Nat.zero_add] at hv
  by_cases hl : j < s.inLen.toNat - 1
  · rw [List.getElem?_append_left (by simpa using hl)]
    exact Memory.readRange_reads freshByte s.inBuf 0 (s.inLen.toNat - 1) s.control.2 j v
      (by simpa using hl) (by rw [Nat.zero_add]; exact hv)
  · have : j = s.inLen.toNat - 1 := by omega
    subst this
    rw [List.getElem?_append_right (by simp)]
    simp [State.control, Memory.read, hv]

/-- A specified CODE entry is the one read for its symbol (R53). -/
theorem State.inCodes_get {k : Nat} {sym : Byte} {e : CodeEntry} (hk : s.readIn.1[k]? = some sym)
    (he : s.code.get? sym.toNat = some e) : s.inCodes.1[k]? = some e :=
  Memory.readAll_get freshCode s.code _ _ k sym.toNat e (by simp [hk]) he

/-- Specified input is read as it stands. -/
theorem State.readIn_specified {x : List Byte} (hl : s.inLen.toNat = x.length)
    (h : ∀ k, k < x.length → s.inBuf.get? k = x[k]?) : s.readIn = (x, s.draws) := by
  unfold State.readIn
  rw [hl]
  exact Memory.readRange_specified _ _ _ _ _ (fun j hj => by rw [Nat.zero_add]; exact h j hj)

/-- Specified bits are read as they stand. -/
theorem State.readBits_specified {b : List Bool} (hl : s.bbLen.toNat = b.length)
    (h : ∀ k, k < b.length → s.bitBuf.get? k = b[k]?) : s.readBits 0 = (b, s.draws) := by
  unfold State.readBits
  rw [hl]
  exact Memory.readRange_specified _ _ _ _ _ (fun j hj => by rw [Nat.zero_add]; exact h j hj)

/-- Specified counts are read as they stand. -/
theorem State.readFreq_specified {counts : List Word} (hl : counts.length = 256)
    (h : ∀ k, k < 256 → s.freq.get? k = counts[k]?) : s.readFreq = (counts, s.draws) := by
  have := Memory.readRange_specified freshCount s.freq 0 s.draws counts
    (fun j hj => by rw [Nat.zero_add]; exact h j (by omega))
  rwa [hl] at this

/-- A specified payload is read as it stands. -/
theorem State.payload_specified {x : List Byte} {c : Byte} (hl : s.inLen.toNat = x.length + 1)
    (h : ∀ k, k < x.length + 1 → s.inBuf.get? k = (x ++ [c])[k]?) :
    s.control = (c, s.draws) ∧ s.payload = (x, s.draws) := by
  have hc : s.control = (c, s.draws) := by
    have := h x.length (by omega)
    rw [List.getElem?_append_right (by omega), Nat.sub_self, List.getElem?_cons_zero] at this
    simp [State.control, Memory.read, hl, this]
  refine ⟨hc, ?_⟩
  unfold State.payload
  rw [hc, hl, Nat.add_sub_cancel]
  exact Memory.readRange_specified _ _ _ _ _ (fun j hj => by
    rw [Nat.zero_add, h j (by omega), List.getElem?_append_left hj])

/-- The entries of a specified arena are the entries of NODE. -/
theorem State.arena_getElem? {s : State} (h : s.node.covers s.nodeCnt.toNat = true) {j : Nat}
    (hj : j < s.nodeCnt.toNat) : s.arena[j]? = s.node.get? j := by
  obtain ⟨v, hv⟩ := Option.isSome_iff_exists.1 (Memory.covers_iff.1 h j hj)
  rw [hv]
  exact Memory.readRange_reads freshNode s.node 0 s.nodeCnt.toNat s.draws j v (by simpa using hj)
    (by rw [Nat.zero_add]; exact hv)

/-- A specified arena is read without a draw. -/
theorem State.readArena_specified {s : State} (h : s.node.covers s.nodeCnt.toNat = true) :
    s.readArena = (s.arena, s.draws) := by
  have := Memory.readRange_specified freshNode s.node 0 s.draws s.arena (fun j hj => by
    rw [Nat.zero_add, State.arena_getElem? h (by simpa using hj)])
  rw [State.arena_length] at this
  exact this

/-- The arena is what NODE and NODE_CNT say, once it is specified. -/
theorem State.arena_congr {s t : State} (h : s.node.covers s.nodeCnt.toNat = true) (hn : t.node = s.node)
    (hc : t.nodeCnt = s.nodeCnt) : t.arena = s.arena := by
  apply List.ext_getElem?
  intro j
  by_cases hj : j < s.nodeCnt.toNat
  · rw [State.arena_getElem? h hj, State.arena_getElem? (by rw [hn, hc]; exact h) (by rw [hc]; exact hj), hn]
  · rw [List.getElem?_eq_none (by simp only [State.arena_length, hc]; omega), List.getElem?_eq_none (by simp only [State.arena_length]; omega)]

/-- Where NODE holds the entries of a list and NODE_CNT their number, the arena is that list. -/
theorem State.arena_of_ofList {s : State} {es : List NodeEntry} (hn : s.node = Memory.ofList es)
    (hc : s.nodeCnt.toNat = es.length) : s.node.covers s.nodeCnt.toNat = true ∧ s.arena = es := by
  have hcov : s.node.covers s.nodeCnt.toNat = true := by
    rw [Memory.covers_iff]
    intro k hk
    rw [hn, Memory.get?_ofList]
    rw [hc] at hk
    simp [hk]
  refine ⟨hcov, ?_⟩
  apply List.ext_getElem?
  intro j
  by_cases hj : j < s.nodeCnt.toNat
  · rw [State.arena_getElem? hcov hj, hn, Memory.get?_ofList]
  · rw [List.getElem?_eq_none (by simp; omega), List.getElem?_eq_none (by omega)]

end Sys2Proof.Machine
end

