-- ==== Sys2Proof/Laws/Composite.lean ====
section
/-!
SUPPORT. COMPRESS as one run of its six primitives (46_encoder_decoder.md R124, R125): the tree of the input, the codes
of its bytes, and where the bits and the payload fit.
-/

namespace Sys2Proof.Machine

/-- The run of COMPRESS on a specified input: the tree `T` its counts make, a code of `T` for each of its bytes, the
payload's bytes and the registers where the bits fit, and a failure where they do not. -/
theorem compressBody_run (s : State) (x : List Byte) (hwf : paramsWellFormed s.params = true)
    (hil : s.inLen.toNat = x.length) (hx : x ≠ []) (hxc : x.length ≤ s.params.inCap)
    (hin : ∀ k, k < x.length → s.inBuf.get? k = x[k]?) :
    ∃ (T : Shape) (code : Byte → List Bool), IsTree (buildTree (freqOf x)).1 (buildTree (freqOf x)).2 T ∧
      T.size = (buildTree (freqOf x)).1.length ∧ (∀ sym ∈ x, T.decodes (code sym) = some sym) ∧
      let bits := T.encode ++ x.flatMap code
      ((bits.length ≤ s.params.bbCap → (bits.length + 7) / 8 + 1 ≤ s.params.outCap →
        ∃ t, body .compress s = .success t ∧ t.outLen.toNat = (packBytes bits).length ∧
          t.outBuf = s.outBuf.setList 0 (packBytes bits) ∧ t.bbLen.toNat = bits.length ∧ t.freqValid = true ∧
          t.treeValid = true ∧ t.codeValid = true ∧ t.params = s.params ∧ t.inBuf = s.inBuf) ∧
       ((s.params.bbCap < bits.length ∨ s.params.outCap < (bits.length + 7) / 8 + 1) → ∃ e t, body .compress s = .failed e t)) := by
  simp only [paramsWellFormed, bitCapOk, byteCapOk, Bool.and_eq_true, decide_eq_true_eq] at hwf
  have hbb : s.params.bbCap ≤ 2 ^ 25 := hwf.1.2.2
  have hbb1 : 4096 ≤ s.params.bbCap := hwf.1.2.1.2
  have hoo : s.params.outCap ≤ 2 ^ 22 := hwf.1.1.2.2
  have hii : s.params.inCap ≤ 2 ^ 22 := hwf.1.1.1.2
  have hne := distinct_freqOf hx (by omega)
  have hdl : distinct (freqOf x) ≤ 256 := by have := distinct_le (freqOf x); simpa [freqOf] using this
  have hok := buildTree_arenaOk hne (by simp [freqOf])
  have hbl := buildTree_length hne
  have hbr := buildTree_root hne
  have hsl := fun (sym : Byte) (hs : sym ∈ x) => buildTree_leaf_of_mem (x := x) (by omega) hs
  obtain ⟨T, hT, hTs⟩ := hok.isTree
  generalize hbt : buildTree (freqOf x) = bt at *
  generalize hdd : distinct (freqOf x) = dd at *
  -- FREQ_BUILD
  have hri : State.readIn { s with outLen := 0 } = (x, s.draws) := State.readIn_specified { s with outLen := 0 } hil hin
  have h1 := freqBuildBody_ok (s := { s with outLen := 0 }) (by show s.inLen.toNat ≤ _; rw [hil]; exact hxc)
  rw [hri] at h1
  simp only at h1
  rw [hdd] at h1
  generalize hf : freqOf x = fr at *
  have hfl : fr.length = 256 := by rw [← hf]; simp [freqOf]
  set s1 : State := { s with outLen := 0, freq := Memory.ofList fr, symCnt := BitVec.ofNat 9 dd, freqValid := true } with hs1
  have h1 : freqBuildBody { s with outLen := 0 } = .success s1 := h1
  -- TREE_BUILD
  have hrf : s1.readFreq = (fr, s.draws) := State.readFreq_specified s1 hfl (fun k _ => Memory.get?_ofList _ _)
  have h2 := treeBuildBody_ok (s := s1) rfl (by rw [hrf]; simp only [hdd]; exact hne)
  rw [hrf] at h2
  simp only [hbt, hdd] at h2
  set s2 : State := { s1 with node := Memory.ofList bt.1, root := BitVec.ofNat 9 bt.2, nodeCnt := BitVec.ofNat 10 (2 * dd - 1), symCnt := BitVec.ofNat 9 dd, treeValid := true, codeValid := false } with hs2
  have h2 : treeBuildBody s1 = .success s2 := h2
  have hcnt : s2.nodeCnt.toNat = bt.1.length := by simp [hs2]; omega
  have hroot : s2.root.toNat = bt.2 := by simp [hs2]; omega
  obtain ⟨hcov, har⟩ := State.arena_of_ofList (s := s2) (es := bt.1) rfl hcnt
  have hra := State.readArena_specified hcov
  rw [har] at hra
  -- CODE_EXTRACT
  have h3 := codeExtractBody_ok (s := s2) rfl
  rw [hra, hroot] at h3
  simp only at h3
  set s3 : State := { s2 with code := codeTable (codeWrites bt.1 bt.2), codeValid := true } with hs3
  have h3 : codeExtractBody s2 = .success s3 := h3
  -- codes
  have hcode : ∀ sym ∈ x, ∃ p, (codeTable (codeWrites bt.1 bt.2)).get? sym.toNat = some { present := true, path := p } ∧ T.decodes p = some sym := by
    intro sym hs
    obtain ⟨j, w, hj⟩ := hsl sym hs
    obtain ⟨p, hp⟩ := hok.code_of_leaf hT hj
    have hm := (mem_codeWrites hT (by omega)).2 hp
    rcases codeTable_get? (codeWrites bt.1 bt.2) sym.isLt with ⟨g1, g2⟩ | ⟨us, w, vs, g1, g2, g3, g4⟩
    · exact absurd rfl (g2 _ hm)
    · refine ⟨w.2, g4, ?_⟩
      have he : w.1 = sym := BitVec.eq_of_toNat_eq g2
      rw [← mem_codeWrites hT (by omega), g1, ← he]; simp
  let code : Byte → List Bool := fun sym => ((((codeTable (codeWrites bt.1 bt.2)).get? sym.toNat).map CodeEntry.path).getD [])
  have hcode2 : ∀ sym ∈ x, (codeTable (codeWrites bt.1 bt.2)).get? sym.toNat = some { present := true, path := code sym } ∧ T.decodes (code sym) = some sym := by
    intro sym hs
    obtain ⟨p, h1, h2⟩ := hcode sym hs
    have : code sym = p := by simp [code, h1]
    rw [this]; exact ⟨h1, h2⟩
  refine ⟨T, code, hT, hTs, fun sym hs => (hcode2 sym hs).2, ?_⟩
  intro bits
  -- TREE_SERIALIZE
  have hra3 : s3.readArena = (bt.1, s.draws) := hra
  have htb : s3.treeBits = T.encode := by
    unfold State.treeBits
    rw [hra3, treeBits_eq]
    show (shapeAt bt.1 bt.1.length s2.root.toNat).encode = _
    rw [hroot, hT.shapeAt (by omega)]
  have e1 := T.encode_length
  have e2 := T.size_add_one
  have h4 := treeSerializeBody_ok (s := s3) rfl (by rw [htb]; show _ ≤ s.params.bbCap; omega)
  rw [htb, hra3] at h4
  simp only at h4
  set s4 : State := { s3 with bitBuf := s.bitBuf.setList 0 T.encode, bbLen := BitVec.ofNat 32 T.encode.length } with hs4
  have h4 : treeSerializeBody s3 = .success s4 := h4
  have hbl4 : s4.bbLen.toNat = T.encode.length := by simp [hs4]; omega
  -- ENCODE_DATA
  have hri4 : s4.readIn = (x, s.draws) := State.readIn_specified s4 hil hin
  have hic : s4.inCodes.1 = x.map (fun sym => { present := true, path := code sym }) := by
    apply List.ext_getElem?
    intro j
    by_cases hj : j < x.length
    · rw [State.inCodes_get s4 (k := j) (sym := x[j]) (e := { present := true, path := code x[j] })]
      · simp [hj]
      · rw [hri4]; simp [hj]
      · exact (hcode2 _ (List.getElem_mem hj)).1
    · rw [List.getElem?_eq_none (by rw [State.inCodes_length]; show s.inLen.toNat ≤ _; omega), List.getElem?_eq_none (by simp; omega)]
  have hfm : (x.map (fun sym => ({ present := true, path := code sym } : CodeEntry))).flatMap CodeEntry.path = x.flatMap code := by
    rw [List.flatMap_map]
  have hblen : bits.length = T.encode.length + (x.flatMap code).length := List.length_append
  have pre : body .compress s = ((encodeDataBody s4).andThen packBody) := by
    show compressBody s = _
    unfold compressBody
    rw [h1, Result.andThen_success, h2, Result.andThen_success, h3, Result.andThen_success, h4, Result.andThen_success]
  by_cases hfit : bits.length ≤ s.params.bbCap
  · have hloop : encodeLoop s4.params.bbCap s4.bbLen.toNat 0 s4.inCodes.1 = .ok (x.flatMap code) := by
      rw [hic, ← hfm]
      apply encodeLoop_all
      · intro e he
        obtain ⟨y, -, rfl⟩ := List.mem_map.1 he
        rfl
      · rw [hfm, hbl4]; show _ ≤ s.params.bbCap; omega
    have h5 := encodeDataBody_ok (s := s4) rfl (by show s.inLen.toNat ≤ s.params.inCap; omega) (by rw [hbl4]; show _ ≤ s.params.bbCap; omega) hloop
    rw [hbl4] at h5
    set s5 : State := { s4 with bitBuf := s4.bitBuf.setList T.encode.length (x.flatMap code), bbLen := BitVec.ofNat 32 (T.encode.length + (x.flatMap code).length), draws := s4.inCodes.2 } with hs5
    have h5 : encodeDataBody s4 = .success s5 := h5
    have hbl5 : s5.bbLen.toNat = bits.length := by simp only [hs5, BitVec.toNat_ofNat]; omega
    have hrb : s5.readBits 0 = (bits, s5.draws) := State.readBits_specified s5 hbl5 (by
      intro k hk
      show Memory.get? ((s.bitBuf.setList 0 T.encode).setList T.encode.length (x.flatMap code)) k = _
      rw [Memory.get?_setList]
      split
      · next h => simp only [bits]; rw [List.getElem?_append_right h.1]
      · next h =>
        rw [Memory.get?_setList, if_pos (by omega)]
        simp only [bits, Nat.sub_zero]
        rw [List.getElem?_append_left (by omega)])
    refine ⟨?_, ?_⟩
    · intro _ hfo
      have h6 := packBody_ok (s := s5) (by rw [hbl5]; exact hfit) (by rw [hbl5]; exact hfo)
      rw [hrb, hbl5] at h6
      simp only at h6
      rw [pre, h5, Result.andThen_success, h6]
      refine ⟨_, rfl, ?_, rfl, hbl5, rfl, rfl, rfl, rfl, rfl⟩
      have : (packBytes bits).length = (bits.length + 7) / 8 + 1 := packBytes_length bits
      simp only [BitVec.toNat_ofNat]; omega
    · intro h
      have hfo := h.resolve_left (by omega)
      have h6 := packBody_room (s := s5) (by rw [hbl5]; exact hfit) (by rw [hbl5]; exact hfo)
      rw [pre, h5, Result.andThen_success, h6]
      exact ⟨_, _, rfl⟩
  · refine ⟨fun h => absurd h hfit, fun _ => ?_⟩
    cases hl : encodeLoop s4.params.bbCap s4.bbLen.toNat 0 s4.inCodes.1 with
    | error e =>
      obtain ⟨c, k⟩ := e
      have h5 := encodeDataBody_error (s := s4) rfl (by show s.inLen.toNat ≤ s.params.inCap; omega) (by rw [hbl4]; show _ ≤ s.params.bbCap; omega) hl
      rw [pre, h5]; exact ⟨_, _, rfl⟩
    | ok b =>
      obtain ⟨-, hb, hc⟩ := encodeLoop_ok hl
      rw [hic, hfm] at hb
      have := hc (by rw [hbl4]; show _ ≤ s.params.bbCap; omega)
      rw [hbl4, hb] at this
      exact absurd (show bits.length ≤ s.params.bbCap by rw [hblen]; exact this) hfit

end Sys2Proof.Machine
end

