-- ==== Sys2Proof/Laws/Parse.lean ====
section
/-!
SUPPORT. The parser of 45_tree_serdes.md R117: on an encoding it makes the entries of the shape, and it succeeds on
nothing else.
-/

namespace Sys2Proof.Machine

/-- The entries Parse makes for a tree whose root is entry `n`: pre-order, weights 0 (R117). -/
def Shape.entries : Nat → Shape → List NodeEntry
  | _, .leaf sym => [.leaf sym 0]
  | n, .fork l r =>
    .internal (BitVec.ofNat 9 (n + 1)) (BitVec.ofNat 9 (n + 1 + l.size)) 0 ::
      (l.entries (n + 1) ++ r.entries (n + 1 + l.size))

@[simp] theorem Shape.entries_length (T : Shape) (n : Nat) : (T.entries n).length = T.size := by
  induction T generalizing n with
  | leaf => rfl
  | fork l r hl hr => simp [Shape.entries, Shape.size, hl, hr]

theorem Shape.countP_entries (T : Shape) (n : Nat) : (T.entries n).countP NodeEntry.isLeaf = T.leaves := by
  induction T generalizing n with
  | leaf => rfl
  | fork l r hl hr => simp [Shape.entries, Shape.leaves, NodeEntry.isLeaf, hl, hr]

theorem Shape.weight_entries {T : Shape} {n : Nat} {e : NodeEntry} (h : e ∈ T.entries n) : e.weight = 0 := by
  induction T generalizing n with
  | leaf => simp only [Shape.entries, List.mem_singleton] at h; subst h; rfl
  | fork l r hl hr =>
    simp only [Shape.entries, List.mem_cons, List.mem_append] at h
    rcases h with rfl | h | h
    · rfl
    · exact hl h
    · exact hr h

/-- An arena that holds the entries of a tree in place is that tree, and its entries are visited in order. -/
theorem isTree_entries {arena : List NodeEntry} {T : Shape} {n : Nat} (hn : n + T.size ≤ 512)
    (h : ∀ j, j < T.size → arena[n + j]? = (T.entries n)[j]?) :
    IsTree arena n T ∧ ∀ fuel, T.size ≤ fuel → visits arena fuel n = List.range' n T.size := by
  induction T generalizing n with
  | leaf sym =>
    have h0 : arena[n]? = some (.leaf sym 0) := by simpa [Shape.entries] using h 0 (by simp [Shape.size])
    refine ⟨.leaf h0, ?_⟩
    intro fuel hf
    cases fuel with
    | zero => simp [Shape.size] at hf
    | succ fuel => simp [visits, h0, Shape.size]
  | fork l r hl hr =>
    simp only [Shape.size] at hn h
    have h0 := h 0 (by omega)
    simp only [Nat.add_zero, Shape.entries, List.getElem?_cons_zero] at h0
    have pl := l.size_pos
    have pr := r.size_pos
    obtain ⟨tl, vl⟩ := hl (n := n + 1) (by omega) (fun j hj => by
      have := h (j + 1) (by omega)
      rw [show n + (j + 1) = n + 1 + j by omega] at this
      rw [this, Shape.entries, List.getElem?_cons_succ, List.getElem?_append_left (by simpa using hj)])
    obtain ⟨tr, vr⟩ := hr (n := n + 1 + l.size) (by omega) (fun j hj => by
      have := h (l.size + j + 1) (by omega)
      rw [show n + (l.size + j + 1) = n + 1 + l.size + j by omega] at this
      rw [this, Shape.entries, List.getElem?_cons_succ, List.getElem?_append_right (by simp)]
      simp)
    have e1 : (BitVec.ofNat 9 (n + 1)).toNat = n + 1 := by simp; omega
    have e2 : (BitVec.ofNat 9 (n + 1 + l.size)).toNat = n + 1 + l.size := by simp; omega
    refine ⟨.fork h0 (e1.symm ▸ tl) (e2.symm ▸ tr), ?_⟩
    intro fuel hf
    cases fuel with
    | zero => simp [Shape.size] at hf
    | succ fuel =>
      simp only [Shape.size] at hf ⊢
      simp only [visits, h0, e1, e2]
      rw [vl fuel (by omega), vr fuel (by omega), List.range'_append_1,
        show l.size + r.size + 1 = (l.size + r.size) + 1 from rfl, List.range'_succ]

/-- Parse on an encoding that fits the arena: the entries of its tree, the cursor after it, and the bits after it. -/
theorem parse_encode {T : Shape} {fuel n c : Nat} {z : List Bool} (hn : n + T.size ≤ Config.nodeCap)
    (hf : Config.nodeCap + 1 ≤ fuel + n) :
    parse fuel n c (T.encode ++ z) =
      .ok { entries := T.entries n, cursor := c + T.encode.length, rest := z } := by
  induction T generalizing fuel n c z with
  | leaf sym =>
    cases fuel with
    | zero => simp only [Shape.size] at hn; omega
    | succ fuel =>
      simp only [Shape.size] at hn
      simp only [parse, Shape.encode, List.cons_append]
      rw [if_neg (by omega), if_neg (by simp)]
      have hd : (bits8 sym ++ z).drop 8 = z := by rw [List.drop_left' (by simp)]
      have ht : (bits8 sym ++ z).take 8 = bits8 sym := by rw [List.take_left' (by simp)]
      simp [hd, ht, Shape.entries]
  | fork l r hl hr =>
    cases fuel with
    | zero => simp only [Shape.size] at hn; omega
    | succ fuel =>
      simp only [Shape.size] at hn
      simp only [parse, Shape.encode, List.cons_append, List.append_assoc]
      rw [if_neg (by omega), hl (by omega) (by omega)]
      simp only [Shape.entries_length]
      have hp := l.size_pos
      rw [hr (by omega) (by omega)]
      simp only [Shape.entries, List.length_cons, List.length_append]
      congr 2
      omega

/-- Parse succeeds only on an encoding that fits the arena. -/
theorem parse_ok {fuel n c : Nat} {bits : List Bool} {p : Parsed} (h : parse fuel n c bits = .ok p) :
    ∃ T : Shape, bits = T.encode ++ p.rest ∧ p.entries = T.entries n ∧ p.cursor = c + T.encode.length ∧
      n + T.size ≤ Config.nodeCap := by
  induction fuel generalizing n c bits p with
  | zero => cases h
  | succ fuel ih =>
    unfold parse at h
    split at h
    · cases h
    · next hn =>
      split at h
      · cases h
      · next rest =>
        split at h
        · cases h
        · next hr =>
          injection h with h
          subst h
          refine ⟨.leaf (byteOf (rest.take 8)), ?_, rfl, ?_, by simp only [Shape.size]; omega⟩
          · simp only [Shape.encode]
            rw [bits8_byteOf (by simp; omega), List.cons_append, List.take_append_drop]
          · simp [Shape.encode]
      · next rest =>
        split at h
        · cases h
        · next left hl =>
          simp only at h
          split at h
          · cases h
          · next right hr =>
            injection h with h
            subst h
            obtain ⟨L, hL1, hL2, hL3, hL4⟩ := ih hl
            rw [hL2, Shape.entries_length] at hr
            obtain ⟨R, hR1, hR2, hR3, hR4⟩ := ih hr
            refine ⟨.fork L R, ?_, ?_, ?_, ?_⟩
            · simp [Shape.encode, hL1, hR1]
            · simp [Shape.entries, hL2, hR2]
            · simp only [hR3, hL3, Shape.encode, List.length_cons, List.length_append]; omega
            · simp only [Shape.size]; omega

/-! ### Where Parse fails -/

@[simp] theorem Token.isLeaf_fork : Token.isLeaf .fork = false := rfl
@[simp] theorem Token.isLeaf_leaf (sym : Byte) : Token.isLeaf (.leaf sym) = true := rfl

/-- The nodes of a tree in pre-order. -/
def Shape.tokens : Shape → List Token
  | .leaf sym => [.leaf sym]
  | .fork l r => .fork :: (l.tokens ++ r.tokens)

@[simp] theorem Shape.tokens_length (T : Shape) : T.tokens.length = T.size := by
  induction T with
  | leaf => rfl
  | fork l r hl hr => simp only [Shape.tokens, Shape.size, List.length_cons, List.length_append]; omega

theorem Shape.encode_tokens (T : Shape) : T.tokens.flatMap Token.encode = T.encode := by
  induction T with
  | leaf => simp [Shape.tokens, Token.encode, Shape.encode]
  | fork l r hl hr => simp [Shape.tokens, Token.encode, Shape.encode, List.flatMap_append, hl, hr]

/-- A list of nodes has at most one Leaf more than Internal nodes. -/
def AtMostATree (ts : List Token) : Prop := ts.countP Token.isLeaf ≤ ts.countP (fun a => !a.isLeaf) + 1

/-- No beginning of the nodes of a tree has more than one Leaf more than Internal nodes. -/
theorem Shape.take_tokens (T : Shape) (k : Nat) : AtMostATree (T.tokens.take k) := by
  induction T generalizing k with
  | leaf sym => cases k <;> simp [AtMostATree, Shape.tokens]
  | fork l r hl hr =>
    cases k with
    | zero => simp [AtMostATree]
    | succ k =>
      have h1 := hl k
      have h2 := hr (k - l.tokens.length)
      simp only [AtMostATree, Shape.tokens, List.take_succ_cons, List.take_append, List.countP_cons, List.countP_append,
        Token.isLeaf_fork, Bool.not_false, ↓reduceIte, Bool.false_eq_true] at h1 h2 ⊢
      omega

/-- A tree has exactly one Leaf more than Internal nodes. -/
theorem Shape.countP_tokens (T : Shape) :
    T.tokens.countP Token.isLeaf = T.tokens.countP (fun a => !a.isLeaf) + 1 := by
  induction T with
  | leaf sym => simp [Shape.tokens]
  | fork l r hl hr =>
    simp only [Shape.tokens, List.countP_cons, List.countP_append, Token.isLeaf_fork, Bool.not_false, ↓reduceIte,
      Bool.false_eq_true]
    omega

theorem unfinished_nil : Unfinished [] := fun k => by simp

/-- After an Internal node, an unfinished left child is unfinished. -/
theorem Unfinished.fork {ts : List Token} (h : Unfinished ts) : Unfinished (.fork :: ts) := by
  intro k
  cases k with
  | zero => simp
  | succ k =>
    have := h k
    simp only [List.take_succ_cons, List.countP_cons, Token.isLeaf_fork, Bool.not_false, ↓reduceIte, Bool.false_eq_true]
    omega

/-- After an Internal node and its whole left child, an unfinished right child is unfinished. -/
theorem Unfinished.fork_tokens {ts : List Token} (T : Shape) (h : Unfinished ts) :
    Unfinished (.fork :: (T.tokens ++ ts)) := by
  intro k
  cases k with
  | zero => simp
  | succ k =>
    have h1 := T.take_tokens k
    have h2 := h (k - T.tokens.length)
    simp only [AtMostATree, List.take_succ_cons, List.take_append, List.countP_cons, List.countP_append, Token.isLeaf_fork,
      Bool.not_false, ↓reduceIte, Bool.false_eq_true] at h1 h2 ⊢
    omega

/-- `ParseFailsAt` for a call of Parse with `n` entries allocated and the cursor at `c`. -/
def ParseFails (n c : Nat) (bits : List Bool) (e : Nat) : Prop :=
  ∃ (ts : List Token) (rest : List Bool), bits = ts.flatMap Token.encode ++ rest ∧ Unfinished ts ∧
    ((n + ts.length = 511 ∧ e = c + (ts.flatMap Token.encode).length) ∨
      (n + ts.length < 511 ∧ rest = [] ∧ e = c + (ts.flatMap Token.encode).length) ∨
      (n + ts.length < 511 ∧ (∃ symbol, rest = true :: symbol ∧ symbol.length < 8) ∧
        e = c + (ts.flatMap Token.encode).length + 1))

theorem parseFails_zero {bits : List Bool} {e : Nat} : ParseFails 0 0 bits e ↔ ParseFailsAt bits e := by
  simp only [ParseFails, ParseFailsAt, Nat.zero_add]

/-- Where Parse fails: at a node of the bits, by the check that fails there (R117). -/
theorem parse_error {fuel n c e : Nat} {bits : List Bool} (hn : n ≤ Config.nodeCap)
    (hf : Config.nodeCap + 1 ≤ fuel + n) (h : parse fuel n c bits = .error e) : ParseFails n c bits e := by
  have hcap : Config.nodeCap = 511 := rfl
  induction fuel generalizing n c bits e with
  | zero => omega
  | succ fuel ih =>
    unfold parse at h
    split at h
    · next hfull =>
      injection h with h
      exact ⟨[], bits, rfl, unfinished_nil, .inl ⟨by simp; omega, by simp [h]⟩⟩
    · next hroom =>
      split at h
      · injection h with h
        exact ⟨[], [], rfl, unfinished_nil, .inr (.inl ⟨by simp; omega, rfl, by simp [h]⟩)⟩
      · next rest =>
        split at h
        · next hr =>
          injection h with h
          exact ⟨[], true :: rest, rfl, unfinished_nil, .inr (.inr ⟨by simp; omega, ⟨rest, rfl, hr⟩, by simp [h]⟩)⟩
        · cases h
      · next rest =>
        split at h
        · next e' he =>
          injection h with h
          subst h
          obtain ⟨ts, z, h1, h2, h3⟩ := ih (by omega) (by omega) he
          refine ⟨.fork :: ts, z, by simp [Token.encode, h1], h2.fork, ?_⟩
          simp only [List.flatMap_cons, Token.encode, List.length_cons, List.length_append, List.length_nil]
          exact h3.imp (fun h => by omega) (Or.imp (fun h => ⟨by omega, h.2.1, by omega⟩)
            (fun h => ⟨by omega, h.2.1, by omega⟩))
        · next left hl =>
          simp only at h
          split at h
          · next e' he =>
            injection h with h
            subst h
            obtain ⟨L, hL1, hL2, hL3, hL4⟩ := parse_ok hl
            have hlen : left.entries.length = L.size := by rw [hL2]; simp
            obtain ⟨ts, z, h1, h2, h3⟩ := ih (by omega) (by omega) he
            refine ⟨.fork :: (L.tokens ++ ts), z, ?_, h2.fork_tokens L, ?_⟩
            · rw [hL1, h1]
              simp [Token.encode, List.flatMap_append, L.encode_tokens]
            · simp only [List.flatMap_cons, List.flatMap_append, L.encode_tokens, Token.encode, List.length_cons,
                List.length_append, List.length_nil, Shape.tokens_length]
              exact h3.imp (fun h => by omega) (Or.imp (fun h => ⟨by omega, h.2.1, by omega⟩)
                (fun h => ⟨by omega, h.2.1, by omega⟩))
          · cases h

/-- Parse fails at one place only. -/
theorem ParseFails.unique {n c e e' : Nat} {bits : List Bool} (h : ParseFails n c bits e) (h' : ParseFails n c bits e') :
    e = e' := by
  obtain ⟨ts, z, h1, -, h3⟩ := h
  obtain ⟨ts', z', h1', -, h3'⟩ := h'
  rw [h1] at h1'
  clear h1
  induction ts generalizing n c ts' with
  | nil =>
    cases ts' with
    | nil =>
      simp only [List.flatMap_nil, List.nil_append, List.length_nil, Nat.add_zero] at h1' h3 h3'
      subst h1'
      rcases h3 with h | ⟨h, rfl, h4⟩ | ⟨h, ⟨y, rfl, -⟩, h4⟩
      · omega
      · rcases h3' with h' | ⟨-, -, h'⟩ | ⟨-, ⟨y, hy, -⟩, -⟩
        · omega
        · omega
        · cases hy
      · rcases h3' with h' | ⟨-, hy, -⟩ | ⟨-, -, h'⟩
        · omega
        · cases hy
        · omega
    | cons t ts' =>
      simp only [List.flatMap_nil, List.nil_append, List.length_nil, List.length_cons, Nat.add_zero] at h1' h3 h3'
      have hlt : n < 511 := by rcases h3' with h | h | h <;> omega
      rcases h3 with h | ⟨-, rfl, -⟩ | ⟨-, ⟨y, rfl, hy⟩, -⟩
      · omega
      · cases t <;> simp [Token.encode] at h1'
      · cases t with
        | fork => simp [Token.encode] at h1'
        | leaf sym =>
          have := congrArg List.length h1'
          simp [Token.encode] at this
          omega
  | cons t ts ih =>
    cases ts' with
    | nil =>
      simp only [List.flatMap_nil, List.nil_append, List.length_nil, List.length_cons, Nat.add_zero] at h1' h3 h3'
      have hlt : n < 511 := by rcases h3 with h | h | h <;> omega
      rcases h3' with h | ⟨-, rfl, -⟩ | ⟨-, ⟨y, rfl, hy⟩, -⟩
      · omega
      · cases t <;> simp [Token.encode] at h1'
      · cases t with
        | fork => simp [Token.encode] at h1'
        | leaf sym =>
          have := congrArg List.length h1'
          simp [Token.encode] at this
          omega
    | cons t' ts' =>
      simp only [List.flatMap_cons, List.append_assoc] at h1'
      have htt : t = t' ∧ ts.flatMap Token.encode ++ z = ts'.flatMap Token.encode ++ z' := by
        cases t <;> cases t' <;> simp only [Token.encode, List.cons_append, List.nil_append, List.cons.injEq,
          Bool.false_eq_true, false_and, reduceCtorEq, true_and] at h1' ⊢
        · exact h1'
        · obtain ⟨h1, h2⟩ := List.append_inj h1' (by simp)
          exact ⟨by rw [bits8_injective h1], h2⟩
      obtain ⟨rfl, h2⟩ := htt
      refine ih (n := n + 1) (c := c + t.encode.length) ?_ _ h2 ?_
      · simp only [List.flatMap_cons, List.length_append, List.length_cons] at h3
        exact h3.imp (fun h => by omega) (Or.imp (fun h => ⟨by omega, h.2.1, by omega⟩)
          (fun h => ⟨by omega, h.2.1, by omega⟩))
      · simp only [List.flatMap_cons, List.length_append, List.length_cons] at h3'
        exact h3'.imp (fun h => by omega) (Or.imp (fun h => ⟨by omega, h.2.1, by omega⟩)
          (fun h => ⟨by omega, h.2.1, by omega⟩))

/-- Parsing a whole sequence fails at the one cursor of R117. -/
theorem parseTree_error {bits : List Bool} {e : Nat} (h : parseTree bits = .error e) :
    ParseFailsAt bits e ∧ ∀ c, ParseFailsAt bits c → c = e := by
  have h' := parse_error (Nat.zero_le _) (Nat.le_refl _) h
  exact ⟨parseFails_zero.1 h', fun c hc => (parseFails_zero.2 hc).unique h'⟩

/-- Parsing a whole sequence succeeds exactly on an encoding that fits, with what stands after it left over. -/
theorem parseTree_ok_iff {bits : List Bool} {p : Parsed} :
    parseTree bits = .ok p ↔
      ∃ T : Shape, bits = T.encode ++ p.rest ∧ T.size ≤ Config.nodeCap ∧
        p = { entries := T.entries 0, cursor := T.encode.length, rest := p.rest } := by
  constructor
  · intro h
    obtain ⟨T, h1, h2, h3, h4⟩ := parse_ok h
    refine ⟨T, h1, by omega, ?_⟩
    cases p
    simp_all
  · rintro ⟨T, h1, h2, h3⟩
    have := parse_encode (T := T) (fuel := Config.nodeCap + 1) (n := 0) (c := 0) (z := p.rest) (by omega) (by omega)
    rw [← h1] at this
    unfold parseTree
    rw [this, h3]
    simp

end Sys2Proof.Machine
end

