-- ==== Sys2Proof/Laws/PerInstr.lean ====
section
/-!
SUPPORT. Per command: its word's fields as 30_encoding.md R74 and R76 give them, and that the table's word decodes to it.
-/

namespace Sys2Proof.Laws.Encoding

/-- The word of the command has RSVD 0 and the command's OPCODE, R77 does not call it illegal, and read as the opcode
table numbers its bits it decodes to the command. -/
def Statement (i : Instr) : Prop :=
  rsvdField (encode i) = 0 ∧ opcodeField (encode i) = i.opcode ∧ wordWellFormed (encode i) = true ∧
    decodeTableWord 32 (encode i).toNat = some i

theorem nop : Statement .nop := by unfold Statement; decide

theorem freqBuild : Statement .freqBuild := by unfold Statement; decide

theorem treeBuild : Statement .treeBuild := by unfold Statement; decide

theorem codeExtract : Statement .codeExtract := by unfold Statement; decide

theorem treeSerialize : Statement .treeSerialize := by unfold Statement; decide

theorem encodeData : Statement .encodeData := by unfold Statement; decide

theorem pack : Statement .pack := by unfold Statement; decide

theorem unpack : Statement .unpack := by unfold Statement; decide

theorem treeDeserialize : Statement .treeDeserialize := by unfold Statement; decide

theorem decodeData : Statement .decodeData := by unfold Statement; decide

theorem compress : Statement .compress := by unfold Statement; decide

theorem decompress : Statement .decompress := by unfold Statement; decide

theorem out2in : Statement .out2in := by unfold Statement; decide

end Sys2Proof.Laws.Encoding
end

