-- ==== Sys2Proof/Laws/Step.lean ====
section
/-!
SUPPORT. What a step can do, said once: whose turn it is, and for each agent every way the step can end. The
invariants are proved from these.
-/

namespace Sys2Proof.Machine

@[simp] theorem State.takeTurn_eng (s : State) : s.takeTurn.eng = s.eng := by
  unfold State.takeTurn; split <;> rfl

/-- Taking a turn changes the schedule alone. -/
theorem State.takeTurn_eq (s : State) : ∃ l, s.takeTurn = { s with schedule := l } := by
  unfold State.takeTurn; split
  · exact ⟨_, rfl⟩
  · exact ⟨s.schedule, rfl⟩

theorem State.turn_of_idle {s : State} (h : s.eng = .idle) : s.turn = .host := by
  simp [State.turn, h]

theorem State.takeTurn_of_idle {s : State} (h : s.eng = .idle) : s.takeTurn = s := by
  simp [State.takeTurn, h]

theorem State.turn_of_no_input {s : State} {w : Word} (h : s.eng = .pending w) (hi : s.inputs = []) :
    s.turn = .engine := by
  simp [State.turn, State.hostEnabled, h, hi]

theorem State.takeTurn_of_no_input {s : State} (hi : s.inputs = []) : s.takeTurn = s := by
  simp [State.takeTurn, State.hostEnabled, hi]

theorem State.turn_of_both {s : State} {w : Word} (h : s.eng = .pending w) (hi : s.inputs ≠ []) :
    s.turn = s.schedule.headD .engine ∧ s.takeTurn = { s with schedule := s.schedule.tail } := by
  have : s.inputs.isEmpty = false := by cases hs : s.inputs <;> simp_all
  simp [State.turn, State.takeTurn, State.hostEnabled, h, this]

/-- ENGINE's step while a command is pending (R87). -/
theorem engineStep_of_decode {s : State} {w : Word} {i : Instr} (h : s.eng = .pending w) (hd : decode w = .ok i) :
    engineStep s = exec i s := by
  simp [engineStep, h, performWord, hd]

/-- ENGINE's step on an illegal word (R90). -/
theorem engineStep_of_illegal {s : State} {w : Word} {e : Reject} (h : s.eng = .pending w)
    (hd : decode w = .error e) :
    engineStep s = .next (s.completeWith .illegalCmd w (opcodeField w)) := by
  simp [engineStep, h, performWord, hd, finish, illegal]

/-- HOST's read: at address - BASE inside the region, the fault outside it (R54). -/
theorem hostStep_read {s : State} {addr : Nat} {size : AccessSize} {rest : List Input}
    (h : s.inputs = .read addr size :: rest) :
    hostStep s =
      if s.params.base ≤ addr ∧ addr < s.params.base + Config.regionSize then
        .next (busRead { s with inputs := rest } (addr - s.params.base) size)
      else .fault .outsideRegion := by
  simp only [hostStep, h, offsetOf]
  split <;> simp_all

/-- HOST's write: at address - BASE inside the region, the fault outside it (R54). -/
theorem hostStep_write {s : State} {addr : Nat} {size : AccessSize} {strobe : BitVec 4} {v : Word} {rest : List Input}
    (h : s.inputs = .write addr size strobe v :: rest) :
    hostStep s =
      if s.params.base ≤ addr ∧ addr < s.params.base + Config.regionSize then
        .next (busWrite { s with inputs := rest } (addr - s.params.base) size strobe v)
      else .fault .outsideRegion := by
  simp only [hostStep, h, offsetOf]
  split <;> simp_all

/-- Every way HOST's access can end in a next state, with the access it made. -/
theorem hostStep_cases {s t : State} (h : hostStep s = .next t) :
    t = s ∨ (∃ l offset size, t = busRead { s with inputs := l } offset size) ∨
      (∃ l addr size strobe v, s.inputs = .write addr size strobe v :: l ∧ s.params.base ≤ addr ∧
        t = busWrite { s with inputs := l } (addr - s.params.base) size strobe v) ∨
      (∃ l, t = { busRead s 0x028 .word with inputs := l }) ∨
      (∃ l, s.inputs = .powerOn :: l ∧ t = State.powerCycle { s with inputs := l }) := by
  unfold hostStep at h
  split at h
  · injection h with h; exact .inl h.symm
  · split at h
    · cases h
    · injection h with h; exact .inr (.inl ⟨_, _, _, h.symm⟩)
  · next addr size strobe v rest hin =>
    have hw := hostStep_write hin
    unfold hostStep at hw
    rw [hin] at hw
    simp only at hw
    rw [hw] at h
    split at h
    · next hb => injection h with h; exact .inr (.inr (.inl ⟨_, _, _, _, _, hin, hb.1, h.symm⟩))
    · cases h
  · injection h with h
    refine .inr (.inr (.inr (.inl ?_)))
    unfold waitStep at h
    simp only at h
    split at h
    · exact ⟨(busRead s 0x028 .word).inputs, h.symm⟩
    · exact ⟨_, h.symm⟩
  · next hin => injection h with h; exact .inr (.inr (.inr (.inr ⟨_, hin, h.symm⟩)))

/-- Every way a step can end in a next state: in its turn ENGINE performed the pending command or completed an illegal
word, or in its turn HOST made an access. -/
theorem step_cases {s t : State} (h : step s = .next t) :
    (s.turn = .engine ∧ ∃ l w i, s.eng = .pending w ∧ decode w = .ok i ∧ exec i { s with schedule := l } = .next t) ∨
      (s.turn = .engine ∧ ∃ l w, s.eng = .pending w ∧
        t = State.completeWith { s with schedule := l } .illegalCmd w (opcodeField w)) ∨
      (s.turn = .host ∧ ∃ l, hostStep { s with schedule := l } = .next t) ∨
      ∃ l, t = { s with schedule := l } := by
  obtain ⟨l, hl⟩ := s.takeTurn_eq
  unfold step at h
  rw [hl] at h
  split at h
  · next ht =>
    have hc : s.eng = .idle ∨ ∃ w, s.eng = .pending w := by cases s.eng <;> simp
    obtain he | ⟨w, he⟩ := hc
    · have : engineStep { s with schedule := l } = .next { s with schedule := l } := by
        unfold engineStep; simp only [he]
      rw [this] at h
      injection h with h
      exact .inr (.inr (.inr ⟨l, h.symm⟩))
    · cases hd : decode w with
      | ok i =>
        rw [engineStep_of_decode (s := { s with schedule := l }) he hd] at h
        exact .inl ⟨ht, l, w, i, he, hd, h⟩
      | error e =>
        rw [engineStep_of_illegal (s := { s with schedule := l }) he hd] at h
        injection h with h
        exact .inr (.inl ⟨ht, l, w, he, h.symm⟩)
  · next ht => exact .inr (.inr (.inl ⟨ht, l, h⟩))

/-- A step keeps a property that the model's own fields and the completion writes do not touch, if every body, every
write access and a power-on reset keep it. -/
theorem step_keeps {P : State → Prop}
    (hown : ∀ s d l sc a, P s → P { s with draws := d, inputs := l, schedule := sc, answers := a })
    (hcomp : ∀ s c n o, P s → P (s.completeWith c n o))
    (hbody : ∀ i s, P s → P (body i s).state)
    (hwrite : ∀ s v offset size strobe t, P s → WriteEffect s v (admitted s.params offset size strobe) t → P t)
    (hpower : ∀ s, P s → P s.powerCycle) {s t : State} (h : P s) (hs : step s = .next t) : P t := by
  have hsch : ∀ l, P { s with schedule := l } := fun l => hown s s.draws s.inputs l s.answers h
  rcases step_cases hs with ⟨-, l, w, i, -, -, he⟩ | ⟨-, l, w, -, rfl⟩ | ⟨-, l, he⟩ | ⟨l, rfl⟩
  · rw [exec_eq_next] at he
    subst he
    exact complete_of_state (P := P) hcomp (hbody i _ (hsch l))
  · exact hcomp _ _ _ _ (hsch l)
  · have hin : ∀ l', P { s with schedule := l, inputs := l' } := fun l' => hown s s.draws l' l s.answers h
    rcases hostStep_cases he with rfl | ⟨l', offset, size, rfl⟩ | ⟨l', addr, size, strobe, v, -, -, rfl⟩ | ⟨l', rfl⟩ |
      ⟨l', -, rfl⟩
    · exact hsch l
    · obtain ⟨a, d, e⟩ := busRead_frame { s with schedule := l, inputs := l' } offset size
      rw [e]
      exact hown s d l' l (a :: s.answers) h
    · obtain ⟨a, u, e, hu⟩ := busWrite_effect { s with schedule := l, inputs := l' } (addr - s.params.base) size strobe v
      rw [e]
      exact hown u u.draws u.inputs u.schedule (a :: u.answers) (hwrite _ _ _ _ _ _ (hin l') hu)
    · obtain ⟨a, d, e⟩ := busRead_frame { s with schedule := l } 0x028 .word
      rw [e]
      exact hown s d l' l (a :: s.answers) h
    · exact hpower _ (hin l')
  · exact hsch l

end Sys2Proof.Machine
end

