-- ==== Sys2Proof/Tests/Slice0.lean ====
section
/-!
SUPPORT. Tests: the checks of WellFormed, the words of every command, one step per command against the vectors of
spec/95_test_vectors.md, and a witness for the hypotheses of each statement. Expected values come from the spec.
-/

namespace Sys2Proof.Tests

open Sys2Proof Sys2Proof.Machine

-- One theorem is checked at a time: each waits for the kernel, and many at once would take much memory.
set_option Elab.async false

/-! ### Small states -/

/-- A device with the least capacities the vectors need (R8). -/
def small : Config.Params := { inCap := 16, outCap := 16, bbCap := 4096, base := 0 }

/-- After power-on reset. -/
def fresh : State := State.powerOn small

/-- `LOADIN xs`. -/
def withIn (xs : List Byte) (s : State) : State :=
  { s with inBuf := Memory.ofList xs, inLen := BitVec.ofNat 32 xs.length }

/-- `SETBITS bs`. -/
def withBits (bs : List Bool) (s : State) : State :=
  { s with bitBuf := Memory.ofList bs, bbLen := BitVec.ofNat 32 bs.length }

/-- OUT_BUF holds `xs` and OUT_LEN is their number. -/
def withOut (xs : List Byte) (s : State) : State :=
  { s with outBuf := Memory.ofList xs, outLen := BitVec.ofNat 32 xs.length }

/-- FREQ holds counts for all symbols: those listed, else 0. -/
def counts (ps : List (Nat × Nat)) : List Word :=
  (List.range 256).map (fun k => BitVec.ofNat 32 ((ps.lookup k).getD 0))

def withFreq (ps : List (Nat × Nat)) (s : State) : State :=
  { s with freq := Memory.ofList (counts ps), freqValid := true }

/-- NODE holds a tree. -/
def withTree (es : List NodeEntry) (root : BitVec 9) (s : State) : State :=
  { s with node := Memory.ofList es, root := root, nodeCnt := BitVec.ofNat 10 es.length, treeValid := true }

/-- CODE holds codes for the listed symbols; every other entry is absent. -/
def withCodes (ps : List (Byte × List Bool)) (s : State) : State :=
  { s with code := codeTable ps, codeValid := true }

/-- The bits of a string of 0 and 1. -/
def bits (text : String) : List Bool := text.toList.map (fun c => c == '1')

/-- The tree of V-TD-1: "ab" with a on the Left. -/
def abTree : List NodeEntry := [.internal 1 2 0, .leaf 0x61 0, .leaf 0x62 0]

/-- The tree of V-TS-4: a lone leaf x. -/
def xTree : List NodeEntry := [.leaf 0x78 0]

/-- The tree of V-TB-1, "aaaabbbcc". -/
def abcTree : List NodeEntry :=
  [.leaf 0x61 4, .leaf 0x62 3, .leaf 0x63 2, .internal 2 1 5, .internal 0 3 9]

/-- The codes of V-TB-1. -/
def abcCodes : List (Byte × List Bool) := [(0x61, [true]), (0x63, [false, true]), (0x62, [false, false])]

/-- The state after one step that performs the command word `w`; `s` itself when there is none. -/
def stepWord (w : Nat) (s : State) : State :=
  match step (s.withFetchWord 32 w) with
  | .next t => t
  | .fault _ => s
  | .refused _ => s

/-- The state after one step, `s` itself when there is none. -/
def next (s : State) : State :=
  match step s with
  | .next t => t
  | .fault _ => s
  | .refused _ => s

/-- The first n bytes of a memory, where specified. -/
def bytesOf (m : Memory Byte) (n : Nat) : List (Option Byte) := (List.range n).map m.get?

/-! ### WellFormed: an ill-formed term for each check -/

theorem test_wellFormed_all : Instr.all.all wellFormed = true := by decide
theorem test_wordWellFormed_rsvd : rsvdClear 0x00000130 = false ∧ wordWellFormed 0x00000130 = false := by decide
theorem test_wordWellFormed_opcode : opcodeKnown 0x00000016 = false ∧ wordWellFormed 0x00000016 = false := by decide
theorem test_params_suggested : paramsWellFormed Config.suggested = true ∧ paramsWellFormed small = true := by decide
theorem test_params_inCap : paramsWellFormed { small with inCap := 6 } = false ∧
    paramsWellFormed { small with inCap := 0 } = false ∧ paramsWellFormed { small with inCap := 4194308 } = false := by
  decide
theorem test_params_outCap : paramsWellFormed { small with outCap := 10 } = false := by decide
theorem test_params_bbCap : paramsWellFormed { small with bbCap := 4064 } = false ∧
    paramsWellFormed { small with bbCap := 4100 } = false ∧ paramsWellFormed { small with bbCap := 33554464 } = false := by
  decide
theorem test_params_base : paramsWellFormed { small with base := 4096 } = false := by decide

/-! ### Decoding: the words of R76, bit by bit; the words V-CTL-2 and V-CTL-3 are illegal -/

theorem test_decode_nop : decode 0b00000000000000000000000000000000 = .ok .nop := by decide
theorem test_decode_freqBuild : decode 0b00000000000000000000000000010000 = .ok .freqBuild := by decide
theorem test_decode_treeBuild : decode 0b00000000000000000000000000010001 = .ok .treeBuild := by decide
theorem test_decode_codeExtract : decode 0b00000000000000000000000000010010 = .ok .codeExtract := by decide
theorem test_decode_treeSerialize : decode 0b00000000000000000000000000010011 = .ok .treeSerialize := by decide
theorem test_decode_encodeData : decode 0b00000000000000000000000000010100 = .ok .encodeData := by decide
theorem test_decode_pack : decode 0b00000000000000000000000000010101 = .ok .pack := by decide
theorem test_decode_unpack : decode 0b00000000000000000000000000100000 = .ok .unpack := by decide
theorem test_decode_treeDeserialize : decode 0b00000000000000000000000000100001 = .ok .treeDeserialize := by decide
theorem test_decode_decodeData : decode 0b00000000000000000000000000100010 = .ok .decodeData := by decide
theorem test_decode_compress : decode 0b00000000000000000000000000110000 = .ok .compress := by decide
theorem test_decode_decompress : decode 0b00000000000000000000000000110001 = .ok .decompress := by decide
theorem test_decode_out2in : decode 0b00000000000000000000000001000000 = .ok .out2in := by decide
theorem test_decode_illegal : decode 0x00000016 = .error .unknownOpcode ∧ decode 0x00000130 = .error .reservedBits := by
  decide
theorem test_decodeTableWord : decodeTableWord 32 0x15 = some .pack ∧ decodeTableWord 32 0x115 = none := by decide

/-! ### One step per command -/

/-- V-CTL-1 -/
theorem test_nop : statusWord (stepWord 0x00 fresh) = 0x00000002 := by decide +kernel
/-- V-CTL-2 and V-CTL-3 -/
theorem test_illegal : statusWord (stepWord 0x16 fresh) = 0x00160106 ∧ (stepWord 0x16 fresh).errInfo = 0x16 ∧
    (stepWord 0x16 fresh).errOp = 0x16 ∧ statusWord (stepWord 0x130 fresh) = 0x00300106 ∧
    (stepWord 0x130 fresh).errInfo = 0x130 ∧ (stepWord 0x130 fresh).errOp = 0x30 := by decide +kernel

/-- V-CTL-5: OUT2IN of the payload of V-CMP-1 -/
theorem test_out2in : let t := stepWord 0x40 (withOut [0x58, 0x56, 0x3B, 0x17, 0x80, 0xA0, 0x05] fresh)
    t.inLen = 7 ∧ t.outLen = 7 ∧ statusWord t = 0x00400002 ∧
    bytesOf t.inBuf 8 = [some 0x58, some 0x56, some 0x3B, some 0x17, some 0x80, some 0xA0, some 0x05, none] := by
  decide +kernel
/-- V-CTL-7: OUT_LEN 6 over IN_CAP 4 -/
theorem test_out2in_capacity :
    let s := withOut [0x58, 0xD6, 0x1B, 0x12, 0x40, 0x06] { fresh with params := { small with inCap := 4 }, inLen := 3 }
    let t := stepWord 0x40 s
    t.err = .capacity ∧ t.errInfo = 6 ∧ t.errOp = 0x40 ∧ statusWord t = 0x00400606 ∧ t.inLen = 3 ∧ t.inBuf = [] := by
  decide +kernel

/-- V-PK-5 -/
theorem test_pack : let t := stepWord 0x15 (withBits (bits "101010101") fresh)
    bytesOf t.outBuf 4 = [some 0xAA, some 0x80, some 0x07, none] ∧ t.outLen = 3 ∧ t.pad = 7 ∧
    statusWord t = 0x00150002 := by decide +kernel
/-- V-PK-9: BB_LEN = BB_CAP + 1 -/
theorem test_pack_capacity : let t := stepWord 0x15 { fresh with bbLen := 4097, pad := 2, outLen := 9 }
    t.err = .capacity ∧ t.errInfo = 4097 ∧ t.errOp = 0x15 ∧ t.outLen = 0 ∧ t.pad = 2 := by decide +kernel

/-- V-UP-8: padding bits are not looked at -/
theorem test_unpack : let t := stepWord 0x20 (withIn [0xFF, 0x07] fresh)
    t.bitBuf = [(0, true)] ∧ t.bbLen = 1 ∧ t.pad = 7 ∧ t.err = .ok := by decide +kernel
/-- V-UP-3 and V-UP-4 -/
theorem test_unpack_padding : (stepWord 0x20 (withIn [0x01] fresh)).err = .invalidPadding ∧
    (stepWord 0x20 (withIn [0x01] fresh)).errInfo = 1 ∧
    statusWord (stepWord 0x20 (withIn [0x08] fresh)) = 0x00200406 ∧
    (stepWord 0x20 (withIn [0x08] fresh)).errInfo = 8 := by decide +kernel

/-- V-FQ-2 -/
theorem test_freqBuild : let t := stepWord 0x10 (withIn [0x00, 0x00, 0x01] fresh)
    t.freq.get? 0 = some 2 ∧ t.freq.get? 1 = some 1 ∧ t.freq.get? 2 = some 0 ∧ t.freq.get? 255 = some 0 ∧
    t.symCnt = 2 ∧ statusWord t = 0x00100012 := by decide +kernel
/-- V-FQ-5: IN_LEN 70000 over IN_CAP 65536 -/
theorem test_freqBuild_capacity :
    let t := stepWord 0x10 { State.reset with inLen := 70000, freqValid := true, symCnt := 3 }
    t.errInfo = 0x11170 ∧ t.errOp = 0x10 ∧ t.freqValid = false ∧ t.symCnt = 0 ∧ statusWord t = 0x00100606 := by
  decide +kernel

/-- V-TB-2: the ties of "abcc" -/
theorem test_treeBuild : let t := stepWord 0x11 (withFreq [(0x61, 1), (0x62, 1), (0x63, 2)] fresh)
    t.node = Memory.ofList [.leaf 0x61 1, .leaf 0x62 1, .leaf 0x63 2, .internal 0 1 2, .internal 2 3 4] ∧
    t.root = 4 ∧ t.nodeCnt = 5 ∧ t.symCnt = 3 ∧ statusWord t = 0x00110032 := by decide +kernel
/-- V-TB-6: a leaf pops before an Internal entry of the same weight -/
theorem test_treeBuild_leaf_first :
    let t := stepWord 0x11 (withFreq [(0, 1), (1, 1), (2, 2), (3, 3), (4, 5), (5, 8)] fresh)
    t.node = Memory.ofList [.leaf 0 1, .leaf 1 1, .leaf 2 2, .leaf 3 3, .leaf 4 5, .leaf 5 8, .internal 0 1 2,
      .internal 2 6 4, .internal 3 7 7, .internal 4 8 12, .internal 5 9 20] ∧ t.root = 10 := by decide +kernel

/-- V-TB-1 -/
theorem test_codeExtract : let t := stepWord 0x12 (withTree abcTree 4 fresh)
    t.code.get? 0x61 = some ⟨true, bits "1"⟩ ∧ t.code.get? 0x62 = some ⟨true, bits "00"⟩ ∧
    t.code.get? 0x63 = some ⟨true, bits "01"⟩ ∧ t.code.get? 0x64 = some ⟨false, []⟩ ∧
    statusWord t = 0x00120062 := by decide +kernel
/-- V-TD-7: of two leaves a, the Right one's code stands -/
theorem test_codeExtract_duplicate :
    (stepWord 0x12 (withTree [.internal 1 2 0, .leaf 0x61 0, .leaf 0x61 0] 0 fresh)).code.get? 0x61 =
      some ⟨true, bits "0"⟩ := by decide +kernel

/-- V-TS-1 -/
theorem test_treeSerialize : let t := stepWord 0x13 (withTree abcTree 4 fresh)
    t.bitBuf = Memory.ofList (bits "01011000010101100011101100010") ∧ t.bbLen = 29 := by decide +kernel
/-- V-TS-7 -/
theorem test_treeSerialize_noTree : let t := stepWord 0x13 { fresh with bbLen := 5 }
    t.bbLen = 0 ∧ t.errOp = 0x13 ∧ statusWord t = 0x00130806 := by decide +kernel

/-- V-TD-8: trailing bits are not parsed -/
theorem test_treeDeserialize : let t := stepWord 0x21 (withBits (bits "1011110001101") fresh)
    t.node = [(0, .leaf 0x78 0)] ∧ t.cursor = 9 ∧ t.nodeCnt = 1 ∧ t.symCnt = 1 ∧ t.root = 0 ∧
    statusWord t = 0x00210022 := by decide +kernel
/-- V-TD-3: symbol bits missing; V-TD-6: 600 "0" bits fill the arena -/
theorem test_treeDeserialize_malformed : let t := stepWord 0x21 (withTree abTree 0 (withBits (bits "10110000") fresh))
    (statusWord t = 0x00210306 ∧ t.errInfo = 1 ∧ t.errOp = 0x21 ∧ t.nodeCnt = 0 ∧ t.cursor = 0 ∧ t.node = []) ∧
    (match parseTree (List.replicate 600 false) with
      | .error c => c
      | .ok _ => 0) = 511 := ⟨by decide +kernel, by decide +kernel⟩

/-- V-ED-1 -/
theorem test_encodeData :
    let t := stepWord 0x14
      (withCodes abcCodes (withTree abcTree 4 (withIn [0x61, 0x61, 0x61, 0x61, 0x62, 0x62, 0x62, 0x63, 0x63] fresh)))
    t.bitBuf = Memory.ofList (bits "11110000000101") ∧ t.bbLen = 14 ∧ t.err = .ok := by decide +kernel
/-- V-ED-3: the third byte has no code -/
theorem test_encodeData_uncoded :
    let t := stepWord 0x14 (withCodes [(0x61, [true]), (0x62, [false])] (withTree abTree 0 (withIn [0x61, 0x62, 0x63] fresh)))
    t.errInfo = 2 ∧ t.errOp = 0x14 ∧ t.bbLen = 0 ∧ statusWord t = 0x00140A66 := by decide +kernel

/-- V-DD-2 -/
theorem test_decodeData :
    let t := stepWord 0x22 { withTree abTree 0 (withBits (bits "01011000011011000101010") fresh) with cursor := 19 }
    bytesOf t.outBuf 5 = [some 0x61, some 0x62, some 0x61, some 0x62, none] ∧ t.outLen = 4 ∧ t.err = .ok := by
  decide +kernel
/-- V-DD-8: the fifth emission over OUT_CAP 4 -/
theorem test_decodeData_capacity :
    let s := { withTree xTree 0 (withBits (bits "10111100011111") fresh) with
      cursor := 9, params := { small with outCap := 4 } }
    statusWord (stepWord 0x22 s) = 0x00220626 ∧ (stepWord 0x22 s).errInfo = 13 ∧ (stepWord 0x22 s).outLen = 0 := by
  decide +kernel

/-- V-CMP-1 -/
theorem test_compress : let t := stepWord 0x30 (withIn [0x61, 0x61, 0x61, 0x61, 0x62, 0x62, 0x62, 0x63, 0x63] fresh)
    bytesOf t.outBuf 8 = [some 0x58, some 0x56, some 0x3B, some 0x17, some 0x80, some 0xA0, some 0x05, none] ∧
    t.outLen = 7 ∧ t.bbLen = 43 ∧ t.pad = 5 ∧ statusWord t = 0x00300072 := by decide +kernel
/-- V-CMP-8 -/
theorem test_compress_empty : let t := stepWord 0x30 fresh
    t.err = .emptyInput ∧ t.errOp = 0x11 ∧ t.outLen = 0 ∧ statusWord t = 0x00300216 := by decide +kernel

/-- V-DCMP-9: nonzero padding bits -/
theorem test_decompress : let t := stepWord 0x31 (withIn [0x58, 0x56, 0x3B, 0x17, 0x80, 0xA7, 0x05] fresh)
    bytesOf t.outBuf 10 = [some 0x61, some 0x61, some 0x61, some 0x61, some 0x62, some 0x62, some 0x62, some 0x63,
      some 0x63, none] ∧ t.outLen = 9 ∧ t.cursor = 29 ∧ t.err = .ok := by decide +kernel
/-- V-DCMP-8: the code at bit 41 is incomplete -/
theorem test_decompress_truncated : let t := stepWord 0x31 (withIn [0x58, 0x56, 0x3B, 0x17, 0x80, 0xA0, 0x06] fresh)
    t.errInfo = 41 ∧ t.errOp = 0x22 ∧ t.bbLen = 42 ∧ t.cursor = 29 ∧ statusWord t = 0x00310526 := by decide +kernel

/-! ### The bus and the two schedules -/

/-- V-BUS-1 to V-BUS-6, read as the bus answers them -/
theorem test_busRead : (busRead fresh 0x000 .word).answers = [.readData 0x48554646 .okay] ∧
    (busRead State.reset 0x00C .word).answers = [.readData 0x00010144 .okay] ∧
    (busRead fresh 0x014 .word).answers = [.readData 0x000001FF .okay] ∧
    (busRead fresh 0x034 .word).answers = [.readData 0 .slverr] ∧
    (busRead fresh 0x002 .word).answers = [.readData 0 .slverr] := by decide +kernel

/-- V-BUS-11 and V-BUS-12: what is written reads back -/
theorem test_windows :
    (busRead (busWrite fresh 0x400000 .word 0xF 0x61626364) 0x400000 .word).answers =
      [.readData 0x61626364 .okay, .writeDone .okay] ∧
    (busWrite fresh 0x400000 .word 0xF 0x61626364).inBuf = [(0, 0x61), (1, 0x62), (2, 0x63), (3, 0x64)] ∧
    (busWrite fresh 0xC00000 .word 0xF 0x80000001).bitBuf.get? 31 = some true ∧
    (busWrite fresh 0xC00000 .word 0xF 0x80000001).bitBuf.get? 30 = some false := by decide +kernel

/-- The window words of V-TB-1 -/
theorem test_window_words :
    (readMapped (withTree abcTree 4 fresh) (.nodeWord 3 2)).1 = 2 ∧
    (readMapped (withTree abcTree 4 fresh) (.nodeWord 0 1)).1 = 0x80000061 ∧
    (readMapped (withCodes abcCodes fresh) (.codeWord 0x63 0)).1 = 0x80000002 ∧
    (readMapped (withCodes abcCodes fresh) (.codeWord 0x63 1)).1 = 0x40000000 := by decide +kernel

/-- V-CTL-8: a second CMD write while FREQ_BUILD is pending, and after it completed -/
def race (first : Agent) : State :=
  { withIn [0x61, 0x62] (fresh.issue 0x10) with inputs := hostCmd 0 .treeBuild, schedule := [first] }

theorem test_schedule_host : statusWord (next (next (race .host))) = 0x0010001A := by decide +kernel
theorem test_schedule_engine : (next (next (race .engine))).eng = .pending 0x11 ∧
    (next (next (race .engine))).overrun = false := by decide +kernel

/-- V-PRG-7: the soft reset discards COMPRESS, empties its Dest and leaves IN_BUF -/
theorem test_softReset : let t := busWrite ((withIn [0x61] fresh).issue 0x30) 0x020 .word 0xF 0x00000002
    statusWord t = 0 ∧ t.inLen = 0 ∧ t.inBuf = [(0, 0x61)] ∧ t.freq = [] ∧ t.eng = .idle := by decide +kernel

/-! ### Witnesses: for each statement with hypotheses, states and operands that meet them, clause by clause -/

/-- A command word pending. -/
def pend (w : Word) : State := fresh.issue w

/-- The state a command leaves. -/
def run (i : Instr) (s : State) : State :=
  match exec i s with
  | .next t => t
  | .fault _ => s
  | .refused _ => s

/-- A comb of n + 1 leaves. -/
def comb : Nat → Shape
  | 0 => .leaf 0
  | n + 1 => .fork (.leaf (BitVec.ofNat 8 (n + 1))) (comb n)

/-- The bytes of V-CMP-1. -/
def abcIn : List Byte := [0x61, 0x61, 0x61, 0x61, 0x62, 0x62, 0x62, 0x63, 0x63]

/-- The tree of V-TD-1 as a shape. -/
def abShape : Shape := .fork (.leaf 0x61) (.leaf 0x62)

theorem witness_ConstantRegistersAlwaysRead : fresh.eng = .idle ∧
    ∀ r ∈ [Reg.id, .version, .inCapR, .outCapR, .bbCapR, .nodeCapR], r ∈ Reg.all := by decide

/-- R130: the first and the last code. -/
theorem witness_StatusWordLayout : fresh.err = .ok ∧ { fresh with err := .uncodedSymbol }.err = .uncodedSymbol := by
  decide

theorem witness_DecodeEncodeAgree : decode 0x40 = .ok .out2in := by decide

theorem witness_StepPerformsTheDecodedCommand :
    (let s := race .engine
     s.eng = .pending 0x10 ∧ decode 0x10 = .ok .freqBuild ∧ s.turn = .engine ∧ s.inputs ≠ []) ∧
    (pend 0x15).eng = .pending 0x15 ∧ (pend 0x15).inputs = [] := by decide

theorem witness_IllegalWordCompletesWithError :
    (pend 0x16).eng = .pending 0x16 ∧ decode 0x16 = .error .unknownOpcode ∧ (pend 0x16).turn = .engine ∧
    decode 0x110 = .error .reservedBits ∧ (pend 0x110).turn = .engine := by decide

theorem witness_EitherAgentMayMoveWhilePending :
    (∀ a ∈ [Agent.host, .engine], (race a).eng = .pending 0x10 ∧ (race a).inputs ≠ [] ∧ (race a).schedule = [a]) ∧
    { race .host with schedule := [] }.inputs ≠ [] ∧ (race .host).turn = .host ∧
    fresh.eng = .idle ∧ fresh.inputs = [] ∧ fresh.turn = .host ∧
    { fresh with inputs := [.read 0xFFFFFF .word] }.inputs = [.read 0xFFFFFF .word] ∧
    { fresh with inputs := hostCmd 0 .nop }.inputs = [.write 0x024 .word 0xF 0] ∧
    { fresh with inputs := [.powerOn] }.inputs = [.powerOn] := by decide

/-- R54: the first and the last address of the region, and the addresses just outside it. -/
theorem test_region :
    let s := { fresh with params := { small with base := 0x2000000 } }
    (∀ addr ∈ [0x2000000, 0x2FFFFFC], offsetOf s.params addr = some (addr - 0x2000000)) ∧
    (∀ addr ∈ [0x1FFFFFC, 0x3000000], offsetOf s.params addr = none) ∧
    (next { s with inputs := [.read 0x2000004 .word] }).answers = [.readData 0x00010000 .okay] := by decide +kernel

theorem witness_CmdWriteIssues : fresh.eng = .idle := by decide

theorem witness_WritesWhilePendingAreDropped : (pend 0x10).eng = .pending 0x10 ∧
    admitted small 0x024 .word 0xF = some (.reg .cmd) ∧ admitted small 0x040 .word 0xF = some (.reg .inLen) ∧
    admitted small 0x40000C .word 0xF = some (.inWord 3) := by decide

theorem witness_ReadsWhilePending : (pend 0x10).eng = .pending 0x10 ∧
    admitted small 0x000 .word 0xF = some (.reg .id) ∧ admitted small 0x020 .word 0xF = some (.reg .ctrl) ∧
    admitted small 0x024 .word 0xF = some (.reg .cmd) ∧ admitted small 0x05C .word 0xF = some (.reg .pad) ∧
    admitted small 0x1000 .word 0xF = some (.freqWord 0) ∧ admitted small 0x80000C .word 0xF = some (.outWord 3) ∧
    (∀ tg ∈ [Target.reg .cmd, .reg .inLen, .reg .pad, .freqWord 0, .outWord 3],
      tg ∉ [Target.reg .id, .reg .version, .reg .inCapR, .reg .outCapR, .reg .bbCapR, .reg .nodeCapR,
        .reg .ctrl, .reg .status]) := by decide

theorem witness_UnadmittedAccessesGetSlverr : AccessSize.half ≠ .word ∧ (0x7 : BitVec 4) ≠ 0xF ∧ 0x042 % 4 ≠ 0 ∧
    target small 0x018 = none ∧ target small 0x060 = none ∧ target small 0xFFFFFC = none := by decide

theorem witness_AddressMapRegions : paramsWellFormed small = true ∧
    (∀ o ∈ [0x000, 0x014, 0x020, 0x030, 0x040, 0x05C, 0x1000, 0x13FC, 0x2000, 0x3FEC, 0x4000, 0x7FFC, 0x400000, 0x40000C,
      0x800000, 0x80000C, 0xC00000, 0xC001FC], (target small o).isSome = true) ∧
    (∀ o ∈ [0x018, 0x01C, 0x034, 0x03C, 0x060, 0xFFC, 0x1400, 0x1FFC, 0x3FF0, 0x3FFC, 0x8000, 0x3FFFFC, 0x400010, 0x7FFFFC,
      0x800010, 0xBFFFFC, 0xC00200, 0xFFFFFC], target small o = none) := by decide

/-- The reads of the windows of a device whose memories are in part specified: words that are specified, in part
specified and unspecified, and the last words. -/
theorem witness_AddressMapRegions_reads :
    let s := { withBits [true] (withOut [0x61, 0x62] fresh) with freq := [(0, 5)], inBuf := [(2, 0x63)] }
    (paramsWellFormed s.params = true ∧ s.eng = .idle) ∧
    (s.freq.get? 0 = some 5 ∧ s.freq.get? 255 = none) ∧
    (s.inBuf.get? 2 = some 0x63 ∧ s.inBuf.get? 3 = none ∧ s.inBuf.get? 15 = none ∧ 4 * 3 < s.params.inCap) ∧
    (s.outBuf.get? 1 = some 0x62 ∧ s.outBuf.get? 2 = none ∧ s.outBuf.get? 15 = none ∧ 4 * 3 < s.params.outCap) ∧
    (s.bitBuf.get? 0 = some true ∧ s.bitBuf.get? 31 = none ∧ s.bitBuf.get? 4095 = none ∧ 32 * 127 < s.params.bbCap) := by
  decide

/-- The draws of those words: byte 3 of IN word 0 is the third of three, bit 31 of BB word 0 the last of 31. -/
theorem test_unspecified : Memory.unspecified [(2, (0x63 : Byte))] 0 4 = 3 ∧
    Memory.unspecified [(2, (0x63 : Byte))] 0 3 = 2 ∧ Memory.unspecified [(0, true)] 0 32 = 31 ∧
    Memory.unspecified [(0, true)] 0 31 = 30 := by decide

theorem witness_ReadsHaveNoSideEffect : admitted fresh.params 0x028 .word 0xF = some (.reg .status) ∧
    fresh.eng = .idle ∧ (busRead fresh 0x028 .word).draws = fresh.draws ∧
    (busRead fresh 0x028 .half).draws = fresh.draws := by decide +kernel

/-- R33, R38, R41: narrow registers read zero-extended. -/
theorem test_registers : let s := { fresh with errOp := 0x22, root := 0x1FE, pad := 7 }
    (busRead s 0x030 .word).answers = [.readData 0x00000022 .okay] ∧
    (busRead s 0x050 .word).answers = [.readData 0x000001FE .okay] ∧
    (busRead s 0x05C .word).answers = [.readData 0x00000007 .okay] := by decide +kernel

theorem witness_ReadOnlyWritesAreIgnored : fresh.eng = .idle ∧
    admitted small 0x014 .word 0xF = some (.reg .nodeCapR) ∧ admitted small 0x05C .word 0xF = some (.reg .pad) ∧
    admitted small 0x13FC .word 0xF = some (.freqWord 255) ∧
    admitted small 0x3FEC .word 0xF = some (.nodeWord 510 3) ∧
    admitted small 0x7FFC .word 0xF = some (.codeWord 255 15) ∧
    admitted small 0x80000C .word 0xF = some (.outWord 3) := by decide

theorem witness_CtrlWriteRule : (0x1 : Word).getLsbD 1 = false ∧ (0x3 : Word).getLsbD 1 = true := by decide

theorem witness_SoftResetRule : fresh.destPending = [] ∧ fresh.eng = .idle ∧
    (pend 0x16).eng = .pending 0x16 ∧ decode 0x16 = .error .unknownOpcode ∧
    (pend 0x30).eng = .pending 0x30 ∧ decode 0x30 = .ok .compress := by decide

theorem witness_windows : fresh.eng = .idle ∧ admitted small 0x40000C .word 0xF = some (.inWord 3) ∧
    admitted small 0xC001FC .word 0xF = some (.bbWord 127) := by decide

theorem witness_NodeWindowLayout : let s := withTree abcTree 4 fresh
    s.eng = .idle ∧ (0 < s.nodeCnt.toNat ∧ s.node.get? 0 = some (.leaf 0x61 4)) ∧
    (4 < s.nodeCnt.toNat ∧ s.node.get? 4 = some (.internal 0 3 9)) ∧ s.nodeCnt.toNat ≤ 5 ∧
    (let t := { s with nodeCnt := 6 }
     5 < t.nodeCnt.toNat ∧ t.node.get? 5 = none) := by decide

theorem witness_CodeWindowLayout :
    let s := { fresh with code := Memory.ofList [⟨true, List.replicate 255 true⟩, ⟨false, []⟩] }
    s.eng = .idle ∧ s.code.get? 0 = some ⟨true, List.replicate 255 true⟩ ∧
    (List.replicate 255 true).length ≤ 255 ∧ s.code.get? 1 = some ⟨false, []⟩ ∧ s.code.get? 2 = none := by decide +kernel

theorem witness_WaitPollsStatus : { pend 0x10 with inputs := hostWait }.inputs = [.wait] ∧
    { pend 0x10 with inputs := hostWait }.eng = .pending 0x10 ∧ { fresh with inputs := hostWait }.eng = .idle := by
  decide

theorem witness_InterruptLevel : (0x2 : Word).getLsbD 1 = true ∧ fresh.eng = .idle ∧ (0x0 : Word).getLsbD 0 = false ∧
    (let s := { pend 0x00 with irqEn := true }
     s.irqEn = true ∧ exec .nop s = .next (run .nop s)) := ⟨by decide, by decide, by decide, by decide, rfl⟩

theorem witness_Out2inRule : (withOut (List.replicate 16 0x00) fresh).outLen.toNat = 16 ∧ small.inCap = 16 ∧
    small.inCap < { fresh with outLen := 17 }.outLen.toNat := by decide

/-- BB_LEN 120 fills OUT_CAP 16; 121 is the first over it; 4096 is BB_CAP and 4097 the first over it. -/
theorem witness_PackRule : 120 ≤ small.bbCap ∧ (120 + 7) / 8 + 1 = small.outCap ∧ small.bbCap < 4097 ∧
    121 ≤ small.bbCap ∧ small.outCap < (121 + 7) / 8 + 1 ∧ { fresh with bbLen := 4097 }.bbLen.toNat = 4097 := by decide

/-- One byte x and the control byte: 7 and 8 where 8 bits are there, 1 where none is, and a BITBUF one bit short. -/
theorem witness_UnpackRule : small.inCap < { fresh with inLen := 17 }.inLen.toNat ∧ fresh.inLen.toNat = 0 ∧
    (∀ c ∈ [(7 : Byte), 8], bytesOf (withIn [0xFF, c] fresh).inBuf 2 = [some 0xFF, some c]) ∧
    bytesOf (withIn [0x01] fresh).inBuf 1 = [some 0x01] ∧ 8 * (1 - 1) < (0x01 : Byte).toNat ∧
    (7 ≤ 8 * (2 - 1) ∧ 8 * (2 - 1) - 7 ≤ small.bbCap) ∧ { small with bbCap := 0 }.bbCap < 8 * (2 - 1) - 7 := by decide

theorem witness_FreqBuildRule : paramsWellFormed small = true ∧
    (withIn (List.replicate 16 0x41) fresh).inLen.toNat = small.inCap ∧
    small.inCap < { fresh with inLen := 17 }.inLen.toNat := by decide

/-- No count, no symbol, one symbol, all 256 symbols. -/
theorem witness_TreeBuildRule : fresh.freqValid = false ∧
    (∀ ps, (withFreq ps fresh).freqValid = true ∧ ∀ k, (withFreq ps fresh).freq.get? k = (counts ps)[k]?) ∧
    counts [] = List.replicate 256 0 ∧ counts [(255, 3)] = List.replicate 255 0 ++ [3] ∧
    ∀ k, (Memory.ofList (List.replicate 256 (1 : Word))).get? k = (List.replicate 256 (1 : Word))[k]? :=
  ⟨by decide, fun _ => ⟨rfl, fun _ => Memory.get?_ofList _ _⟩, by decide +kernel, by decide +kernel,
    fun _ => Memory.get?_ofList _ _⟩

/-- V-TB-1's counts, with the Internal entry 3, and a sum of 2^32 - 1. -/
theorem witness_MergeTakesTheTwoLeast :
    (∀ ps, (withFreq ps fresh).freqValid = true ∧ (counts ps).length = 256 ∧
      ∀ k, k < 256 → (withFreq ps fresh).freq.get? k = (counts ps)[k]?) ∧
    (∀ ps ∈ [[(0x61, 4), (0x62, 3), (0x63, 2)], [(0, 4294967294), (255, 1)]],
      ((counts ps).map BitVec.toNat).sum < 2 ^ 32) ∧
    (counts [(0x61, 4), (0x62, 3), (0x63, 2)]).getD 0x61 0 ≠ 0 ∧
    (stepWord 0x11 (withFreq [(0x61, 4), (0x62, 3), (0x63, 2)] fresh)).node.get? 3 = some (.internal 2 1 5) :=
  ⟨fun _ => ⟨rfl, by simp [counts], fun _ _ => Memory.get?_ofList _ _⟩, by decide +kernel, by decide +kernel,
    by decide +kernel⟩

theorem witness_RootWeightIsTheSumOfCounts :
    ((counts [(0, 4294967294), (255, 1)]).map BitVec.toNat).sum = 2 ^ 32 - 1 ∧
    (counts [(0, 4294967294), (255, 1)]).getD 255 0 ≠ 0 := by decide +kernel

/-- A tree, a lone leaf, no tree. -/
theorem witness_CodeExtractRule : fresh.treeValid = false ∧
    (withTree abcTree 4 fresh).treeValid = true ∧ (withTree abcTree 4 fresh).TreeOk ∧
    (withTree xTree 0 fresh).treeValid = true ∧ (withTree xTree 0 fresh).TreeOk := by
  unfold State.TreeOk ArenaOk
  decide +kernel

theorem witness_CodesArePrefixFree : (withTree abcTree 4 fresh).treeValid = true ∧
    (stepWord 0x12 (withTree abcTree 4 fresh)).code.get? 0x62 = some ⟨true, bits "00"⟩ ∧
    (stepWord 0x12 (withTree abcTree 4 fresh)).code.get? 0x63 = some ⟨true, bits "01"⟩ := by decide +kernel

/-- The 29 bits of V-TS-1 against BB_CAP 28 and 29. -/
theorem witness_TreeSerializeRule : fresh.treeValid = false ∧
    ∀ cap ∈ [28, 29], (let s := withTree abcTree 4 { fresh with params := { small with bbCap := cap } }
     s.treeValid = true ∧ (shapeAt s.arena s.nodeCnt.toNat s.root.toNat).encode.length = 29) := by decide +kernel

theorem witness_TreeEncodingLength : paramsWellFormed small = true ∧ (withTree xTree 0 fresh).treeValid = true ∧
    (withTree xTree 0 fresh).TreeOk ∧ (withTree abcTree 4 fresh).TreeOk := by
  unfold State.TreeOk ArenaOk
  decide +kernel

/-- BB_LEN over BB_CAP; the largest tree, with bits after it; no bit at all, which begins with no encoding. -/
theorem witness_TreeDeserializeRule : small.bbCap < { fresh with bbLen := 4097 }.bbLen.toNat ∧
    (comb 255).size = 511 ∧ (withBits ((comb 255).encode ++ [true]) fresh).bbLen.toNat = 2560 ∧
    fresh.bbLen.toNat = 0 := by decide +kernel

theorem witness_TreeDeserializeRule_empty (T : Shape) (z : List Bool) (h : [] = T.encode ++ z) : 511 < T.size := by
  cases T <;> simp [Shape.encode] at h

/-- The encoding of a tree of 513 nodes begins with no smaller one's. -/
theorem witness_TreeDeserializeRule_large (T : Shape) (z : List Bool) (h : (comb 256).encode = T.encode ++ z) :
    511 < T.size := by
  have h' : (comb 256).encode ++ [] = T.encode ++ z := by rw [List.append_nil, h]
  rw [← (Shape.encode_append_inj h').1]
  decide +kernel

/-- V-TD-2, V-TD-3, V-TD-4 and V-TD-6: the cursor at the check that fails. -/
theorem witness_TreeDeserializeRule_fails : ParseFailsAt [] 0 ∧ ParseFailsAt (bits "10110000") 1 ∧
    ParseFailsAt [false] 1 ∧ ParseFailsAt (List.replicate 600 false) 511 := by
  refine ⟨⟨[], [], rfl, unfinished_nil, .inr (.inl ⟨by decide, rfl, rfl⟩)⟩,
    ⟨[], bits "10110000", rfl, unfinished_nil, .inr (.inr ⟨by decide, ⟨bits "0110000", rfl, by decide⟩, rfl⟩)⟩,
    ⟨[.fork], [], rfl, unfinished_nil.fork, .inr (.inl ⟨by decide, rfl, rfl⟩)⟩,
    ⟨List.replicate 511 .fork, List.replicate 89 false, ?_, ?_, .inl ⟨List.length_replicate, ?_⟩⟩⟩
  · decide +kernel
  · intro k
    rw [List.take_replicate, List.countP_replicate, List.countP_replicate, Token.isLeaf_fork]
    exact Nat.zero_le _
  · decide +kernel

theorem witness_SerializationRoundTrip :
    let u := withTree abTree 0 fresh
    let code := abShape.encode ++ [true, false]
    let s := withBits code fresh
    u.TreeOk ∧ shapeAt u.arena u.nodeCnt.toNat u.root.toNat = abShape ∧ s.bbLen.toNat = code.length ∧
    code.length ≤ s.params.bbCap ∧ ∀ k, k < code.length → s.bitBuf.get? k = code[k]? := by
  unfold State.TreeOk ArenaOk
  decide +kernel

/-- Two input bytes whose codes of one bit each just fit BB_CAP 4096 from 4094 on, the second of which is over it from
4095 on, and a byte without a code. -/
theorem witness_EncodeDataRule :
    (fresh.codeValid = false) ∧
    (withCodes [] { fresh with inLen := 17 }).codeValid = true ∧ small.inCap < { fresh with inLen := 17 }.inLen.toNat ∧
    small.bbCap < { fresh with bbLen := 4097 }.bbLen.toNat ∧
    (let s := withCodes [(0x61, [true]), (0x62, [false])] (withIn [0x61, 0x62, 0x63] fresh)
     s.code.get? 0x61 = some ⟨true, [true]⟩ ∧ s.code.get? 0x62 = some ⟨true, [false]⟩ ∧
     s.code.get? 0x63 = some ⟨false, []⟩ ∧ 4094 + [true, false].length ≤ s.params.bbCap ∧
     4095 + [true].length ≤ s.params.bbCap ∧ s.params.bbCap < 4095 + [true].length + [false].length) := by
  decide +kernel

/-- Cursor at BB_LEN and past it; a walk that ends well and one that ends in an error. -/
theorem witness_DecodeDataRule : fresh.treeValid = false ∧
    (let s := { withTree abTree 0 fresh with bbLen := 4097 }
     s.treeValid = true ∧ s.params.bbCap < s.bbLen.toNat) ∧
    (let s := { withTree abTree 0 (withBits [true, false] fresh) with cursor := 3 }
     s.bbLen.toNat ≤ s.params.bbCap ∧ s.bbLen.toNat < s.cursor.toNat) ∧
    (let s := { withTree abTree 0 (withBits [true, false] fresh) with cursor := 2 }
     s.cursor.toNat ≤ s.bbLen.toNat ∧ decodeBits s.arena s.root.toNat s.params.outCap 2 [] = .ok []) ∧
    decodeBits abcTree 4 16 0 [true, false, true] = .ok [0x61, 0x63] ∧
    decodeBits abcTree 4 16 0 [true, false] = .error (.truncatedWalk, 1) := by
  refine ⟨by decide, by decide, by decide, ⟨by decide, rfl⟩, rfl, rfl⟩

theorem witness_DecodeWalkFollowsTheTree : ArenaOk abcTree 4 ∧ (∃ l r w, abcTree[4]? = some (.internal l r w)) ∧
    (∀ p ∈ [([true], (0x61 : Byte)), ([false, true], 0x63)], LeadsTo abcTree 4 p.1 p.2) ∧
    (∃ n l r w, follow abcTree 4 [false] = some n ∧ abcTree[n]? = some (.internal l r w)) := by
  refine ⟨by unfold ArenaOk; decide +kernel, ⟨0, 3, 9, rfl⟩, ?_, ⟨3, 2, 1, 5, rfl, rfl⟩⟩
  intro p hp
  simp only [List.mem_cons, List.not_mem_nil, or_false] at hp
  rcases hp with rfl | rfl
  · exact ⟨0, 4, rfl, rfl⟩
  · exact ⟨2, 2, rfl, rfl⟩

theorem witness_LoneLeafDecoding : xTree[0]? = some (.leaf 0x78 0) := by decide

/-- V-CMP-1: 43 bits, 7 payload bytes. -/
theorem witness_CompressLeavesTheWirePayload :
    let s := withIn abcIn fresh
    let u := run .treeBuild { s with freqValid := true, freq := Memory.ofList (freqOf abcIn) }
    let T := shapeAt u.arena u.nodeCnt.toNat u.root.toNat
    let code := fun b : Byte => (abcCodes.lookup b).getD []
    let code := T.encode ++ abcIn.flatMap code
    paramsWellFormed s.params = true ∧ s.inLen.toNat = abcIn.length ∧ abcIn ≠ [] ∧ abcIn.length ≤ s.params.inCap ∧
    (∀ k, k < abcIn.length → s.inBuf.get? k = abcIn[k]?) ∧ code.length = 43 ∧ code.length ≤ s.params.bbCap ∧
    (code.length + 7) / 8 + 1 ≤ s.params.outCap := by decide +kernel

theorem witness_CompressRejectsEmptyInput : fresh.inLen = 0 := by decide

theorem witness_ShortPayloadsFail : paramsWellFormed small = true ∧ fresh.inLen.toNat = 0 ∧
    (withIn [0xFF, 0x07] fresh).inLen.toNat = 2 ∧
    ∀ k, k < 2 → ((withIn [0xFF, 0x07] fresh).inBuf.get? k).isSome = true := by decide +kernel

/-- A tree with 16 codes, which fill OUT_CAP 16; and a lone leaf. -/
theorem witness_DecompressDecodesThePayload :
    ∀ Tp ∈ [(abShape, List.replicate 16 ([true], (0x61 : Byte))), (.leaf 0x78, [([true], 0x78)])],
    let code := Tp.1.encode ++ Tp.2.flatMap Prod.fst
    let y := packBytes code
    let s := withIn y fresh
    paramsWellFormed s.params = true ∧ Tp.1.size ≤ 511 ∧ (∀ p ∈ Tp.2, Tp.1.decodes p.1 = some p.2) ∧
    s.inLen.toNat = y.length ∧ y.length ≤ s.params.inCap ∧ (∀ k, k < y.length → s.inBuf.get? k = y[k]?) ∧
    code.length ≤ s.params.bbCap ∧ Tp.2.length ≤ s.params.outCap := by decide +kernel

theorem witness_DecompressDependsOnlyOnThePayload :
    let y : List Byte := [0x58, 0x56, 0x3B, 0x17, 0x80, 0xA0, 0x05]
    let s := withIn y fresh
    let s' := withTree abTree 0 (withBits [true] (withIn y { fresh with draws := 9, pad := 3 }))
    s ≠ s' ∧ s.params = s'.params ∧ s.inLen = s'.inLen ∧ s.inLen.toNat = y.length ∧
    (∀ k, k < y.length → s.inBuf.get? k = y[k]?) ∧ (∀ k, k < y.length → s'.inBuf.get? k = y[k]?) ∧
    (run .decompress s).err = .ok := by decide +kernel

theorem witness_CompressDecompressRoundTrip :
    let s := withIn abcIn fresh
    (paramsWellFormed s.params = true ∧ s.inLen.toNat = abcIn.length ∧ abcIn ≠ [] ∧
      abcIn.length ≤ s.params.inCap ∧ abcIn.length ≤ s.params.outCap ∧
      ∀ k, k < abcIn.length → s.inBuf.get? k = abcIn[k]?) ∧
    exec .compress s = .next (run .compress s) ∧
    ((run .compress s).err = .ok ∧ (run .compress s).outLen.toNat ≤ s.params.inCap) :=
  ⟨by decide +kernel, rfl, by decide +kernel⟩

theorem witness_UnpackInvertsPack : unpackBytes [0xFF, 0x07] = .ok [true] := rfl

theorem witness_ResetMeetsTheInvariants : paramsWellFormed { inCap := 4, outCap := 4, bbCap := 4096, base := 0 } = true ∧
    paramsWellFormed { inCap := 4194304, outCap := 4194304, bbCap := 33554432, base := 0x5000000 } = true := by decide

/-- COMPRESS pending with an input, and TREE_BUILD pending on a state with a tree and codes. -/
def busy : State := withIn [0x61, 0x62] (pend 0x30)

theorem witness_StepKeepsMemoriesOk : paramsWellFormed busy.params = true ∧ busy.MemoriesOk ∧
    step busy = .next (next busy) := by
  refine ⟨by decide, ?_, rfl⟩
  unfold State.MemoriesOk
  decide +kernel

/-- CODE_EXTRACT pending while every valid flag is 1. -/
def flagged : State :=
  { withCodes [(0x61, [true]), (0x62, [false])] (withTree abTree 0 (withFreq [] fresh)) with eng := .pending 0x12 }

theorem witness_StepKeepsFlagsOk : (flagged.treeValid = true ∧ flagged.codeValid = true ∧ flagged.freqValid = true) ∧
    flagged.FlagsOk ∧ step flagged = .next (run .codeExtract flagged) := by
  refine ⟨by decide, ⟨fun _ => ?_, fun _ => ⟨rfl, by decide +kernel⟩, fun _ => ?_⟩, rfl⟩
  · unfold State.TreeOk ArenaOk
    decide +kernel
  · rw [show flagged.freq = Memory.ofList (counts []) from rfl]
    simp only [Memory.covers, Memory.get?_ofList, counts]
    decide +kernel

theorem witness_StepKeepsLengthsOk : busy.LengthsOk ∧ step busy = .next (next busy) := by
  refine ⟨?_, rfl⟩
  unfold State.LengthsOk
  decide +kernel

/-- COMPRESS changes all three flags; a soft reset and a power-on reset clear them. -/
theorem witness_ValidFlagsChangeOnlyByTheirEvents : step busy = .next (next busy) ∧ busy.turn = .engine ∧
    ((next busy).freqValid ≠ busy.freqValid ∧ (next busy).treeValid ≠ busy.treeValid ∧
      (next busy).codeValid ≠ busy.codeValid) ∧
    (∀ a ∈ [lineW 0 0x020 2, .powerOn],
      let s := { flagged with inputs := [a], schedule := [.host] }
      s.turn = .host ∧ (next s).eng = .idle ∧ (next s).treeValid ≠ s.treeValid) :=
  ⟨rfl, by decide, by decide +kernel, by decide +kernel⟩

theorem witness_EngineWritesOnlyDest : exec .out2in busy = .next (run .out2in busy) ∧
    (MemId.outBuf ∉ dest .out2in ∧ MemId.bitBuf ∉ dest .out2in ∧ MemId.freq ∉ dest .out2in ∧
      MemId.node ∉ dest .out2in ∧ MemId.code ∉ dest .out2in) ∧
    exec .pack busy = .next (run .pack busy) ∧ MemId.inBuf ∉ dest .pack := ⟨rfl, by decide, rfl, by decide⟩

end Sys2Proof.Tests
end

section
/-!
PROOFS. Every step keeps the memories canonical and within their capacities, and the parameters fixed (O55): what
each memory operation keeps, what each command's body writes, and the one invariant of every step.
-/

namespace Sys2Proof.Machine

/-! ### A memory within a capacity -/

/-- The canonical form, and every specified location below the capacity. -/
def Memory.Fits {α : Type} (cap : Nat) (m : Memory α) : Prop := m.wf = true ∧ m.below cap = true

namespace Memory.Fits

variable {α : Type} {cap : Nat} {m : Memory α}

theorem nil : Memory.Fits cap ([] : Memory α) := ⟨Memory.wf_nil, Memory.below_nil cap⟩

theorem ofList {vs : List α} (h : vs.length ≤ cap) : (Memory.ofList vs).Fits cap :=
  ⟨Memory.wf_ofList vs, Memory.below_ofList h⟩

/-- Writes to locations below the capacity. -/
theorem setList (hm : m.Fits cap) {k : Nat} {vs : List α} (h : k + vs.length ≤ cap) : (m.setList k vs).Fits cap :=
  ⟨Memory.wf_setList hm.1, Memory.below_setList hm.2 h⟩

theorem forget (hm : m.Fits cap) (lo hi : Nat) : (m.forget lo hi).Fits cap :=
  ⟨Memory.wf_forget hm.1, Memory.below_forget hm.2⟩

/-- A reset loses a memory or keeps it (R145). -/
theorem ite_nil (hm : m.Fits cap) (c : Prop) [Decidable c] : Memory.Fits cap (if c then [] else m) := by
  split
  · exact nil
  · exact hm

end Memory.Fits

/-- The code table has one entry per symbol (R49, R113). -/
theorem codeTable_fits (ws : List (Byte × List Bool)) : (codeTable ws).Fits Config.alphabet :=
  ⟨codeTable_wf ws, codeTable_below ws⟩

/-! ### The lengths of what the commands write -/

@[simp] theorem freqOf_length (x : List Byte) : (freqOf x).length = Config.alphabet := by simp [freqOf]

/-- A tree over 256 symbols has at most 511 entries (R8, R48). -/
theorem buildTree_length_le {counts : List Word} (h : distinct counts ≠ 0) (hl : counts.length = 256) :
    (buildTree counts).1.length ≤ Config.nodeCap := by
  have := distinct_le counts
  rw [buildTree_length h, Config.nodeCap]
  omega

/-- Parse allocates no entry past the arena (R117). -/
theorem parseTree_entries_length_le {bits : List Bool} {p : Parsed} (h : parseTree bits = .ok p) :
    p.entries.length ≤ Config.nodeCap := by
  obtain ⟨T, -, hT, hp⟩ := parseTree_ok_iff.1 h
  rw [hp]
  simpa using hT

/-- Unpack gives at most the bits of the data bytes less the padding (R95). -/
theorem unpackBits_length_le (data : List Byte) (c : Nat) : (unpackBits data c).length ≤ 8 * data.length - c :=
  List.length_take_le _ _

/-! ### The invariant -/

/-- A device with the parameters `p` whose memories are canonical and within their capacities (R8, R43 to R49). -/
structure State.Fits (p : Config.Params) (s : State) : Prop where
  params : s.params = p
  inBuf : s.inBuf.Fits p.inCap
  outBuf : s.outBuf.Fits p.outCap
  bitBuf : s.bitBuf.Fits p.bbCap
  freq : s.freq.Fits Config.alphabet
  node : s.node.Fits Config.nodeCap
  code : s.code.Fits Config.alphabet

theorem State.fits_iff {p : Config.Params} {s : State} : s.Fits p ↔ s.params = p ∧ s.MemoriesOk := by
  constructor
  · rintro ⟨rfl, ⟨wi, bi⟩, ⟨wo, bo⟩, ⟨wb, bb⟩, ⟨wf, bf⟩, ⟨wn, bn⟩, ⟨wc, bc⟩⟩
    exact ⟨rfl, ⟨wi, wo, wb, wf, wn, wc⟩, bi, bo, bb, bf, bn, bc⟩
  · rintro ⟨rfl, ⟨wi, wo, wb, wf, wn, wc⟩, bi, bo, bb, bf, bn, bc⟩
    exact ⟨rfl, ⟨wi, bi⟩, ⟨wo, bo⟩, ⟨wb, bb⟩, ⟨wf, bf⟩, ⟨wn, bn⟩, ⟨wc, bc⟩⟩

section Writes

variable {p : Config.Params} {s : State} (h : s.Fits p)

include h

/-- A write of BITBUF within its capacity, whatever BB_LEN and PAD become. -/
theorem State.Fits.writeBits {bits : Memory Bool} (hb : bits.Fits p.bbCap) {len : Word} {pad : BitVec 3}
    {draws : Nat} : State.Fits p { s with bitBuf := bits, bbLen := len, pad := pad, draws := draws } :=
  { h with bitBuf := hb }

/-- A write of OUT_BUF within its capacity, whatever OUT_LEN and PAD become. -/
theorem State.Fits.writeOut {bytes : Memory Byte} (hb : bytes.Fits p.outCap) {len : Word} {pad : BitVec 3}
    {draws : Nat} : State.Fits p { s with outBuf := bytes, outLen := len, pad := pad, draws := draws } :=
  { h with outBuf := hb }

/-- A write of IN_BUF within its capacity, whatever IN_LEN becomes. -/
theorem State.Fits.writeIn {bytes : Memory Byte} (hb : bytes.Fits p.inCap) {len : Word} {draws : Nat} :
    State.Fits p { s with inBuf := bytes, inLen := len, draws := draws } :=
  { h with inBuf := hb }

/-- A write of NODE within the arena, whatever the tree's registers and flags become. -/
theorem State.Fits.writeTree {arena : Memory NodeEntry} (ha : arena.Fits Config.nodeCap) {root symCnt : BitVec 9}
    {nodeCnt : BitVec 10} {cursor : Word} {treeValid codeValid : Bool} {draws : Nat} :
    State.Fits p { s with
      node := arena, root := root, symCnt := symCnt, nodeCnt := nodeCnt, cursor := cursor
      treeValid := treeValid, codeValid := codeValid, draws := draws } :=
  { h with node := ha }

end Writes

/-! ### Every command keeps it

A way to end that writes no memory restates the invariant field by field, `{ h with }`; each of the others cites the
lemma of the memory it writes. -/

section Commands

variable {p : Config.Params} {s : State} (h : s.Fits p)

include h

theorem out2inBody_fits : (out2inBody s).state.Fits p :=
  out2inBody_elim (P := fun r => r.state.Fits p) s
    (capacity := fun _ => h)
    (ok := fun hl => h.writeIn (h.inBuf.setList (by simpa [← h.params] using hl)))

theorem packBody_fits : (packBody s).state.Fits p :=
  packBody_elim (P := fun r => r.state.Fits p) s
    (long := fun _ => { h with })
    (room := fun _ _ => { h with })
    (ok := fun _ hl => h.writeOut (h.outBuf.setList (by simpa [← h.params] using hl)))

theorem unpackBody_fits : (unpackBody s).state.Fits p :=
  unpackBody_elim (P := fun r => r.state.Fits p) s
    (long := fun _ => { h with })
    (empty := fun _ _ => { h with })
    (padding := fun _ _ _ => { h with })
    (room := fun _ _ _ _ _ => { h with })
    (ok := fun _ _ _ _ hl => h.writeBits (h.bitBuf.setList (by
      have := unpackBits_length_le s.payload.1 s.control.1.toNat
      rw [State.payload_length] at this
      rw [← h.params]
      omega)))

theorem freqBuildBody_fits : (freqBuildBody s).state.Fits p :=
  freqBuildBody_elim (P := fun r => r.state.Fits p) s
    (long := fun _ => { h with })
    (ok := fun _ => { h with freq := .ofList (freqOf_length _).le })

theorem treeBuildBody_fits : (treeBuildBody s).state.Fits p :=
  treeBuildBody_elim (P := fun r => r.state.Fits p) s
    (noFreq := fun _ => { h with })
    (empty := fun _ _ => { h with })
    (ok := fun _ hd => h.writeTree (.ofList (buildTree_length_le hd s.readFreq_length)))

theorem codeExtractBody_fits : (codeExtractBody s).state.Fits p :=
  codeExtractBody_elim (P := fun r => r.state.Fits p) s
    (noTree := fun _ => { h with })
    (ok := fun _ => { h with code := codeTable_fits _ })

theorem treeSerializeBody_fits : (treeSerializeBody s).state.Fits p :=
  treeSerializeBody_elim (P := fun r => r.state.Fits p) s
    (noTree := fun _ => { h with })
    (room := fun _ _ => { h with })
    (ok := fun _ hl => h.writeBits (h.bitBuf.setList (by simpa [← h.params] using hl)))

theorem treeDeserializeBody_fits : (treeDeserializeBody s).state.Fits p :=
  treeDeserializeBody_elim (P := fun r => r.state.Fits p) s
    (long := fun _ => { h with })
    (malformed := fun _ _ _ => h.writeTree .nil)
    (ok := fun _ _ hp => h.writeTree (.ofList (parseTree_entries_length_le hp)))

theorem encodeDataBody_fits : (encodeDataBody s).state.Fits p :=
  encodeDataBody_elim (P := fun r => r.state.Fits p) s
    (noCode := fun _ => { h with })
    (long := fun _ _ => { h with })
    (full := fun _ _ _ => { h with })
    (error := fun _ _ _ _ _ _ => h.writeBits (h.bitBuf.forget _ _))
    (ok := fun _ _ _ hl he =>
      have ⟨_, _, hcap⟩ := encodeLoop_ok he
      h.writeBits (h.bitBuf.setList (h.params ▸ hcap hl)))

theorem decodeDataBody_fits : (decodeDataBody s).state.Fits p :=
  decodeDataBody_elim (P := fun r => r.state.Fits p) s
    (noTree := fun _ => { h with })
    (long := fun _ _ => { h with })
    (cursor := fun _ _ _ => { h with })
    (error := fun _ _ _ _ _ _ => h.writeOut (h.outBuf.forget _ _))
    (ok := fun _ _ _ _ hd => h.writeOut (h.outBuf.setList (by simpa [← h.params] using (decodeBits_ok hd).2)))

/-- Every primitive command keeps the memories and the parameters. -/
theorem primitive_fits (i : Instr) (hi : i ∉ [Instr.compress, .decompress]) : (body i s).state.Fits p := by
  unfold body
  cases i with
  | nop => exact h
  | freqBuild => exact freqBuildBody_fits h
  | treeBuild => exact treeBuildBody_fits h
  | codeExtract => exact codeExtractBody_fits h
  | treeSerialize => exact treeSerializeBody_fits h
  | encodeData => exact encodeDataBody_fits h
  | pack => exact packBody_fits h
  | unpack => exact unpackBody_fits h
  | treeDeserialize => exact treeDeserializeBody_fits h
  | decodeData => exact decodeDataBody_fits h
  | compress => exact absurd hi (by decide)
  | decompress => exact absurd hi (by decide)
  | out2in => exact out2inBody_fits h

/-- Every command keeps the memories and the parameters, the composite ones too (R124, R126). -/
theorem body_fits (i : Instr) : (body i s).state.Fits p :=
  body_keeps (P := State.Fits p) (fun _ hs => { hs with }) (fun i _ hi hs => primitive_fits hs i hi) i h

/-! ### HOST's accesses and the resets keep it -/

theorem powerCycle_fits : s.powerCycle.Fits p := ⟨h.params, .nil, .nil, .nil, .nil, .nil, .nil⟩

/-- The soft reset loses the memories of Dest and keeps the others (R145). -/
theorem softReset_fits : s.softReset.Fits p where
  params := h.params
  inBuf := h.inBuf.ite_nil _
  outBuf := h.outBuf.ite_nil _
  bitBuf := h.bitBuf.ite_nil _
  freq := h.freq.ite_nil _
  node := h.node.ite_nil _
  code := h.code.ite_nil _

/-- A window write stays within its memory, since R8 makes the capacities whole words (R55, R64, R65). -/
theorem writeEffect_fits (hp : paramsWellFormed p = true) {v : Word} {offset : Nat} {size : AccessSize}
    {strobe : BitVec 4} {t : State} (ht : WriteEffect s v (admitted s.params offset size strobe) t) : t.Fits p := by
  rw [h.params] at ht
  obtain ⟨hin, -, -, -, hbb, -⟩ := paramsWellFormed_bounds hp
  cases ht with
  | softReset => exact softReset_fits h
  | inWord k hk =>
    obtain ⟨-, hk⟩ := admitted_inWord hk hin
    exact h.writeIn (h.inBuf.setList (by rwa [bytes4_length]))
  | bbWord k hk =>
    obtain ⟨-, hk⟩ := admitted_bbWord hk hbb
    exact h.writeBits (h.bitBuf.setList (by rwa [bits32_length]))
  | _ => exact { h with }

end Commands

/-- Every step of a device whose parameters meet R8 keeps the memories and the parameters. -/
theorem step_fits {p : Config.Params} (hp : paramsWellFormed p = true) {s t : State} (h : s.Fits p)
    (hs : step s = .next t) : t.Fits p :=
  step_keeps (P := State.Fits p)
    (hown := fun _ _ _ _ _ h => { h with })
    (hcomp := fun _ _ _ _ h => { h with })
    (hbody := fun i _ h => body_fits h i)
    (hwrite := fun _ _ _ _ _ _ h ht => writeEffect_fits h hp ht)
    (hpower := fun _ h => powerCycle_fits h) h hs

/-- Settles O55: the invariant holds of the state before with its own parameters, and every step keeps it. -/
theorem stepKeepsMemoriesOk : Obligations.StepKeepsMemoriesOk := by
  unfold Obligations.StepKeepsMemoriesOk
  intro s t hp hm hs
  exact State.fits_iff.1 (step_fits hp (State.fits_iff.2 ⟨rfl, hm⟩) hs)

end Sys2Proof.Machine
end

section
/-!
PROOFS. Every step keeps what the valid flags of STATUS promise (R31, R48, O56): the tables that the promises are about,
the commands that write none of them, and for each of the others why the promise of the flag it sets is kept.
-/

namespace Sys2Proof.Machine

/-! ### What the valid flags speak of -/

/-- The valid flags, and the memories and registers that their promises are about (R31, R46 to R49), are in `t` as
they are in `s`. -/
structure State.SameTables (s t : State) : Prop where
  freqValid : t.freqValid = s.freqValid := by rfl
  treeValid : t.treeValid = s.treeValid := by rfl
  codeValid : t.codeValid = s.codeValid := by rfl
  freq : t.freq = s.freq := by rfl
  node : t.node = s.node := by rfl
  nodeCnt : t.nodeCnt = s.nodeCnt := by rfl
  root : t.root = s.root := by rfl
  code : t.code = s.code := by rfl

/-- The commands that R42 does not name write none of the tables. -/
theorem body_sameTables {i : Instr} (hi : i ∉ [Instr.freqBuild, .treeBuild, .codeExtract, .treeDeserialize,
    .compress, .decompress]) (s : State) : s.SameTables (body i s).state := by
  cases i with
  | nop => exact { }
  | treeSerialize =>
    exact treeSerializeBody_elim (P := fun r => s.SameTables r.state) s
      (noTree := fun _ => { }) (room := fun _ _ => { }) (ok := fun _ _ => { })
  | encodeData =>
    exact encodeDataBody_elim (P := fun r => s.SameTables r.state) s
      (noCode := fun _ => { }) (long := fun _ _ => { }) (full := fun _ _ _ => { })
      (error := fun _ _ _ _ _ _ => { }) (ok := fun _ _ _ _ _ => { })
  | pack =>
    exact packBody_elim (P := fun r => s.SameTables r.state) s
      (long := fun _ => { }) (room := fun _ _ => { }) (ok := fun _ _ => { })
  | unpack =>
    exact unpackBody_elim (P := fun r => s.SameTables r.state) s
      (long := fun _ => { }) (empty := fun _ _ => { }) (padding := fun _ _ _ => { })
      (room := fun _ _ _ _ _ => { }) (ok := fun _ _ _ _ _ => { })
  | decodeData =>
    exact decodeDataBody_elim (P := fun r => s.SameTables r.state) s
      (noTree := fun _ => { }) (long := fun _ _ => { }) (cursor := fun _ _ _ => { })
      (error := fun _ _ _ _ _ _ => { }) (ok := fun _ _ _ _ _ => { })
  | out2in =>
    exact out2inBody_elim (P := fun r => s.SameTables r.state) s
      (capacity := fun _ => { }) (ok := fun _ => { })
  | _ => exact absurd (by decide) hi

@[simp] theorem Result.state_success (t : State) : (Result.success t).state = t := rfl

/-! ### Trees that the commands make -/

/-- A tree as R48 says stays one while NODE, NODE_CNT and ROOT do. -/
theorem State.TreeOk.congr {s t : State} (h : s.TreeOk) (hn : t.node = s.node) (hc : t.nodeCnt = s.nodeCnt)
    (hr : t.root = s.root) : t.TreeOk := by
  obtain ⟨hle, hcov, hok⟩ := h
  refine ⟨hc ▸ hle, by rwa [hn, hc], ?_⟩
  rwa [State.arena_congr hcov hn hc, hr]

/-- A state whose NODE, NODE_CNT and ROOT hold the entries and the root of a tree. -/
theorem State.treeOk_of_ofList {s : State} {es : List NodeEntry} {root : Nat} (hok : ArenaOk es root)
    (hle : es.length ≤ Config.nodeCap) (hn : s.node = Memory.ofList es) (hc : s.nodeCnt.toNat = es.length)
    (hr : s.root.toNat = root) : s.TreeOk := by
  obtain ⟨hcov, har⟩ := State.arena_of_ofList hn hc
  exact ⟨hc ▸ hle, hcov, by rwa [har, hr]⟩

/-- Parse allocates the entries of a tree in the order in which they are visited, so they are a tree as R48 says. -/
theorem parseTree_arenaOk {bits : List Bool} {p : Parsed} (h : parseTree bits = .ok p) : ArenaOk p.entries 0 := by
  obtain ⟨T, -, hT, hp⟩ := parseTree_ok_iff.1 h
  rw [Config.nodeCap] at hT
  obtain ⟨-, hv⟩ := isTree_entries (arena := T.entries 0) (T := T) (n := 0) (by omega)
    (fun j _ => by rw [Nat.zero_add])
  rw [hp]
  unfold ArenaOk
  rw [hv _ (T.entries_length 0).ge, T.entries_length, List.range_eq_range']

/-- The memory of a list has a value at each position of it. -/
theorem Memory.covers_ofList {α : Type} {n : Nat} {vs : List α} (h : vs.length = n) :
    (Memory.ofList vs).covers n = true :=
  Memory.covers_iff.2 (fun k hk => by simp [h, hk])

/-! ### The promises are kept -/

/-- With every valid flag 0 nothing is promised. -/
theorem State.flagsOk_of_cleared {s : State} (hf : s.freqValid = false) (ht : s.treeValid = false)
    (hc : s.codeValid = false) : s.FlagsOk := by
  simp [State.FlagsOk, hf, ht, hc]

section Promises

variable {s : State} (h : s.FlagsOk)

include h

theorem State.FlagsOk.tree (hv : s.treeValid = true) : s.TreeOk := h.1 hv

theorem State.FlagsOk.codes (hv : s.codeValid = true) :
    s.treeValid = true ∧ s.code = codeTable (codeWrites s.arena s.root.toNat) := h.2.1 hv

theorem State.FlagsOk.counts (hv : s.freqValid = true) : s.freq.covers Config.alphabet = true := h.2.2 hv

/-- The promises are kept where the tree stays as it is, CODE_VALID = 1 finds the codes of that tree, and
FREQ_VALID = 1 finds every count. -/
theorem State.FlagsOk.sameTree {t : State} (htv : t.treeValid = s.treeValid) (hn : t.node = s.node)
    (hc : t.nodeCnt = s.nodeCnt) (hr : t.root = s.root)
    (hcode : t.codeValid = true → s.treeValid = true ∧ t.code = codeTable (codeWrites s.arena s.root.toNat))
    (hfreq : t.freqValid = true → t.freq.covers Config.alphabet = true) : t.FlagsOk := by
  refine ⟨fun hv => (h.tree (htv ▸ hv)).congr hn hc hr, fun hv => ?_, hfreq⟩
  obtain ⟨hsv, hder⟩ := hcode hv
  obtain ⟨-, hcov, -⟩ := h.tree hsv
  exact ⟨htv.trans hsv, by rw [hder, State.arena_congr hcov hn hc, hr]⟩

/-- The promises are about the tables alone: the draw counter, on which a reading of NODE depends, does not show in
them. -/
theorem State.FlagsOk.congr {t : State} (ht : s.SameTables t) : t.FlagsOk :=
  h.sameTree ht.treeValid ht.node ht.nodeCnt ht.root (fun hv => ht.code ▸ h.codes (ht.codeValid ▸ hv))
    (fun hv => ht.freq ▸ h.counts (ht.freqValid ▸ hv))

/-- The promises are kept where a command leaves a new tree, if any, and clears CODE_VALID. -/
theorem State.FlagsOk.newTree {t : State} (htree : t.treeValid = true → t.TreeOk) (hcv : t.codeValid = false)
    (hfv : t.freqValid = s.freqValid) (hf : t.freq = s.freq) : t.FlagsOk :=
  ⟨htree, fun hv => absurd (hcv.symm.trans hv) Bool.false_ne_true, fun hv => hf ▸ h.counts (hfv ▸ hv)⟩

/-- The promises are kept where a command clears TREE_VALID and CODE_VALID. -/
theorem State.FlagsOk.noTree {t : State} (htv : t.treeValid = false) (hcv : t.codeValid = false)
    (hfv : t.freqValid = s.freqValid) (hf : t.freq = s.freq) : t.FlagsOk :=
  h.newTree (fun hv => absurd (htv.symm.trans hv) Bool.false_ne_true) hcv hfv hf

/-- FREQ_BUILD counts every symbol before it sets FREQ_VALID (R101). -/
theorem freqBuildBody_flagsOk : (freqBuildBody s).state.FlagsOk :=
  freqBuildBody_elim (P := fun r => r.state.FlagsOk) s
    (long := fun _ => h.sameTree rfl rfl rfl rfl h.codes (fun hv => absurd hv Bool.false_ne_true))
    (ok := fun _ => h.sameTree rfl rfl rfl rfl h.codes (fun _ => Memory.covers_ofList (freqOf_length _)))

/-- TREE_BUILD sets TREE_VALID with the tree of the merges (R107, R108). -/
theorem treeBuildBody_flagsOk : (treeBuildBody s).state.FlagsOk :=
  treeBuildBody_elim (P := fun r => r.state.FlagsOk) s
    (noFreq := fun _ => h.noTree rfl rfl rfl rfl)
    (empty := fun _ _ => h.noTree rfl rfl rfl rfl)
    (ok := fun _ hd => h.newTree (fun _ => by
      rw [Result.state_success]
      have hl := s.readFreq_length
      have hn := distinct_le s.readFreq.1
      exact State.treeOk_of_ofList (buildTree_arenaOk hd hl.le) (buildTree_length_le hd hl) (by dsimp only)
        (by simp only [BitVec.toNat_ofNat, buildTree_length hd]; omega)
        (by simp only [BitVec.toNat_ofNat, buildTree_root hd]; omega)) rfl rfl rfl)

/-- TREE_DESERIALIZE sets TREE_VALID with the tree Parse read (R118). -/
theorem treeDeserializeBody_flagsOk : (treeDeserializeBody s).state.FlagsOk :=
  treeDeserializeBody_elim (P := fun r => r.state.FlagsOk) s
    (long := fun _ => h.noTree rfl rfl rfl rfl)
    (malformed := fun _ _ _ => h.noTree rfl rfl rfl rfl)
    (ok := fun _ _ hp => h.newTree (fun _ => by
      rw [Result.state_success]
      have hl := parseTree_entries_length_le hp
      rw [Config.nodeCap] at hl
      exact State.treeOk_of_ofList (parseTree_arenaOk hp) hl rfl
        (by simp only [BitVec.toNat_ofNat]; omega) rfl) rfl rfl rfl)

/-- CODE_EXTRACT sets CODE_VALID with the codes of the tree it finds (R113). -/
theorem codeExtractBody_flagsOk : (codeExtractBody s).state.FlagsOk :=
  codeExtractBody_elim (P := fun r => r.state.FlagsOk) s
    (noTree := fun _ => h.sameTree rfl rfl rfl rfl (fun hv => absurd hv Bool.false_ne_true) h.counts)
    (ok := fun hv => h.sameTree rfl rfl rfl rfl (fun _ => ⟨hv, rfl⟩) h.counts)

/-- Every primitive command keeps the promises. -/
theorem primitive_flagsOk (i : Instr) (hi : i ∉ [Instr.compress, .decompress]) : (body i s).state.FlagsOk := by
  cases i with
  | freqBuild => unfold body; exact freqBuildBody_flagsOk h
  | treeBuild => unfold body; exact treeBuildBody_flagsOk h
  | codeExtract => unfold body; exact codeExtractBody_flagsOk h
  | treeDeserialize => unfold body; exact treeDeserializeBody_flagsOk h
  | compress | decompress => exact absurd (by decide) hi
  | _ => exact h.congr (body_sameTables (by decide) s)

/-- A write access leaves the tables, or is the soft reset, which clears the flags (R42). -/
theorem writeEffect_flagsOk {v : Word} {tg : Option Target} {t : State} (ht : WriteEffect s v tg t) : t.FlagsOk := by
  cases ht with
  | softReset => exact State.flagsOk_of_cleared rfl rfl rfl
  | _ => exact h.congr { }

end Promises

/-- Settles O56: the commands that make a table set its flag with the promise kept, the resets clear the flags, and
everything else leaves the tables. -/
theorem stepKeepsFlagsOk : Obligations.StepKeepsFlagsOk := by
  unfold Obligations.StepKeepsFlagsOk
  intro s t h hs
  exact step_keeps (P := State.FlagsOk)
    (hown := fun _ _ _ _ _ h => h.congr { })
    (hcomp := fun _ _ _ _ h => h.congr { })
    (hbody := fun i _ h => body_keeps (P := State.FlagsOk) (fun _ h => h.congr { })
      (fun i _ hi h => primitive_flagsOk h i hi) i h)
    (hwrite := fun _ _ _ _ _ _ h ht => writeEffect_flagsOk h ht)
    (hpower := fun _ _ => State.flagsOk_of_cleared rfl rfl rfl) h hs

end Sys2Proof.Machine
end

section
/-!
PROOFS. What can change a valid flag of STATUS (R42, O59): each flag's own commands, and HOST's resets.
-/

namespace Sys2Proof.Machine

/-! ### Commands -/

@[simp] theorem complete_freqValid (r : Result) : (complete r).freqValid = r.state.freqValid := by
  cases r <;> rfl

@[simp] theorem complete_treeValid (r : Result) : (complete r).treeValid = r.state.treeValid := by
  cases r <;> rfl

@[simp] theorem complete_codeValid (r : Result) : (complete r).codeValid = r.state.codeValid := by
  cases r <;> rfl

theorem treeBuildBody_freqValid (s : State) : (treeBuildBody s).state.freqValid = s.freqValid :=
  treeBuildBody_elim (P := fun r => r.state.freqValid = s.freqValid) s
    (noFreq := fun _ => rfl) (empty := fun _ _ => rfl) (ok := fun _ _ => rfl)

theorem treeDeserializeBody_freqValid (s : State) : (treeDeserializeBody s).state.freqValid = s.freqValid :=
  treeDeserializeBody_elim (P := fun r => r.state.freqValid = s.freqValid) s
    (long := fun _ => rfl) (malformed := fun _ _ _ => rfl) (ok := fun _ _ _ => rfl)

/-- CODE_EXTRACT writes neither FREQ_VALID nor TREE_VALID. -/
theorem codeExtractBody_flags (s : State) : (codeExtractBody s).state.freqValid = s.freqValid ∧
    (codeExtractBody s).state.treeValid = s.treeValid :=
  codeExtractBody_elim (P := fun r => r.state.freqValid = s.freqValid ∧ r.state.treeValid = s.treeValid) s
    (noTree := fun _ => ⟨rfl, rfl⟩) (ok := fun _ => ⟨rfl, rfl⟩)

/-- FREQ_BUILD writes neither TREE_VALID nor CODE_VALID. -/
theorem freqBuildBody_flags (s : State) : (freqBuildBody s).state.treeValid = s.treeValid ∧
    (freqBuildBody s).state.codeValid = s.codeValid :=
  freqBuildBody_elim (P := fun r => r.state.treeValid = s.treeValid ∧ r.state.codeValid = s.codeValid) s
    (long := fun _ => ⟨rfl, rfl⟩) (ok := fun _ => ⟨rfl, rfl⟩)

/-- None of the primitives of DECOMPRESS writes FREQ_VALID. -/
theorem decompressBody_freqValid (s : State) : (decompressBody s).state.freqValid = s.freqValid := by
  unfold decompressBody
  refine Result.andThen_state (P := fun t => t.freqValid = s.freqValid)
    (Result.andThen_state (P := fun t => t.freqValid = s.freqValid) ?_ ?_) ?_
  · exact (body_sameTables (i := .unpack) (by decide) { s with outLen := 0 }).freqValid
  · exact fun t ht => (treeDeserializeBody_freqValid t).trans ht
  · exact fun t ht => (body_sameTables (i := .decodeData) (by decide) t).freqValid.trans ht

/-- Only the commands R42 names for FREQ_VALID write it. -/
theorem body_freqValid {i : Instr} (hi : i ∉ [Instr.freqBuild, .compress]) (s : State) :
    (body i s).state.freqValid = s.freqValid := by
  cases i with
  | freqBuild | compress => exact absurd (by decide) hi
  | treeBuild => exact treeBuildBody_freqValid s
  | codeExtract => exact (codeExtractBody_flags s).1
  | treeDeserialize => exact treeDeserializeBody_freqValid s
  | decompress => exact decompressBody_freqValid s
  | _ => exact (body_sameTables (by decide) s).freqValid

/-- Only the commands R42 names for TREE_VALID write it. -/
theorem body_treeValid {i : Instr} (hi : i ∉ [Instr.treeBuild, .treeDeserialize, .compress, .decompress])
    (s : State) : (body i s).state.treeValid = s.treeValid := by
  cases i with
  | treeBuild | treeDeserialize | compress | decompress => exact absurd (by decide) hi
  | freqBuild => exact (freqBuildBody_flags s).1
  | codeExtract => exact (codeExtractBody_flags s).2
  | _ => exact (body_sameTables (by decide) s).treeValid

/-- Only the commands R42 names for CODE_VALID write it. -/
theorem body_codeValid {i : Instr}
    (hi : i ∉ [Instr.treeBuild, .treeDeserialize, .codeExtract, .compress, .decompress]) (s : State) :
    (body i s).state.codeValid = s.codeValid := by
  cases i with
  | treeBuild | treeDeserialize | codeExtract | compress | decompress => exact absurd (by decide) hi
  | freqBuild => exact (freqBuildBody_flags s).2
  | _ => exact (body_sameTables (by decide) s).codeValid

/-! ### HOST's accesses -/

/-- HOST's next access is a write to CTRL with SRST = 1, or a power-on reset (R144, R145). -/
def State.NextIsReset (s : State) : Prop :=
  (∃ addr v rest, s.inputs = .write addr .word 0xF v :: rest ∧ s.params.base ≤ addr ∧
    addr - s.params.base = 0x020 ∧ v.getLsbD 1 = true) ∨ ∃ rest, s.inputs = .powerOn :: rest

/-- HOST's access changes a valid flag only by a reset, and that clears every one. -/
theorem hostStep_valid_flags {s t : State} (h : hostStep s = .next t) :
    (s.NextIsReset ∧ t.freqValid = false ∧ t.treeValid = false ∧ t.codeValid = false ∧ t.eng = .idle) ∨
      (t.freqValid = s.freqValid ∧ t.treeValid = s.treeValid ∧ t.codeValid = s.codeValid) := by
  rcases hostStep_cases h with rfl | ⟨l, offset, size, rfl⟩ | ⟨l, addr, size, strobe, v, hin, hb, rfl⟩ | ⟨l, rfl⟩ |
    ⟨l, hin, rfl⟩
  · exact .inr ⟨rfl, rfl, rfl⟩
  · obtain ⟨a, d, e⟩ := busRead_frame { s with inputs := l } offset size
    rw [e]
    exact .inr ⟨rfl, rfl, rfl⟩
  · obtain ⟨a, u, e, hu⟩ := busWrite_effect { s with inputs := l } (addr - s.params.base) size strobe v
    rw [e]
    rcases hu.valid_flags with ⟨htg, hv, rfl⟩ | hsame
    · obtain ⟨rfl, rfl, hoff⟩ := admitted_reg_inv htg
      exact .inl ⟨.inl ⟨addr, v, l, hin, hb, hoff, hv⟩, rfl, rfl, rfl, rfl⟩
    · exact .inr hsame
  · obtain ⟨a, d, e⟩ := busRead_frame s 0x028 .word
    rw [e]
    exact .inr ⟨rfl, rfl, rfl⟩
  · exact .inl ⟨.inr ⟨l, hin⟩, rfl, rfl, rfl, rfl⟩

/-- Settles O59: a command writes a flag only if R42 names it for the flag, an illegal word writes none, and HOST's
access writes one only by a reset. -/
theorem validFlagsChangeOnlyByTheirEvents : Obligations.ValidFlagsChangeOnlyByTheirEvents := by
  unfold Obligations.ValidFlagsChangeOnlyByTheirEvents
  intro s t hs
  rcases step_cases hs with ⟨hturn, l, w, i, he, hd, hx⟩ | ⟨-, l, w, -, rfl⟩ | ⟨hturn, l, hh⟩ | ⟨l, rfl⟩
  · rw [exec_eq_next] at hx
    subst hx
    refine .inr ⟨fun hne => ⟨hturn, w, i, he, hd, ?_⟩, fun hne => ⟨hturn, w, i, he, hd, ?_⟩,
      fun hne => ⟨hturn, w, i, he, hd, ?_⟩⟩
    · by_contra hi
      exact hne ((complete_freqValid _).trans (body_freqValid hi _))
    · by_contra hi
      exact hne ((complete_treeValid _).trans (body_treeValid hi _))
    · by_contra hi
      exact hne ((complete_codeValid _).trans (body_codeValid hi _))
  · exact .inr ⟨absurd rfl, absurd rfl, absurd rfl⟩
  · rcases hostStep_valid_flags hh with ⟨hreset, hcleared⟩ | ⟨hf, ht, hc⟩
    · exact .inl ⟨hturn, hreset, hcleared⟩
    · exact .inr ⟨absurd hf, absurd ht, absurd hc⟩
  · exact .inr ⟨absurd rfl, absurd rfl, absurd rfl⟩

end Sys2Proof.Machine
end

section
/-!
PROOFS. Registers and reset: the constant registers (O2), STATUS (O3, O18), CTRL (O19), and the invariants after
power-on reset (O58).
-/

namespace Sys2Proof.Machine

/-- The constant registers read exactly, a command pending or not (R67). -/
theorem readMapped_constant {r : Reg} (hr : r ∈ [Reg.id, .version, .inCapR, .outCapR, .bbCapR, .nodeCapR, .ctrl])
    (s : State) : readMapped s (.reg r) = (readReg s r, s.draws) := by
  unfold readMapped
  split
  · cases r with
    | id | version | inCapR | outCapR | bbCapR | nodeCapR | ctrl => rfl
    | _ => exact absurd hr (by decide)
  · rfl

/-- Settles O2: the constant registers are among those that read exactly while Pending too, and no write reaches one. -/
theorem constantRegistersAlwaysRead : Obligations.ConstantRegistersAlwaysRead := by
  unfold Obligations.ConstantRegistersAlwaysRead
  intro s v
  refine ⟨⟨rfl, rfl, rfl, rfl, rfl, rfl⟩, readMapped_constant (by decide) s, readMapped_constant (by decide) s,
    readMapped_constant (by decide) s, readMapped_constant (by decide) s, readMapped_constant (by decide) s,
    readMapped_constant (by decide) s, fun r hr he => ?_⟩
  rw [writeMapped_idle he]
  cases r with
  | id | version | inCapR | outCapR | bbCapR | nodeCapR => rfl
  | _ => exact absurd hr (by decide)

/-- ERROR is 1 for each code but OK (R31, R130). -/
theorem State.error_eq (s : State) : s.error = (s.err != .ok) := by
  unfold State.error
  cases s.err <;> rfl

theorem State.busy_iff (s : State) : s.busy = true ↔ ∃ c, s.eng = .pending c := by
  unfold State.busy
  cases s.eng <;> simp

/-- Bit k of a field of a word. -/
theorem fieldAt_getLsbD {n : Nat} (v : BitVec n) (lo k : Nat) :
    (fieldAt v lo).getLsbD k = (decide (k < 32) && decide (lo ≤ k) && v.getLsbD (k - lo)) := by
  by_cases hk : k < 32 <;> by_cases hl : lo ≤ k <;> simp [fieldAt, hk, hl]

/-- FREQ_VALID, TREE_VALID and CODE_VALID are the bits of `validBits` in this order. -/
theorem validBits_getLsbD (s : State) (k : Nat) : (validBits s).getLsbD k =
    ((decide (k = 2) && s.codeValid) || (decide (k = 1) && s.treeValid) || (decide (k = 0) && s.freqValid)) := by
  match k with
  | 0 => simp [validBits]
  | 1 => simp [validBits]
  | 2 => simp [validBits]
  | k + 3 => simp [validBits]

/-- Bit k of STATUS: each field stands at its own bits (R31). -/
theorem statusWord_getLsbD (s : State) (k : Nat) (hk : k < 32) : (statusWord s).getLsbD k =
    if k = 0 then s.busy else if k = 1 then s.done else if k = 2 then s.error else if k = 3 then s.overrun
    else if k = 4 then s.freqValid else if k = 5 then s.treeValid else if k = 6 then s.codeValid
    else if k < 8 then false else if k < 16 then s.err.toByte.getLsbD (k - 8)
    else if k < 24 then s.lastOp.getLsbD (k - 16) else false := by
  simp only [statusWord, statusWith, BitVec.getLsbD_or, fieldAt_getLsbD, validBits_getLsbD, BitVec.getLsbD_ofBool]
  interval_cases k <;> simp

/-- STATUS[15:8] is ERR (R31). -/
theorem statusWord_err (s : State) : (statusWord s).extractLsb' 8 8 = s.err.toByte := by
  refine BitVec.eq_of_getLsbD_eq fun i hi => ?_
  rw [BitVec.getLsbD_extractLsb', statusWord_getLsbD s _ (by omega)]
  simp (disch := omega) only [if_neg, if_pos, hi, decide_true, Bool.true_and, Nat.add_sub_cancel_left]

/-- STATUS[23:16] is LAST_OP (R31). -/
theorem statusWord_lastOp (s : State) : (statusWord s).extractLsb' 16 8 = s.lastOp := by
  refine BitVec.eq_of_getLsbD_eq fun i hi => ?_
  rw [BitVec.getLsbD_extractLsb', statusWord_getLsbD s _ (by omega)]
  simp (disch := omega) only [if_neg, if_pos, hi, decide_true, Bool.true_and, Nat.add_sub_cancel_left]

/-- STATUS[31:24] reads 0 (R31). -/
theorem statusWord_reserved (s : State) : (statusWord s).extractLsb' 24 8 = 0 := by
  refine BitVec.eq_of_getLsbD_eq fun i hi => ?_
  rw [BitVec.getLsbD_extractLsb', statusWord_getLsbD s _ (by omega)]
  simp (disch := omega) only [if_neg, Bool.and_false]
  exact BitVec.getLsbD_zero.symm

/-- Settles O3, bit by bit from the layout of the word; the numbers of R130 are those of the code table. -/
theorem statusWordLayout : Obligations.StatusWordLayout := by
  unfold Obligations.StatusWordLayout
  intro s w
  have hbit (k : Nat) (hk : k < 32) := statusWord_getLsbD s k hk
  have herror : w.getLsbD 2 = s.error := hbit 2 (by decide)
  refine ⟨s.busy_iff, hbit 0 (by decide), hbit 1 (by decide), herror.trans s.error_eq, hbit 3 (by decide),
    hbit 4 (by decide), hbit 5 (by decide), hbit 6 (by decide), hbit 7 (by decide), statusWord_err s,
    statusWord_lastOp s, statusWord_reserved s, fun code hcode herr => ?_⟩
  have hnumber : s.err.toByte = code.2 := by
    rw [herr]
    clear herr
    revert code
    decide
  exact ⟨(statusWord_err s).trans hnumber, by rw [herror, State.error, hnumber]⟩

/-- Settles O18: a STATUS write acts alike while Idle and while Pending. -/
theorem statusWriteClearsDoneAndOverrun : Obligations.StatusWriteClearsDoneAndOverrun := by
  unfold Obligations.StatusWriteClearsDoneAndOverrun
  intro s v
  rw [busWrite_status]
  refine ⟨?_, ?_, rfl⟩
  · show (s.done && !v.getLsbD 1) = _
    cases v.getLsbD 1 <;> simp
  · show (s.overrun && !v.getLsbD 3) = _
    cases v.getLsbD 3 <;> simp

/-- Settles O19: a CTRL write acts alike while Idle and while Pending, and CTRL is among the registers that always read
exactly. -/
theorem ctrlWriteRule : Obligations.CtrlWriteRule := by
  unfold Obligations.CtrlWriteRule
  intro s v
  rw [busWrite_ctrl, readMapped_constant (by decide)]
  refine ⟨fun hv => ?_, fun hv => ⟨?_, rfl⟩, ?_, fun k hk => ?_, fun p => rfl⟩
  · rw [State.writeCtrl, if_neg (hv ▸ Bool.false_ne_true)]
    rfl
  · rw [State.writeCtrl, if_pos hv]
  · show (ctrlWord s).getLsbD 0 = s.irqEn
    simp [ctrlWord]
  · show (ctrlWord s).getLsbD k = false
    simp [ctrlWord]
    omega

/-- After power-on reset the invariants hold: no location is specified, every valid flag and every length is 0. -/
theorem powerOn_invariants (p : Config.Params) :
    (State.powerOn p).MemoriesOk ∧ (State.powerOn p).FlagsOk ∧ (State.powerOn p).LengthsOk :=
  ⟨(State.fits_iff.1 (⟨rfl, .nil, .nil, .nil, .nil, .nil, .nil⟩ : (State.powerOn p).Fits p)).2,
    State.flagsOk_of_cleared rfl rfl rfl, Nat.zero_le _, Nat.zero_le _, Nat.zero_le _⟩

/-- Settles O58: the parameters play no part in the reset state, and those R8 suggests meet R8. -/
theorem resetMeetsTheInvariants : Obligations.ResetMeetsTheInvariants := by
  unfold Obligations.ResetMeetsTheInvariants
  exact ⟨fun p hp => ⟨hp, powerOn_invariants p⟩, by decide, powerOn_invariants Config.suggested⟩

end Sys2Proof.Machine
end

section
/-!
PROOFS. The host's accesses: what gets SLVERR (O14), the address map and the windows (O15), reads while Idle (O16) and
while Pending (O13), and writes (O12, O17, O21, O22).
-/

namespace Sys2Proof.Machine

/-! ### Refused accesses -/

/-- Settles O14: an access with no target is refused alike while Idle and while Pending. -/
theorem unadmittedAccessesGetSlverr : Obligations.UnadmittedAccessesGetSlverr := by
  unfold Obligations.UnadmittedAccessesGetSlverr
  exact fun s offset size strobe v =>
    ⟨fun h => busRead_unadmitted (admitted_eq_none (h.imp_right .inr)),
      fun h => busWrite_unadmitted (admitted_eq_none h)⟩

/-! ### The address map -/

/-- Every register stands at its offset (R25). -/
@[simp] theorem target_reg (p : Config.Params) (r : Reg) : target p r.offset = some (.reg r) := by
  cases r <;> rfl

/-- The mapped offsets are those of R25 and R55. -/
theorem target_isSome_iff {p : Config.Params} (hp : paramsWellFormed p = true) (offset : Nat) :
    (target p offset).isSome = true ↔
      (∃ r : Reg, r.offset = offset) ∨ (0x001000 ≤ offset ∧ offset ≤ 0x0013FF) ∨
      (0x002000 ≤ offset ∧ offset ≤ 0x003FEF) ∨ (0x004000 ≤ offset ∧ offset ≤ 0x007FFF) ∨
      (0x400000 ≤ offset ∧ offset ≤ 0x400000 + p.inCap - 1) ∨
      (0x800000 ≤ offset ∧ offset ≤ 0x800000 + p.outCap - 1) ∨
      (0xC00000 ≤ offset ∧ offset ≤ 0xC00000 + p.bbCap / 8 - 1) := by
  have hcap := paramsWellFormed_bounds hp
  constructor
  · intro h
    obtain ⟨t, ht⟩ := Option.isSome_iff_exists.1 h
    have hinv := target_inv ht
    cases t with
    | reg r => exact .inl ⟨r, hinv.symm⟩
    | _ => dsimp only at hinv; omega
  · rintro (⟨r, rfl⟩ | h | h | h | h | h | h)
    · rw [target_reg]; rfl
    all_goals simp (disch := omega) only [target, if_pos, if_neg, Option.isSome_some]

/-- A value that is specified or drawn is the specified one, or else the draw (R53). -/
theorem eq_getD_cases {α : Type} {o : Option α} {x e : α} (h : x = o.getD e) :
    (∀ b, o = some b → x = b) ∧ (o = none → x = e) := by
  subst h
  exact ⟨fun b hb => hb ▸ rfl, fun hn => hn ▸ rfl⟩

/-- While Idle a whole-word read at a mapped word offset is answered OKAY with what stands there. -/
theorem readsOkay_of_target {s : State} {offset : Nat} {t : Target} {w : Word} {d : Nat} (he : s.eng = .idle)
    (h4 : offset % 4 = 0) (ht : target s.params offset = some t) (hr : readTarget s t = (w, d)) :
    s.ReadsOkay offset w d :=
  readsOkay_of_admitted ((admitted_eq_target h4).trans ht) ((readMapped_idle he t).trans hr)

/-- A FREQ word reads its count where it is specified. -/
theorem readTarget_freqWord_some {s : State} {sym : Nat} {n : Word} (h : s.freq.get? sym = some n) :
    readTarget s (.freqWord sym) = (n, s.draws) := by
  simp only [readTarget, Memory.read, h]

/-- An unspecified count reads a draw (R53). -/
theorem readTarget_freqWord_none {s : State} {sym : Nat} (h : s.freq.get? sym = none) :
    readTarget s (.freqWord sym) = (Config.freshWord s.draws 0, s.draws + 1) := by
  simp only [readTarget, Memory.read, h, freshCount]

/-- Settles O15: the regions are those of `target`, and a window word is made of the specified and drawn locations that
its range reading gives. -/
theorem addressMapRegions : Obligations.AddressMapRegions := by
  unfold Obligations.AddressMapRegions
  refine ⟨fun p offset hp _ => target_isSome_iff hp offset, fun p hp => ?_, fun s hp he => ?_⟩
  · refine ⟨fun ro hro => ?_, fun _ => target_freqWord p, fun _ _ => target_nodeWord p,
      fun _ _ => target_codeWord p, fun _ => target_inWord hp, fun _ => target_outWord hp, fun _ => target_bbWord hp⟩
    have hoffset : ro.1.offset = ro.2 := by
      revert ro
      decide
    exact ⟨hoffset, hoffset ▸ target_reg p ro.1⟩
  · refine ⟨fun sym hsym => ?_, fun k hk => ?_, fun k hk => ?_, fun k hk => ?_⟩
    · have hfreq := target_freqWord s.params hsym
      exact ⟨fun n hn => readsOkay_of_target he (by omega) hfreq (readTarget_freqWord_some hn),
        fun hn => readsOkay_of_target he (by omega) hfreq (readTarget_freqWord_none hn)⟩
    · exact ⟨_, readsOkay_of_target he (by omega) (target_inWord hp hk) (readTarget_inWord s k),
        fun m hm => eq_getD_cases (wordOfBytes_readRange s.inBuf (4 * k) s.draws hm)⟩
    · exact ⟨_, readsOkay_of_target he (by omega) (target_outWord hp hk) (readTarget_outWord s k),
        fun m hm => eq_getD_cases (wordOfBytes_readRange s.outBuf (4 * k) s.draws hm)⟩
    · exact ⟨_, readsOkay_of_target he (by omega) (target_bbWord hp hk) (readTarget_bbWord s k),
        fun m hm => eq_getD_cases (wordOfBits_readRange s.bitBuf (32 * k) s.draws hm)⟩

/-! ### Reads -/

/-- While Idle every register reads its value without a draw (R25). -/
theorem readsOkay_reg {s : State} (he : s.eng = .idle) (r : Reg) : s.ReadsOkay r.offset (readReg s r) s.draws :=
  readsOkay_idle he (admitted_reg s.params r)

/-- A read that took no draw changes nothing but the answers, and repeated it is answered the same (R60). -/
theorem busRead_repeat {s : State} {offset : Nat} {size : AccessSize}
    (hd : (busRead s offset size).draws = s.draws) :
    ∃ a, busRead s offset size = s.answer a ∧ busRead (s.answer a) offset size = (s.answer a).answer a := by
  cases h : admitted s.params offset size 0xF with
  | none => exact ⟨_, busRead_unadmitted h, busRead_unadmitted h⟩
  | some t =>
    rw [busRead_admitted h] at hd ⊢
    have hd' : (readMapped s t).2 = s.draws := hd
    refine ⟨.readData (readMapped s t).1 .okay, by rw [hd'], ?_⟩
    rw [busRead_admitted (s := s.answer _) h, readMapped_answer, hd']
    rfl

/-- Settles O16: no read writes anything but the answers and the draw counter, and none reads the answers. -/
theorem readsHaveNoSideEffect : Obligations.ReadsHaveNoSideEffect := by
  unfold Obligations.ReadsHaveNoSideEffect
  intro s offset size
  refine ⟨fun tg h => readsOkay_of_admitted h rfl, fun he => ?_, ?_, fun _ hd => busRead_repeat hd⟩
  · have hreg := readsOkay_reg he
    exact ⟨hreg .id, hreg .version, hreg .inCapR, hreg .outCapR, hreg .bbCapR, hreg .nodeCapR, hreg .ctrl, hreg .cmd,
      hreg .status, hreg .errInfo, hreg .errOp, hreg .inLen, hreg .outLen, hreg .bbLen, hreg .cursor, hreg .root,
      hreg .nodeCnt, hreg .symCnt, hreg .pad⟩
  · obtain ⟨a, d, h⟩ := busRead_frame s offset size
    rw [h]
    rfl

/-- The bits of STATUS outside [6:4] do not depend on the valid flags (R31, R67). -/
theorem statusWith_getLsbD_congr (s : State) (v v' : BitVec 3) {k : Nat} (hk : k ∉ [4, 5, 6]) :
    (statusWith s v).getLsbD k = (statusWith s v').getLsbD k := by
  have hfield (u : BitVec 3) : (fieldAt u 4).getLsbD k = false := by
    simp only [List.mem_cons, List.not_mem_nil, or_false, not_or] at hk
    rw [fieldAt_getLsbD]
    by_cases hlow : k < 4
    · simp [hlow]
    · simp [show 3 ≤ k - 4 by omega]
  simp only [statusWith, BitVec.getLsbD_or, hfield]

/-- While Pending, a read of any target but those R67 lists is a draw of its own. -/
theorem readPending_draw (s : State) {t : Target}
    (h : t ∉ [Target.reg .id, .reg .version, .reg .inCapR, .reg .outCapR, .reg .bbCapR, .reg .nodeCapR,
      .reg .ctrl, .reg .status]) :
    readPending s t = (Config.freshWord s.draws 0, s.draws + 1) := by
  cases t with
  | reg r =>
    cases r with
    | id | version | inCapR | outCapR | bbCapR | nodeCapR | ctrl | status => exact absurd h (by decide)
    | _ => rfl
  | _ => rfl

/-- Settles O13: the registers that always read exactly, STATUS with drawn valid flags, and a draw for the rest. -/
theorem readsWhilePending : Obligations.ReadsWhilePending := by
  unfold Obligations.ReadsWhilePending
  refine fun s c hc => ⟨fun offset r hr h => readsOkay_of_admitted h (readMapped_constant hr s),
    ⟨(Config.freshWord s.draws 0).setWidth 3, ?_, fun k _ hk => statusWith_getLsbD_congr s _ _ hk⟩,
    fun offset tg h htg => readsOkay_of_admitted h ((readMapped_pending hc tg).trans (readPending_draw s htg))⟩
  exact readsOkay_of_admitted (admitted_reg s.params .status) (readMapped_pending hc _)

/-! ### Writes -/

/-- While Pending, a write to anything but CTRL and STATUS sets OVERRUN and nothing else (R68). -/
theorem writePending_dropped (s : State) (v : Word) {t : Target} (hctrl : t ≠ .reg .ctrl)
    (hstatus : t ≠ .reg .status) : writePending s v t = { s with overrun := true } := by
  cases t with
  | reg r =>
    cases r with
    | ctrl => exact absurd rfl hctrl
    | status => exact absurd rfl hstatus
    | _ => rfl
  | _ => rfl

/-- Settles O12: the dropped writes by target; CTRL and STATUS writes act alike while Idle and while Pending. -/
theorem writesWhilePendingAreDropped : Obligations.WritesWhilePendingAreDropped := by
  unfold Obligations.WritesWhilePendingAreDropped
  refine fun s c v hc => ⟨fun offset tg h hctrl hstatus => ?_, busWrite_ctrl s v, busWrite_status s v⟩
  rw [busWrite_admitted h, writeMapped_pending hc, writePending_dropped s v hctrl hstatus]
  rfl

/-- Settles O17: no such target has an effect in `writeTarget`. -/
theorem readOnlyWritesAreIgnored : Obligations.ReadOnlyWritesAreIgnored := by
  unfold Obligations.ReadOnlyWritesAreIgnored
  intro s v offset tg he h hro
  have hignored : writeTarget s v tg = s := by
    obtain ⟨r, hr, rfl⟩ | ⟨k, rfl⟩ | ⟨i, w, rfl⟩ | ⟨k, w, rfl⟩ | ⟨k, rfl⟩ := hro
    · cases r with
      | ctrl | cmd | status | inLen | bbLen => exact absurd hr (by decide)
      | _ => rfl
    all_goals rfl
  rw [busWrite_idle he h, hignored]
  rfl

/-- The four bytes of a word written to IN_BUF from location k on (R64). -/
theorem get?_setList_bytes4 (m : Memory Byte) (k : Nat) (v : Word) (j : Nat) :
    (m.setList k (bytes4 v)).get? j =
      if j = k then some (v.extractLsb' 24 8) else if j = k + 1 then some (v.extractLsb' 16 8)
      else if j = k + 2 then some (v.extractLsb' 8 8) else if j = k + 3 then some (v.extractLsb' 0 8)
      else m.get? j := by
  rw [Memory.get?_setList, bytes4_length]
  split
  · obtain rfl | rfl | rfl | rfl : j = k ∨ j = k + 1 ∨ j = k + 2 ∨ j = k + 3 := by omega
    all_goals simp [bytes4]
  · simp (disch := omega) only [if_neg]

/-- A write to word k of the IN window while Idle (R62, R64). -/
theorem writeMapped_inWord {s : State} (he : s.eng = .idle) (v : Word) (k : Nat) :
    writeMapped s v (.inWord k) = { s with inBuf := s.inBuf.setList (4 * k) (bytes4 v) } :=
  writeMapped_idle he v (.inWord k)

/-- A word written to the IN window while Idle reads back, without a draw (R64). -/
theorem readMapped_inWord_written {s : State} (he : s.eng = .idle) (v : Word) (k : Nat) :
    readMapped { s with inBuf := s.inBuf.setList (4 * k) (bytes4 v) } (.inWord k) = (v, s.draws) := by
  rw [readMapped_idle (by exact he), readTarget_inWord_written]

/-- Settles O21: the written word is the reading of the four bytes it set. -/
theorem inWindowWriteThenRead : Obligations.InWindowWriteThenRead := by
  unfold Obligations.InWindowWriteThenRead
  intro s v k he
  rw [writeMapped_inWord he]
  have hread := readMapped_inWord_written he v k
  exact ⟨⟨get?_setList_bytes4 s.inBuf (4 * k) v, rfl, hread,
      fun offset h => ⟨busWrite_idle he h, readsOkay_of_admitted h hread⟩⟩,
    busWrite_idle he (admitted_reg s.params .inLen), readsOkay_reg (s := { s with inLen := v }) he .inLen⟩

/-- A write to word k of the BB window while Idle (R62, R65). -/
theorem writeMapped_bbWord {s : State} (he : s.eng = .idle) (v : Word) (k : Nat) :
    writeMapped s v (.bbWord k) = { s with bitBuf := s.bitBuf.setList (32 * k) (bits32 v) } :=
  writeMapped_idle he v (.bbWord k)

/-- A word written to the BB window while Idle reads back, without a draw (R65). -/
theorem readMapped_bbWord_written {s : State} (he : s.eng = .idle) (v : Word) (k : Nat) :
    readMapped { s with bitBuf := s.bitBuf.setList (32 * k) (bits32 v) } (.bbWord k) = (v, s.draws) := by
  rw [readMapped_idle (by exact he), readTarget_bbWord_written]

/-- Settles O22: the written word is the reading of the 32 bits it set. -/
theorem bitWindowWriteThenRead : Obligations.BitWindowWriteThenRead := by
  unfold Obligations.BitWindowWriteThenRead
  intro s v k he
  rw [writeMapped_bbWord he]
  have hread := readMapped_bbWord_written he v k
  -- Without this the term is matched to the statement's `let` by evaluating the 32 writes of the word.
  dsimp only
  exact ⟨⟨get?_setList_bits32 s.bitBuf (32 * k) v, rfl, hread,
      fun offset h => ⟨busWrite_idle he h, readsOkay_of_admitted h hread⟩⟩,
    busWrite_idle he (admitted_reg s.params .bbLen), readsOkay_reg (s := { s with bbLen := v }) he .bbLen⟩

end Sys2Proof.Machine
end

section
/-!
PROOFS. The encodings: command words and their illegal neighbours (O4, O5, O6), the words of the NODE and CODE windows
(O23, O24), and WAIT, which polls STATUS (O25).
-/

namespace Sys2Proof.Machine

/-! ### Command words -/

/-- The opcode map takes an opcode to the command that has it (R76). -/
theorem decodeOpcode_eq_ok_iff {op : Byte} {i : Instr} : decodeOpcode op = .ok i ↔ op = i.opcode := by
  constructor
  · intro h
    unfold decodeOpcode at h
    iterate 13
      obtain ⟨rfl, h⟩ | ⟨-, h⟩ := ite_eq_cases h
      · cases h
        rfl
    cases h
  · rintro rfl
    cases i <;> rfl

/-- A word is a command's exactly when RSVD is 0 and OPCODE is the command's (R74, R77). -/
theorem decode_eq_ok_iff {w : Word} {i : Instr} : decode w = .ok i ↔ rsvdField w = 0 ∧ opcodeField w = i.opcode := by
  unfold decode
  split
  · next h => simp only [h, true_and, decodeOpcode_eq_ok_iff]
  · next h => simp only [h, false_and, reduceCtorEq]

/-- A word with RSVD 0 is its OPCODE alone (R74). -/
theorem eq_opcodeField_of_rsvdField {w : Word} (h : rsvdField w = 0) : w = (opcodeField w).setWidth 32 := by
  have hrsvd : w.toNat / 256 % 16777216 = 0 := by
    simpa [rsvdField, Nat.shiftRight_eq_div_pow] using congrArg BitVec.toNat h
  refine BitVec.eq_of_toNat_eq ?_
  rw [opcodeField, BitVec.toNat_setWidth, BitVec.extractLsb'_toNat, Nat.shiftRight_zero]
  omega

/-- The fields of every command's word (R74, R76). -/
theorem encoding_statement : ∀ i, Laws.Encoding.Statement i
  | .nop => Laws.Encoding.nop
  | .freqBuild => Laws.Encoding.freqBuild
  | .treeBuild => Laws.Encoding.treeBuild
  | .codeExtract => Laws.Encoding.codeExtract
  | .treeSerialize => Laws.Encoding.treeSerialize
  | .encodeData => Laws.Encoding.encodeData
  | .pack => Laws.Encoding.pack
  | .unpack => Laws.Encoding.unpack
  | .treeDeserialize => Laws.Encoding.treeDeserialize
  | .decodeData => Laws.Encoding.decodeData
  | .compress => Laws.Encoding.compress
  | .decompress => Laws.Encoding.decompress
  | .out2in => Laws.Encoding.out2in

/-- Decoding is the inverse of encoding, in both directions (R74, R76). -/
theorem decode_eq_ok_iff_encode {w : Word} {i : Instr} : decode w = .ok i ↔ encode i = w := by
  rw [decode_eq_ok_iff]
  constructor
  · rintro ⟨hrsvd, hop⟩
    rw [eq_opcodeField_of_rsvdField hrsvd, hop, encode]
  · rintro rfl
    obtain ⟨hrsvd, hop, -, -⟩ := encoding_statement i
    exact ⟨hrsvd, hop⟩

theorem decode_encode (i : Instr) : decode (encode i) = .ok i := decode_eq_ok_iff_encode.2 rfl

/-- Settles O4: each word of the map is the word of its command. -/
theorem opcodeMapDecodes : Obligations.OpcodeMapDecodes := by
  unfold Obligations.OpcodeMapDecodes
  exact ⟨decode_encode .nop, decode_encode .freqBuild, decode_encode .treeBuild, decode_encode .codeExtract,
    decode_encode .treeSerialize, decode_encode .encodeData, decode_encode .pack, decode_encode .unpack,
    decode_encode .treeDeserialize, decode_encode .decodeData, decode_encode .compress, decode_encode .decompress,
    decode_encode .out2in⟩

/-- R77 calls no command's word illegal. -/
theorem wellFormed_eq_true (i : Instr) : wellFormed i = true := by
  obtain ⟨-, -, hwf, -⟩ := encoding_statement i
  exact hwf

/-- Settles O5: both directions are one equivalence. -/
theorem decodeEncodeAgree : Obligations.DecodeEncodeAgree := by
  unfold Obligations.DecodeEncodeAgree
  exact ⟨fun i => ⟨wellFormed_eq_true i, decode_encode i⟩, fun _ _ => decode_eq_ok_iff_encode.1⟩

theorem instr_mem_all (i : Instr) : i ∈ Instr.all := by
  cases i <;> decide

/-- The opcodes of R76, written out, are those of the commands. -/
theorem mem_opcodes_iff {op : Byte} :
    op ∈ [0x00, 0x10, 0x11, 0x12, 0x13, 0x14, 0x15, 0x20, 0x21, 0x22, 0x30, 0x31, 0x40] ↔
      ∃ i : Instr, op = i.opcode := by
  show op ∈ Instr.all.map Instr.opcode ↔ _
  simp only [List.mem_map, instr_mem_all, true_and, eq_comm]

/-- A word is illegal exactly when it decodes to no command (R77). -/
theorem decode_error_iff {w : Word} : (∃ e, decode w = .error e) ↔ ¬ ∃ i, decode w = .ok i := by
  cases decode w <;> simp

/-- Settles O6: a legal word is one with RSVD 0 and the opcode of a command. -/
theorem illegalWordsAreRejected : Obligations.IllegalWordsAreRejected := by
  unfold Obligations.IllegalWordsAreRejected
  intro w
  rw [decode_error_iff, mem_opcodes_iff, ← not_and_or]
  simp only [decode_eq_ok_iff, exists_and_left, rsvdField, opcodeField]

/-! ### The NODE and CODE windows -/

/-- A field above another one, as a number. -/
theorem fieldAt_or_fieldAt {m n lo : Nat} (v : BitVec n) (u : BitVec m) (h : m ≤ lo) :
    fieldAt v lo ||| fieldAt u 0 = BitVec.ofNat 32 (2 ^ lo * v.toNat + u.toNat) := by
  have hu : u.toNat < 2 ^ lo := u.isLt.trans_le (Nat.pow_le_pow_right (by decide) h)
  rw [Nat.two_pow_add_eq_or_of_lt hu]
  refine BitVec.eq_of_toNat_eq ?_
  simp [fieldAt, Nat.shiftLeft_eq, Nat.mul_comm]

/-- Word 1 of a Leaf: LEAF in bit 31 above SYM (R78). -/
theorem nodeWord_leaf_one (sym : Byte) (w : Word) :
    nodeWord (.leaf sym w) 1 = BitVec.ofNat 32 (2 ^ 31 + sym.toNat) :=
  fieldAt_or_fieldAt (1 : BitVec 1) sym (by decide)

/-- Word 0 of a CODE entry: PRESENT in bit 31 above LEN (R79). -/
theorem codeWord_zero {e : CodeEntry} (h : e.path.length ≤ 255) :
    codeWord e 0 = BitVec.ofNat 32 ((if e.present then 2 ^ 31 else 0) + e.path.length) := by
  have hlen : (BitVec.ofNat 9 e.path.length).toNat = e.path.length := by
    rw [BitVec.toNat_ofNat, Nat.mod_eq_of_lt (by omega)]
  refine (fieldAt_or_fieldAt (BitVec.ofBool e.present) (BitVec.ofNat 9 e.path.length) (by decide)).trans ?_
  rw [hlen]
  cases e.present <;> rfl

/-- A PATH word shows 32 bits of the path, 0 past its end (R79). -/
theorem codeWord_path_getLsbD (e : CodeEntry) {w j : Nat} (hw : w < 8) (hj : j < 32) :
    (codeWord e (w + 1)).getLsbD (31 - j) = e.path.getD (32 * w + j) false := by
  rw [codeWord, if_neg (Nat.succ_ne_zero w), if_pos (by omega), wordOfBits_getLsbD _ _ hj, Nat.add_sub_cancel]
  simp only [List.getD_eq_getElem?_getD, List.getElem?_drop]

section Idle

variable {s : State} (he : s.eng = .idle)

include he

/-- A specified NODE entry below NODE_CNT reads its words (R78). -/
theorem readMapped_nodeWord {i : Nat} {e : NodeEntry} (hi : i < s.nodeCnt.toNat) (h : s.node.get? i = some e)
    (w : Nat) : readMapped s (.nodeWord i w) = (nodeWord e w, s.draws) := by
  rw [readMapped_idle he]
  simp only [readTarget, if_pos hi, h]

/-- Any other NODE entry reads draws (R47, R53). -/
theorem readMapped_nodeWord_draw {i : Nat} (h : s.nodeCnt.toNat ≤ i ∨ s.node.get? i = none) (w : Nat) :
    readMapped s (.nodeWord i w) = (Config.freshWord s.draws 0, s.draws + 1) := by
  rw [readMapped_idle he]
  by_cases hi : i < s.nodeCnt.toNat
  · simp only [readTarget, if_pos hi, h.resolve_left (by omega)]
  · simp only [readTarget, if_neg hi]

/-- A specified CODE entry reads its words (R79). -/
theorem readMapped_codeWord {sym w : Nat} {e : CodeEntry} (hw : w < 9) (h : s.code.get? sym = some e) :
    readMapped s (.codeWord sym w) = (codeWord e w, s.draws) := by
  rw [readMapped_idle he]
  simp only [readTarget, if_neg (show ¬ 8 < w by omega), h]

/-- An unspecified CODE entry reads draws (R53). -/
theorem readMapped_codeWord_draw {sym w : Nat} (hw : w < 9) (h : s.code.get? sym = none) :
    readMapped s (.codeWord sym w) = (Config.freshWord s.draws 0, s.draws + 1) := by
  rw [readMapped_idle he]
  simp only [readTarget, if_neg (show ¬ 8 < w by omega), h]

/-- The reserved words of every CODE entry read 0 (R79). -/
theorem readMapped_codeWord_reserved {w : Nat} (sym : Nat) (hw : 9 ≤ w) :
    readMapped s (.codeWord sym w) = (0, s.draws) := by
  rw [readMapped_idle he, readTarget, if_pos (Nat.lt_of_succ_le hw)]

end Idle

/-- Settles O23: an entry that the window shows reads the words of its kind, any other a draw. -/
theorem nodeWindowLayout : Obligations.NodeWindowLayout := by
  unfold Obligations.NodeWindowLayout
  refine fun s i he => ⟨fun sym w hi h => ?_, fun l r w hi h => ?_, fun w h => readMapped_nodeWord_draw he h w⟩
  · have hread := readMapped_nodeWord he hi h
    exact ⟨hread 0, nodeWord_leaf_one sym w ▸ hread 1, hread 2, hread 3⟩
  · have hread := readMapped_nodeWord he hi h
    exact ⟨hread 0, hread 1, (BitVec.ofNat_toNat 32 l).symm ▸ hread 2, (BitVec.ofNat_toNat 32 r).symm ▸ hread 3⟩

/-- Settles O24: word 0 field by field, the PATH words bit by bit. -/
theorem codeWindowLayout : Obligations.CodeWindowLayout := by
  unfold Obligations.CodeWindowLayout
  refine fun s sym he => ⟨fun e h hlen => ⟨?_, fun w j hw hj => ?_⟩, fun w => readMapped_codeWord_draw he,
    fun w => readMapped_codeWord_reserved he sym⟩
  · rw [readMapped_codeWord he (by decide) h, codeWord_zero hlen]
  · rw [readMapped_codeWord he (by omega) h]
    exact ⟨codeWord_path_getLsbD e hw hj, rfl⟩

/-! ### WAIT -/

/-- BUSY shows in every reading of STATUS, whatever its valid flags are (R31, R67). -/
theorem statusWith_busy (s : State) (valids : BitVec 3) : (statusWith s valids).getLsbD 0 = s.busy :=
  (statusWith_getLsbD_congr s valids (validBits s) (by decide)).trans (statusWord_getLsbD s 0 (by decide))

theorem hostStep_wait {s : State} {rest : List Input} (h : s.inputs = .wait :: rest) :
    hostStep s = .next (waitStep s rest) := by
  simp only [hostStep, h]

/-- While Pending, WAIT reads STATUS with drawn valid flags and stays the next access (R67, R84). -/
theorem waitStep_pending {s : State} {w : Word} (h : s.eng = .pending w) (rest : List Input) :
    waitStep s rest = { s with draws := s.draws + 1 }.answer
      (.readData (statusWith s ((Config.freshWord s.draws 0).setWidth 3)) .okay) := by
  rw [waitStep, if_pos (State.busy_of_pending h), busRead_admitted (admitted_reg s.params .status),
    readMapped_pending h]
  rfl

/-- While Idle, WAIT reads STATUS and is done (R84). -/
theorem waitStep_idle {s : State} (h : s.eng = .idle) (rest : List Input) :
    waitStep s rest = { s with inputs := rest }.answer (.readData (statusWord s) .okay) := by
  rw [waitStep, if_neg (by simp [h]), busRead_admitted (admitted_reg s.params .status), readMapped_idle h]
  rfl

/-- Settles O25: BUSY is exact in every reading of STATUS, and only the read that shows 0 ends the loop. -/
theorem waitPollsStatus : Obligations.WaitPollsStatus := by
  unfold Obligations.WaitPollsStatus
  intro s rest hin
  rw [hostStep_wait hin]
  refine ⟨fun c hc => ?_, fun he => ?_⟩
  · rw [waitStep_pending hc]
    exact ⟨_, _, rfl, (statusWith_busy s _).trans (State.busy_of_pending hc), rfl, rfl⟩
  · rw [waitStep_idle he]
    exact ⟨rfl, (statusWith_busy s _).trans (State.busy_of_idle he)⟩

end Sys2Proof.Machine
end

section
/-!
PROOFS. Control: how every command completes (O10, O27, O28), ENGINE's step (O7, O8), which agent moves (O9), the issue
of a command (O11), and the lengths that every step keeps within their bounds (O57).
-/

namespace Sys2Proof.Machine

/-! ### How a command fails -/

/-- A failure is an error in the name of a primitive command that can fail (R89). -/
def Result.FailsByPrimitive (r : Result) : Prop :=
  ∀ e t, r = .failed e t → e.code ≠ .ok ∧ ∃ j, j ∉ [Instr.compress, .decompress, .nop] ∧ e.op = j.opcode

/-- A sequence fails as the first of its parts that fails (R124, R126). -/
theorem Result.FailsByPrimitive.andThen {r : Result} {f : State → Result} (hr : r.FailsByPrimitive)
    (hf : ∀ t, (f t).FailsByPrimitive) : (r.andThen f).FailsByPrimitive := by
  cases r with
  | success t => exact hf t
  | failed e t => exact hr

/-- A primitive command that fails is not NOP, and the error is in its own name (R89). -/
theorem body_failed {i : Instr} (hi : i ∉ [Instr.compress, .decompress]) {s t : State} {e : Failure}
    (h : body i s = .failed e t) :
    e.code ≠ .ok ∧ i ∉ [Instr.compress, .decompress, .nop] ∧ e.op = i.opcode := by
  obtain ⟨hcode, hop⟩ := body_failsAs i s hi e t h
  have hnop : i ≠ .nop := by rintro rfl; cases h
  exact ⟨hcode, by simpa [hnop] using hi, hop⟩

theorem primitive_failsByPrimitive (i : Instr) (s : State) (hi : i ∉ [Instr.compress, .decompress] := by decide) :
    (body i s).FailsByPrimitive := fun _ _ h =>
  let ⟨hcode, hj, hop⟩ := body_failed hi h
  ⟨hcode, i, hj, hop⟩

/-- The parts of COMPRESS are primitive commands (R124). -/
theorem compressBody_failsByPrimitive (s : State) : (compressBody s).FailsByPrimitive :=
  (primitive_failsByPrimitive .freqBuild { s with outLen := 0 }).andThen (primitive_failsByPrimitive .treeBuild ·)
    |>.andThen (primitive_failsByPrimitive .codeExtract ·)
    |>.andThen (primitive_failsByPrimitive .treeSerialize ·)
    |>.andThen (primitive_failsByPrimitive .encodeData ·)
    |>.andThen (primitive_failsByPrimitive .pack ·)

/-- The parts of DECOMPRESS are primitive commands (R126). -/
theorem decompressBody_failsByPrimitive (s : State) : (decompressBody s).FailsByPrimitive :=
  (primitive_failsByPrimitive .unpack { s with outLen := 0 }).andThen (primitive_failsByPrimitive .treeDeserialize ·)
    |>.andThen (primitive_failsByPrimitive .decodeData ·)

theorem composite_failsByPrimitive {i : Instr} (hi : i ∈ [Instr.compress, .decompress]) (s : State) :
    (body i s).FailsByPrimitive := by
  obtain rfl | rfl : i = .compress ∨ i = .decompress := by simpa using hi
  · exact compressBody_failsByPrimitive s
  · exact decompressBody_failsByPrimitive s

/-- Settles O10: every command is its body and a completion, and a body that fails does so by a primitive, which is
the command itself if that is one. -/
theorem everyCommandCompletes : Obligations.EveryCommandCompletes := by
  unfold Obligations.EveryCommandCompletes
  intro i s
  refine ⟨_, exec_eq i s, ?_⟩
  cases hb : body i s with
  | success t => exact ⟨rfl, rfl, .inl (completedOk_success t)⟩
  | failed e t =>
    refine ⟨rfl, rfl, .inr ?_⟩
    by_cases hi : i ∈ [Instr.compress, .decompress]
    · obtain ⟨hcode, j, hj, hop⟩ := composite_failsByPrimitive hi s e t hb
      exact ⟨hcode, j, hj, hop, absurd hi⟩
    · obtain ⟨hcode, hj, hop⟩ := body_failed hi hb
      exact ⟨hcode, i, hj, hop, fun _ => rfl⟩

/-! ### NOP and OUT2IN -/

/-- Settles O27: the body of NOP changes nothing. -/
theorem nopOnlyCompletes : Obligations.NopOnlyCompletes := by
  unfold Obligations.NopOnlyCompletes
  exact fun s => ⟨_, exec_eq .nop s, completedOk_success s, rfl⟩

/-- Settles O28: the two ways OUT2IN ends, by whether OUT_LEN fits IN_CAP. -/
theorem out2inRule : Obligations.Out2inRule := by
  unfold Obligations.Out2inRule
  intro s
  refine ⟨_, exec_eq .out2in s, fun hfit => ?_, fun hlong => ?_⟩
  · rw [show body .out2in s = _ from out2inBody_ok hfit]
    exact ⟨completedOk_success _, rfl,
      ⟨s.readOut.1, s.readOut_length, s.readOut_reads, Memory.written_setList _ _ _⟩, rfl⟩
  · rw [show body .out2in s = _ from out2inBody_capacity hlong]
    exact ⟨completedErr_raise _ _ _ _, rfl⟩

/-! ### ENGINE's step -/

theorem step_of_engine {s : State} (h : s.turn = .engine) : step s = engineStep s.takeTurn := by
  simp only [step, h]

theorem step_of_host {s : State} (h : s.turn = .host) : step s = hostStep s.takeTurn := by
  simp only [step, h]

theorem State.hostEnabled_iff {s : State} : s.hostEnabled = true ↔ s.inputs ≠ [] := by
  simp [State.hostEnabled]

/-- A placed word is issued and, where HOST has an access to make, a choice of ENGINE is put before the schedule
(log entry 9). -/
theorem withFetchWord_eq (s : State) (w : Word) :
    s.withFetchWord 32 w.toNat =
      if s.hostEnabled then { s.issue w with schedule := .engine :: s.schedule } else s.issue w := by
  unfold State.withFetchWord
  rw [Nat.mod_eq_of_lt w.isLt, BitVec.ofNat_toNat, BitVec.setWidth_eq]
  rfl

/-- After a word is placed it is ENGINE's turn, and taking it leaves the state in which the word is issued. -/
theorem withFetchWord_turn (s : State) (w : Word) :
    (s.withFetchWord 32 w.toNat).turn = .engine ∧ (s.withFetchWord 32 w.toNat).takeTurn = s.issue w := by
  rw [withFetchWord_eq]
  split
  · next h =>
    exact State.turn_of_both (s := { s.issue w with schedule := .engine :: s.schedule }) (s.issue_eng w)
      (State.hostEnabled_iff.1 h)
  · next h =>
    have hin : (s.issue w).inputs = [] := not_not.1 fun hne => h (State.hostEnabled_iff.2 hne)
    exact ⟨State.turn_of_no_input (s.issue_eng w) hin, State.takeTurn_of_no_input hin⟩

/-- Settles O7: ENGINE's step performs the decoded word, and a placed word is pending in ENGINE's turn. -/
theorem stepPerformsTheDecodedCommand : Obligations.StepPerformsTheDecodedCommand := by
  unfold Obligations.StepPerformsTheDecodedCommand
  refine ⟨fun s w i he hd ht => ?_,
    fun s w he hin => ⟨State.turn_of_no_input he hin, State.takeTurn_of_no_input hin⟩, fun s w i hd => ?_⟩
  · rw [step_of_engine ht, engineStep_of_decode (s.takeTurn_eng.trans he) hd]
  · obtain ⟨hturn, htake⟩ := withFetchWord_turn s w
    rw [step_of_engine hturn, htake, engineStep_of_decode (s.issue_eng w) hd]

/-- A completion written after the turn was taken shows as the taken turn alone. -/
theorem uncomplete_completeWith_takeTurn (s : State) (c : ErrCode) (n : Word) (o : Byte) :
    (s.takeTurn.completeWith c n o).uncomplete s = s.takeTurn := by
  obtain ⟨l, hl⟩ := s.takeTurn_eq
  rw [hl]
  rfl

/-- Settles O8: the completion of an illegal word is all that ENGINE's step writes. -/
theorem illegalWordCompletesWithError : Obligations.IllegalWordCompletesWithError := by
  unfold Obligations.IllegalWordCompletesWithError
  intro s w e he hd ht
  rw [step_of_engine ht, engineStep_of_illegal (s.takeTurn_eng.trans he) hd]
  exact ⟨_, rfl, rfl, rfl, rfl, rfl, rfl, uncomplete_completeWith_takeTurn s _ _ _⟩

/-! ### HOST's step and the issue -/

theorem hostStep_no_input {s : State} (h : s.inputs = []) : hostStep s = .next s := by
  simp only [hostStep, h]

theorem hostStep_powerOn {s : State} {rest : List Input} (h : s.inputs = .powerOn :: rest) :
    hostStep s = .next { s with inputs := rest }.powerCycle := by
  simp only [hostStep, h]

/-- While Idle, a machine with no host access to come stays as it is (R143). -/
theorem step_idle_no_input {s : State} (he : s.eng = .idle) (hin : s.inputs = []) : step s = .next s := by
  rw [step_of_host (State.turn_of_idle he), State.takeTurn_of_idle he, hostStep_no_input hin]

/-- Settles O9: the turn by ENG, the accesses to come and the schedule, and HOST's step by its next access. -/
theorem eitherAgentMayMoveWhilePending : Obligations.EitherAgentMayMoveWhilePending := by
  unfold Obligations.EitherAgentMayMoveWhilePending
  refine ⟨fun s w he hin => ?_,
    fun s he => ⟨State.turn_of_idle he, State.takeTurn_of_idle he, step_idle_no_input he⟩,
    fun s => step_of_host, fun s addr size rest => hostStep_read, fun s addr size strobe v rest => hostStep_write,
    fun s rest => hostStep_powerOn⟩
  obtain ⟨hturn, htake⟩ := State.turn_of_both he hin
  rw [hturn, htake]
  refine ⟨fun a rest hsch => ?_, fun hsch => ?_⟩
  · rw [hsch]
    exact ⟨rfl, rfl⟩
  · rw [hsch]
    exact ⟨rfl, by rw [List.tail_nil, ← hsch]⟩

/-- Settles O11: the write is the issue of the word and its answer. -/
theorem cmdWriteIssues : Obligations.CmdWriteIssues := by
  unfold Obligations.CmdWriteIssues
  intro s w he
  rw [busWrite_cmd he]
  exact ⟨rfl, rfl, rfl, rfl, rfl, Bool.and_false s.irqEn, rfl, rfl⟩

/-! ### The lengths that only commands write -/

/-- Each of the bounds on OUT_LEN, NODE_CNT and SYM_CNT (R93, R39, R40) that holds in `s` holds in `t`. By default
because the register is as it was. -/
structure State.KeepsLengths (s t : State) : Prop where
  outLen : s.outLen.toNat ≤ s.params.outCap → t.outLen.toNat ≤ t.params.outCap := by exact id
  nodeCnt : s.nodeCnt.toNat ≤ Config.nodeCap → t.nodeCnt.toNat ≤ Config.nodeCap := by exact id
  symCnt : s.symCnt.toNat ≤ Config.alphabet → t.symCnt.toNat ≤ Config.alphabet := by exact id

theorem State.LengthsOk.of_keeps {s t : State} (h : s.LengthsOk) (hk : s.KeepsLengths t) : t.LengthsOk :=
  let ⟨hout, hnode, hsym⟩ := h
  ⟨hk.outLen hout, hk.nodeCnt hnode, hk.symCnt hsym⟩

/-- A register holds at most the number stored in it. -/
theorem toNat_ofNat_le_of_le {n k b : Nat} (h : k ≤ b) : (BitVec.ofNat n k).toNat ≤ b := by
  rw [BitVec.toNat_ofNat]
  exact (Nat.mod_le _ _).trans h

/-- No more symbols have a count > 0 than there are symbols (R40). -/
theorem distinct_le_alphabet {counts : List Word} (h : counts.length = Config.alphabet) :
    distinct counts ≤ Config.alphabet := h ▸ distinct_le counts

/-- A tree that Parse reads has at most 256 leaves, since it has at most 511 nodes (R117). -/
theorem parseTree_leaves_le {bits : List Bool} {p : Parsed} (h : parseTree bits = .ok p) :
    p.entries.countP NodeEntry.isLeaf ≤ Config.alphabet := by
  obtain ⟨T, -, hT, hp⟩ := parseTree_ok_iff.1 h
  rw [hp, T.countP_entries, Config.alphabet]
  rw [Config.nodeCap] at hT
  have := T.size_add_one
  omega

section Lengths

variable (s : State)

theorem packBody_keepsLengths : s.KeepsLengths (packBody s).state :=
  packBody_elim (P := fun r => s.KeepsLengths r.state) s
    (long := fun _ => { outLen := fun _ => Nat.zero_le _ })
    (room := fun _ _ => { outLen := fun _ => Nat.zero_le _ })
    (ok := fun _ hroom => { outLen := fun _ => toNat_ofNat_le_of_le (by simpa using hroom) })

theorem decodeDataBody_keepsLengths : s.KeepsLengths (decodeDataBody s).state :=
  decodeDataBody_elim (P := fun r => s.KeepsLengths r.state) s
    (noTree := fun _ => { outLen := fun _ => Nat.zero_le _ })
    (long := fun _ _ => { outLen := fun _ => Nat.zero_le _ })
    (cursor := fun _ _ _ => { outLen := fun _ => Nat.zero_le _ })
    (error := fun _ _ _ _ _ _ => { outLen := fun _ => Nat.zero_le _ })
    (ok := fun _ _ _ _ hd => { outLen := fun _ => toNat_ofNat_le_of_le (decodeBits_ok hd).2 })

theorem freqBuildBody_keepsLengths : s.KeepsLengths (freqBuildBody s).state :=
  freqBuildBody_elim (P := fun r => s.KeepsLengths r.state) s
    (long := fun _ => { symCnt := fun _ => Nat.zero_le _ })
    (ok := fun _ => { symCnt := fun _ => toNat_ofNat_le_of_le (distinct_le_alphabet (freqOf_length _)) })

theorem treeBuildBody_keepsLengths : s.KeepsLengths (treeBuildBody s).state :=
  have hle : distinct s.readFreq.1 ≤ 256 := distinct_le_alphabet s.readFreq_length
  treeBuildBody_elim (P := fun r => s.KeepsLengths r.state) s
    (noFreq := fun _ => { nodeCnt := fun _ => Nat.zero_le _, symCnt := fun _ => Nat.zero_le _ })
    (empty := fun _ _ => { nodeCnt := fun _ => Nat.zero_le _, symCnt := fun _ => Nat.zero_le _ })
    (ok := fun _ _ => {
      nodeCnt := fun _ => toNat_ofNat_le_of_le (by rw [Config.nodeCap]; omega)
      symCnt := fun _ => toNat_ofNat_le_of_le hle })

theorem treeDeserializeBody_keepsLengths : s.KeepsLengths (treeDeserializeBody s).state :=
  treeDeserializeBody_elim (P := fun r => s.KeepsLengths r.state) s
    (long := fun _ => { nodeCnt := fun _ => Nat.zero_le _, symCnt := fun _ => Nat.zero_le _ })
    (malformed := fun _ _ _ => { nodeCnt := fun _ => Nat.zero_le _, symCnt := fun _ => Nat.zero_le _ })
    (ok := fun _ _ hp => {
      nodeCnt := fun _ => toNat_ofNat_le_of_le (parseTree_entries_length_le hp)
      symCnt := fun _ => toNat_ofNat_le_of_le (parseTree_leaves_le hp) })

/-- Every primitive command keeps the bounds; those with no lemma of their own write none of the registers. -/
theorem primitive_keepsLengths (i : Instr) (hi : i ∉ [Instr.compress, .decompress]) :
    s.KeepsLengths (body i s).state := by
  cases i with
  | nop => exact { }
  | out2in =>
    exact out2inBody_elim (P := fun r => s.KeepsLengths r.state) s (capacity := fun _ => { }) (ok := fun _ => { })
  | codeExtract =>
    exact codeExtractBody_elim (P := fun r => s.KeepsLengths r.state) s (noTree := fun _ => { }) (ok := fun _ => { })
  | treeSerialize =>
    exact treeSerializeBody_elim (P := fun r => s.KeepsLengths r.state) s
      (noTree := fun _ => { }) (room := fun _ _ => { }) (ok := fun _ _ => { })
  | encodeData =>
    exact encodeDataBody_elim (P := fun r => s.KeepsLengths r.state) s
      (noCode := fun _ => { }) (long := fun _ _ => { }) (full := fun _ _ _ => { })
      (error := fun _ _ _ _ _ _ => { }) (ok := fun _ _ _ _ _ => { })
  | unpack =>
    exact unpackBody_elim (P := fun r => s.KeepsLengths r.state) s
      (long := fun _ => { }) (empty := fun _ _ => { }) (padding := fun _ _ _ => { })
      (room := fun _ _ _ _ _ => { }) (ok := fun _ _ _ _ _ => { })
  | pack => exact packBody_keepsLengths s
  | decodeData => exact decodeDataBody_keepsLengths s
  | freqBuild => exact freqBuildBody_keepsLengths s
  | treeBuild => exact treeBuildBody_keepsLengths s
  | treeDeserialize => exact treeDeserializeBody_keepsLengths s
  | compress | decompress => exact absurd (by decide) hi

/-- A power-on reset puts the three registers at 0 (R144). -/
theorem powerCycle_keepsLengths : s.KeepsLengths s.powerCycle where
  outLen _ := Nat.zero_le _
  nodeCnt _ := Nat.zero_le _
  symCnt _ := Nat.zero_le _

/-- The soft reset puts the three registers at 0 (R145). -/
theorem softReset_keepsLengths : s.KeepsLengths s.softReset where
  outLen _ := Nat.zero_le _
  nodeCnt _ := Nat.zero_le _
  symCnt _ := Nat.zero_le _

end Lengths

/-- A write access leaves the three registers, or is the soft reset. -/
theorem WriteEffect.keepsLengths {s t : State} {v : Word} {tg : Option Target} (h : WriteEffect s v tg t) :
    s.KeepsLengths t := by
  cases h with
  | softReset => exact softReset_keepsLengths s
  | _ => exact { }

/-- Settles O57: the values that commands store are within the bounds, and a reset stores 0. -/
theorem stepKeepsLengthsOk : Obligations.StepKeepsLengthsOk := by
  unfold Obligations.StepKeepsLengthsOk
  intro s t h hs
  exact step_keeps (P := State.LengthsOk)
    (hown := fun _ _ _ _ _ h => h.of_keeps { })
    (hcomp := fun _ _ _ _ h => h.of_keeps { })
    (hbody := fun i _ h => body_keeps (P := State.LengthsOk)
      (fun _ h => h.of_keeps { outLen := fun _ => Nat.zero_le _ })
      (fun i s hi h => h.of_keeps (primitive_keepsLengths s i hi)) i h)
    (hwrite := fun _ _ _ _ _ _ h ht => h.of_keeps ht.keepsLengths)
    (hpower := fun s h => h.of_keeps (powerCycle_keepsLengths s)) h hs

end Sys2Proof.Machine
end

section
/-!
PROOFS. The bit buffer: what the functions Pack and Unpack answer (R94, R95, O53) and how they invert each other (R97,
O54), and the commands PACK (R98, O29) and UNPACK (R99, O30).
-/

namespace Sys2Proof.Machine

/-! ### Pack and Unpack -/

/-- R94 as an equation of a payload: its data bits are the sequence and its padding, its control byte the padding
count. No other payload has these two. -/
theorem packBytes_eq_iff {b : List Bool} {x : List Byte} :
    packBytes b = x ↔
      x.dropLast.flatMap bits8 = b ++ List.replicate (padCount b.length) false ∧
      x.getLast? = some (BitVec.ofNat 8 (padCount b.length)) := by
  have hgroups := flatMap_byteOf_groups (ceil8 b.length) (b ++ List.replicate (padCount b.length) false)
    (by simp [ceil8_pad])
  constructor
  · rintro rfl
    rw [packBytes, List.dropLast_concat, List.getLast?_concat]
    exact ⟨hgroups, rfl⟩
  · rintro ⟨hbits, hlast⟩
    rw [← List.dropLast_append_getLast? _ hlast, packBytes, flatMap_bits8_injective (hgroups.trans hbits.symm)]

/-- The padding count is the one number below 8 that makes the length a multiple of 8 (R94). -/
theorem eq_padCount {n c k : Nat} (hc : c ≤ 7) (h : n + c = 8 * k) : c = padCount n := by
  unfold padCount
  omega

/-- A list less its last `c` elements. -/
theorem take_length_sub_eq_iff {α : Type} {l b : List α} {c : Nat} (hc : c ≤ l.length) :
    l.take (l.length - c) = b ↔ ∃ r, r.length = c ∧ l = b ++ r := by
  constructor
  · rintro rfl
    exact ⟨_, by rw [List.length_drop]; omega, (List.take_append_drop (l.length - c) l).symm⟩
  · rintro ⟨r, rfl, rfl⟩
    simp

/-- R95 as an equation of a payload: its data bits are the sequence and as many bits more as its control byte says, at
most 7 and whatever they are (R96). -/
theorem unpackBytes_eq_ok_iff {x : List Byte} {b : List Bool} :
    unpackBytes x = .ok b ↔ ∃ c, x.getLast? = some c ∧ c.toNat ≤ 7 ∧
      ∃ r, r.length = c.toNat ∧ x.dropLast.flatMap bits8 = b ++ r := by
  have hlen := flatMap_bits8_length x.dropLast
  rw [List.length_dropLast] at hlen
  unfold unpackBytes
  cases hx : x.getLast? with
  | none => simp
  | some c =>
    simp only [Option.some.injEq, exists_eq_left']
    by_cases hpad : 7 < c.toNat
    · simp [hpad]
    rw [if_neg hpad]
    by_cases hroom : 8 * (x.length - 1) < c.toNat
    · rw [if_pos hroom]
      refine iff_of_false nofun ?_
      rintro ⟨-, r, hr, hbits⟩
      rw [hbits, List.length_append] at hlen
      omega
    · rw [if_neg hroom, Except.ok.injEq, unpackBits, List.length_dropLast, ← hlen,
        take_length_sub_eq_iff (by omega)]
      simp only [Nat.not_lt.1 hpad, true_and]

/-- Settles O53: the length, and the two parts of the equation of a payload. -/
theorem packFunction : Obligations.PackFunction := by
  unfold Obligations.PackFunction
  exact fun b => ⟨packBytes_length b, packBytes_eq_iff.1 rfl⟩

/-- The control byte of a payload Pack makes reads back as the padding count. -/
theorem toNat_padCount (n : Nat) : (BitVec.ofNat 8 (padCount n)).toNat = padCount n :=
  Nat.mod_eq_of_lt ((padCount_lt n).trans (by decide))

/-- R97, one direction. -/
theorem unpackBytes_packBytes (b : List Bool) : unpackBytes (packBytes b) = .ok b := by
  obtain ⟨hbits, hlast⟩ := packBytes_eq_iff.1 (rfl : packBytes b = _)
  refine unpackBytes_eq_ok_iff.2 ⟨_, hlast, ?_, _, ?_, hbits⟩
  · rw [toNat_padCount]
    exact Nat.le_of_lt_succ (padCount_lt _)
  · rw [toNat_padCount, List.length_replicate]

/-- Settles O54: the bits that Unpack drops are as many as Pack adds, so the payloads agree once these bits are 0. -/
theorem unpackInvertsPack : Obligations.UnpackInvertsPack := by
  unfold Obligations.UnpackInvertsPack
  refine ⟨unpackBytes_packBytes, fun x b h => ⟨fun hx => ⟨_, (packBytes_eq_iff.1 hx).1⟩, ?_⟩⟩
  rintro ⟨p, hbits⟩
  obtain ⟨c, hlast, hc, r, hr, hbits'⟩ := unpackBytes_eq_ok_iff.1 h
  obtain rfl : r = List.replicate p false := List.append_cancel_left (hbits'.symm.trans hbits)
  rw [List.length_replicate] at hr
  have hlen := congrArg List.length hbits
  rw [flatMap_bits8_length, List.length_append, List.length_replicate, hr] at hlen
  have hpad : c.toNat = padCount b.length := eq_padCount hc hlen.symm
  refine packBytes_eq_iff.2 ⟨by rw [hbits, hr, hpad], ?_⟩
  rw [hlast, ← hpad, BitVec.ofNat_toNat, BitVec.setWidth_eq]

/-! ### PACK and UNPACK -/

/-- Settles O29: the three ways PACK ends, in the order of its checks. -/
theorem packRule : Obligations.PackRule := by
  unfold Obligations.PackRule
  intro s
  refine ⟨_, exec_eq .pack s, fun hlong hroom => ?_, fun hlong => ?_, fun hlong hroom => ?_⟩
  · rw [show body .pack s = _ from packBody_ok hlong hroom]
    have hb : (s.readBits 0).1.length = s.bbLen.toNat := s.readBits_length 0
    refine ⟨completedOk_success _, ?_, Nat.mod_eq_of_lt (padCount_lt _),
      ⟨_, hb, s.readBits_reads 0, Memory.written_setList _ _ _⟩, rfl⟩
    have hn := s.bbLen.isLt
    calc (BitVec.ofNat 32 (packBytes (s.readBits 0).1).length).toNat
      _ = ((s.bbLen.toNat + 7) / 8 + 1) % 2 ^ 32 := by rw [packBytes_length, hb, ceil8, BitVec.toNat_ofNat]
      _ = (s.bbLen.toNat + 7) / 8 + 1 := Nat.mod_eq_of_lt (by omega)
  · rw [show body .pack s = _ from packBody_long hlong]
    exact ⟨completedErr_raise _ _ _ _, rfl, rfl⟩
  · rw [show body .pack s = _ from packBody_room hlong hroom]
    exact ⟨completedErr_raise _ _ _ _, rfl, rfl⟩

/-- Unpack keeps the bits of the data bytes but for the padding (R95). -/
theorem unpackBits_length (data : List Byte) (c : Nat) : (unpackBits data c).length = 8 * data.length - c := by
  rw [unpackBits, List.length_take, flatMap_bits8_length, Nat.min_eq_left (Nat.sub_le _ _)]

/-- Settles O30: the five ways UNPACK ends, in the order of its checks, the last three by the control byte read. -/
theorem unpackRule : Obligations.UnpackRule := by
  unfold Obligations.UnpackRule
  intro s
  refine ⟨_, exec_eq .unpack s, fun hlong => ?_, fun hlong hempty => ?_, fun hlong hpos =>
    ⟨s.payload.1, s.control.1, s.payload_length, s.payload_reads, fun hpad => ?_, fun hc hroom hbb => ?_,
      fun hc hroom hbb => ?_⟩⟩
  · rw [show body .unpack s = _ from unpackBody_long hlong]
    exact ⟨completedErr_raise _ _ _ _, rfl, rfl⟩
  · rw [show body .unpack s = _ from unpackBody_empty hlong hempty]
    exact ⟨completedErr_raise _ _ _ _, rfl, rfl⟩
  · rw [show body .unpack s = _ from unpackBody_padding hlong hpos.ne' hpad]
    exact ⟨completedErr_raise _ _ _ _, rfl, rfl⟩
  · rw [show body .unpack s = _ from unpackBody_room hlong hpos.ne' hc hroom hbb]
    exact ⟨completedErr_raise _ _ _ _, rfl, rfl⟩
  · rw [show body .unpack s = _ from unpackBody_ok hlong hpos.ne' hc hroom hbb, unpackBits_length, unpackBits,
      State.payload_length]
    exact ⟨completedOk_success _, rfl, Nat.mod_eq_of_lt (Nat.lt_succ_of_le hc), Memory.written_setList _ _ _, rfl⟩

end Sys2Proof.Machine
end

section
/-!
PROOFS. The frequency table: what `Freq` counts (R100) and the command FREQ_BUILD (R101, O31).
-/

namespace Sys2Proof.Machine

/-! ### The counts -/

/-- Of two names of one symbol, the number that the model counts by and the byte that the rule counts by, either
serves (R100). -/
theorem countP_toNat_beq (x : List Byte) {sym : Nat} (h : sym < 256) :
    x.countP (fun b => b.toNat == sym) = x.count (BitVec.ofNat 8 sym) := by
  refine List.countP_congr fun b _ => ?_
  rw [beq_iff_eq, beq_iff_eq, ← BitVec.toNat_inj, BitVec.toNat_ofNat, Nat.mod_eq_of_lt h]

/-- `Freq(x)` at a symbol (R100). -/
theorem freqOf_getElem? (x : List Byte) {sym : Nat} (h : sym < 256) :
    (freqOf x)[sym]? = some (BitVec.ofNat 32 (x.count (BitVec.ofNat 8 sym))) := by
  rw [freqOf, List.getElem?_map, List.getElem?_range h, Option.map_some, countP_toNat_beq x h]

/-- No count of an input that fits 32 bits is cut (R10). -/
theorem toNat_count {x : List Byte} (hx : x.length < 2 ^ 32) (b : Byte) :
    (BitVec.ofNat 32 (x.count b)).toNat = x.count b :=
  Nat.mod_eq_of_lt (List.count_le_length.trans_lt hx)

/-- A count is positive exactly for a symbol that occurs (R100). -/
theorem ofNat_count_ne_zero_iff {x : List Byte} (hx : x.length < 2 ^ 32) (b : Byte) :
    BitVec.ofNat 32 (x.count b) ≠ 0 ↔ b ∈ x := by
  rw [Ne, ← BitVec.toNat_inj, toNat_count hx, ← List.count_pos_iff, Nat.pos_iff_ne_zero]
  rfl

/-- SYM_CNT counts the symbols that occur (R101). -/
theorem distinct_freqOf_eq {x : List Byte} (hx : x.length < 2 ^ 32) :
    distinct (freqOf x) = ((List.range 256).filter (fun sym => BitVec.ofNat 8 sym ∈ x)).length := by
  rw [distinct, freqOf, List.countP_map, ← List.countP_eq_length_filter]
  refine List.countP_congr fun sym hsym => ?_
  rw [Function.comp_apply, countP_toNat_beq x (List.mem_range.1 hsym), bne_iff_ne, decide_eq_true_iff,
    ofNat_count_ne_zero_iff hx]

/-! ### FREQ_BUILD -/

/-- Settles O31: the two ways FREQ_BUILD ends. No count is cut because IN_LEN itself has 32 bits. -/
theorem freqBuildRule : Obligations.FreqBuildRule := by
  unfold Obligations.FreqBuildRule
  refine fun s _ => ⟨_, exec_eq .freqBuild s, fun hlen => ?_, fun hlong => ?_⟩
  · rw [show body .freqBuild s = _ from freqBuildBody_ok hlen]
    have hx : s.readIn.1.length < 2 ^ 32 := by rw [s.readIn_length]; exact s.inLen.isLt
    have hn : distinct (freqOf s.readIn.1) ≤ 256 := distinct_le_alphabet (freqOf_length _)
    refine ⟨completedOk_success _, rfl,
      ⟨_, s.readIn_length, s.readIn_reads, fun sym hsym => ?_, fun sym hsym => ?_, ?_⟩, rfl⟩
    · exact ⟨_, (Memory.get?_ofList _ sym).trans (freqOf_getElem? _ hsym), toNat_count hx _⟩
    · exact (Memory.get?_ofList _ sym).trans (List.getElem?_eq_none ((freqOf_length _).trans_le hsym))
    · rw [← distinct_freqOf_eq hx]
      exact Nat.mod_eq_of_lt (hn.trans_lt (by decide))
  · rw [show body .freqBuild s = _ from freqBuildBody_long hlong]
    exact ⟨completedErr_raise _ _ _ _, rfl, rfl, rfl⟩

end Sys2Proof.Machine
end

section
/-!
PROOFS. The tree builder (43_tree_builder.md): what TREE_BUILD leaves (R104, R107, R108, O32), the two entries that
each merge takes (R103, R105, O33) and what the root weighs (R106, O34).
-/

namespace Sys2Proof.Machine

/-! ### The arena that the counts make (R104, R107) -/

/-- The symbols that Init lists are those of count > 0, in ascending order, each with its count (R104). -/
theorem presentSymbols_eq_map {counts : List Word} (hl : counts.length = 256) :
    presentSymbols counts = ((List.range 256).filter (fun k => counts.getD k 0 ≠ 0)).map
      (fun k => (k, counts.getD k 0)) := by
  rw [presentSymbols_eq, hl]
  refine congrArg (List.map _) (List.filter_congr fun k _ => ?_)
  rw [Bool.eq_iff_iff, bne_iff_ne, decide_eq_true_iff]

/-- Their number is the L of R104, by which the model counts. -/
theorem length_filter_counts {counts : List Word} (hl : counts.length = 256) :
    ((List.range 256).filter (fun k => counts.getD k 0 ≠ 0)).length = distinct counts := by
  rw [← presentSymbols_length, presentSymbols_eq_map hl, List.length_map]

/-- A symbol of count > 0 is enough for TREE_BUILD's check (R108). -/
theorem distinct_ne_zero_of_getD {counts : List Word} {k : Nat} (h : counts.getD k 0 ≠ 0) : distinct counts ≠ 0 := by
  have hk : k < counts.length := Nat.lt_of_not_le fun hk => h (List.getD_eq_default _ _ hk)
  rw [List.getD_eq_getElem _ _ hk] at h
  exact Nat.ne_of_gt (List.countP_pos_iff.2 ⟨counts[k], List.getElem_mem hk, bne_iff_ne.2 h⟩)

/-- The leaves come first, in the order of their symbols (R104). -/
theorem buildTree_getElem?_leaf {counts : List Word} (hl : counts.length = 256) {j sym : Nat}
    (hj : ((List.range 256).filter (fun k => counts.getD k 0 ≠ 0))[j]? = some sym) :
    (buildTree counts).1[j]? = some (.leaf (BitVec.ofNat 8 sym) (counts.getD sym 0)) := by
  rw [buildTree_eq]
  refine getElem?_append_of_some ?_
  rw [leafEntries, presentSymbols_eq_map hl, List.getElem?_map, List.getElem?_map, hj]
  rfl

/-- Every entry after the leaves is an Internal one (R105). -/
theorem buildTree_getElem?_internal {counts : List Word} {j : Nat} (hd : distinct counts ≠ 0)
    (hj : distinct counts ≤ j) (hj' : j < 2 * distinct counts - 1) :
    ∃ l r w, (buildTree counts).1[j]? = some (.internal l r w) := by
  obtain ⟨e, he⟩ : ∃ e, (buildTree counts).1[j]? = some e :=
    ⟨_, List.getElem?_eq_getElem (by rwa [buildTree_length hd])⟩
  rw [he]
  rw [buildTree_eq, List.getElem?_append_right (by rwa [leafEntries_length, presentSymbols_length])] at he
  obtain ⟨l, r, w, rfl⟩ := mergeAll_internal (List.mem_of_getElem? he)
  exact ⟨l, r, w, rfl⟩

/-! ### TREE_BUILD -/

theorem exec_treeBuild (s : State) : exec .treeBuild s = .next (complete (treeBuildBody s)) := rfl

/-- No register of TREE_BUILD cuts what is stored in it: there are at most 256 leaves (R38, R39, R40). -/
theorem buildTree_registers {counts : List Word} (hl : counts.length = 256) (hd : distinct counts ≠ 0) :
    (BitVec.ofNat 9 (distinct counts)).toNat = distinct counts ∧
    (BitVec.ofNat 10 (2 * distinct counts - 1)).toNat = 2 * distinct counts - 1 ∧
    (BitVec.ofNat 9 (buildTree counts).2).toNat = (buildTree counts).2 := by
  have hle : distinct counts ≤ 256 := distinct_le_alphabet hl
  have hroot := buildTree_root hd
  exact ⟨Nat.mod_eq_of_lt (by omega), Nat.mod_eq_of_lt (by omega), Nat.mod_eq_of_lt (by omega)⟩

theorem complete_node (r : Result) : (complete r).node = r.state.node := by
  cases r <;> rfl

/-- The frame of a TREE_BUILD that writes a tree (R108). -/
theorem untree_complete_success (s : State) (node : Memory NodeEntry) (root : BitVec 9) (nodeCnt : BitVec 10)
    (symCnt : BitVec 9) (draws : Nat) :
    { ((complete (.success { s with
        node := node, root := root, nodeCnt := nodeCnt, symCnt := symCnt, treeValid := true, codeValid := false,
        draws := draws })).uncomplete s).untree s with node := s.node } = s := rfl

/-- Settles O32: the three ways TREE_BUILD ends, in the order of its checks. -/
theorem treeBuildRule : Obligations.TreeBuildRule := by
  unfold Obligations.TreeBuildRule
  intro s
  refine ⟨_, exec_treeBuild s, fun hv => ?_, fun hv =>
    ⟨s.readFreq.1, s.readFreq_length, s.readFreq_reads, fun hn => ?_, fun hn => ?_⟩⟩
  · rw [treeBuildBody_noFreq hv]
    exact ⟨completedErr_raise _ _ _ _, rfl, rfl, rfl, rfl, rfl, rfl⟩
  · rw [length_filter_counts s.readFreq_length] at hn
    rw [treeBuildBody_empty hv hn]
    exact ⟨completedErr_raise _ _ _ _, rfl, rfl, rfl, rfl, rfl, rfl⟩
  · rw [length_filter_counts s.readFreq_length] at hn ⊢
    obtain ⟨hsym, hcnt, hroot⟩ := buildTree_registers s.readFreq_length hn.ne'
    rw [treeBuildBody_ok hv hn.ne']
    simp only [complete_node, Result.state_success, Memory.get?_ofList]
    refine ⟨completedOk_success _, rfl, rfl, hsym, hcnt, hroot.trans (buildTree_root hn.ne'), fun j sym hj => ?_,
      fun j hj hj' => ?_, fun j hj => ?_, untree_complete_success ..⟩
    · exact buildTree_getElem?_leaf s.readFreq_length hj
    · exact buildTree_getElem?_internal hn.ne' hj hj'
    · exact List.getElem?_eq_none ((buildTree_length hn.ne').trans_le hj)

/-- TREE_BUILD on specified counts, one of them > 0: it succeeds and leaves the tree of the counts. -/
theorem exec_treeBuild_specified {s : State} {counts : List Word} (hv : s.freqValid = true)
    (hl : counts.length = 256) (hf : ∀ k, k < 256 → s.freq.get? k = counts[k]?) (hd : distinct counts ≠ 0) :
    ∃ t, exec .treeBuild s = .next t ∧ t.CompletedOk ∧ t.node = Memory.ofList (buildTree counts).1 ∧
      t.arena = (buildTree counts).1 ∧ t.root.toNat = (buildTree counts).2 := by
  have hread : s.readFreq.1 = counts := congrArg Prod.fst (State.readFreq_specified s hl hf)
  obtain ⟨-, hcnt, hroot⟩ := buildTree_registers hl hd
  have hbody := treeBuildBody_ok hv (by rwa [hread])
  rw [hread] at hbody
  refine ⟨_, exec_treeBuild s, ?_⟩
  rw [hbody]
  exact ⟨completedOk_success _, rfl, (State.arena_of_ofList rfl (hcnt.trans (buildTree_length hd).symm)).2, hroot⟩

/-! ### The merges (R103, R105) -/

/-- The entry that a merge of two triples makes (R105). -/
def mergeEntry (a b : QueueItem) : NodeEntry :=
  .internal (BitVec.ofNat 9 a.index) (BitVec.ofNat 9 b.index) (BitVec.ofNat 32 (a.weight + b.weight))

/-- The triple that the merge inserts for its entry, which stands at `next` (R105). -/
def mergeItem (a b : QueueItem) (next : Nat) : QueueItem :=
  { weight := a.weight + b.weight, stamp := next, index := next }

/-- What each merge keeps holds of the whole arena and the one triple that the merges end with (R107). -/
theorem mergeAll_induction {P : List NodeEntry → List QueueItem → Prop}
    (merge : ∀ {pre : List NodeEntry} {a b : QueueItem} {q : List QueueItem}, pre.length ≤ 511 → P pre (a :: b :: q) →
      P (pre ++ [mergeEntry a b]) (enqueue (mergeItem a b pre.length) q))
    {fuel : Nat} {pre : List NodeEntry} {q : List QueueItem} (hq : q ≠ []) (hf : q.length ≤ fuel + 1)
    (hcap : pre.length + q.length ≤ 512) (h : P pre q) :
    ∃ a, (mergeAll fuel pre.length pre.length q).2 = a.index ∧
      P (pre ++ (mergeAll fuel pre.length pre.length q).1) [a] := by
  induction fuel generalizing pre q with
  | zero =>
    match q, hq with
    | [a], _ => exact ⟨a, rfl, by simpa [mergeAll_single] using h⟩
    | a :: b :: q, _ => simp only [List.length_cons] at hf; omega
  | succ fuel ih =>
    match q, hq with
    | [a], _ => exact ⟨a, rfl, by simpa [mergeAll_single] using h⟩
    | a :: b :: q, _ =>
      simp only [List.length_cons] at hf hcap
      have hlen := enqueue_length (mergeItem a b pre.length) q
      have := ih (pre := pre ++ [mergeEntry a b]) (q := enqueue (mergeItem a b pre.length) q)
        (List.ne_nil_of_length_eq_add_one hlen) (by omega)
        (by rw [List.length_append, List.length_singleton]; omega) (merge (by omega) h)
      simpa [mergeAll_cons_cons, mergeEntry, mergeItem] using this

/-- Left `l`, Right `r` and weight `w` are what a merge makes of the entries before `i` that are not yet taken: the
least by (weight, stamp) on the Left, the least of the others on the Right, and the sum of the two (R103, R105). -/
structure TakesTheTwoLeast (arena : List NodeEntry) (i : Nat) (l r : BitVec 9) (w : Word) : Prop where
  left_lt : l.toNat < i
  right_lt : r.toNat < i
  ne : l ≠ r
  left_free : ¬ Consumed arena i l.toNat
  right_free : ¬ Consumed arena i r.toNat
  left_first : PopsNoLater arena l.toNat r.toNat
  right_next : ∀ j, j < i → ¬ Consumed arena i j → j ≠ l.toNat → j ≠ r.toNat → PopsNoLater arena r.toNat j
  weight : w.toNat = (nodeAt arena l.toNat).weight.toNat + (nodeAt arena r.toNat).weight.toNat

/-- Every Internal entry is such a merge. -/
def Merged (arena : List NodeEntry) : Prop :=
  ∀ i l r w, arena[i]? = some (.internal l r w) → TakesTheTwoLeast arena i l r w

theorem PopsNoLater.append {pre : List NodeEntry} {a b : Nat} (h : PopsNoLater pre a b) (post : List NodeEntry) :
    PopsNoLater (pre ++ post) a b :=
  let ⟨ea, eb, ha, hb, hle⟩ := h
  ⟨ea, eb, getElem?_append_of_some ha, getElem?_append_of_some hb, hle⟩

theorem nodeAt_append {pre : List NodeEntry} {n : Nat} (h : n < pre.length) (post : List NodeEntry) :
    nodeAt (pre ++ post) n = nodeAt pre n := List.getD_append _ _ _ _ h

/-- Later entries do not change what a merge took. -/
theorem TakesTheTwoLeast.append {pre : List NodeEntry} {i : Nat} {l r : BitVec 9} {w : Word}
    (h : TakesTheTwoLeast pre i l r w) (hi : i ≤ pre.length) (post : List NodeEntry) :
    TakesTheTwoLeast (pre ++ post) i l r w where
  left_lt := h.left_lt
  right_lt := h.right_lt
  ne := h.ne
  left_free := by rw [consumed_append hi]; exact h.left_free
  right_free := by rw [consumed_append hi]; exact h.right_free
  left_first := h.left_first.append post
  right_next j hj hfree hl hr := by
    rw [consumed_append hi] at hfree
    exact (h.right_next j hj hfree hl hr).append post
  weight := by rw [nodeAt_append (h.left_lt.trans_le hi), nodeAt_append (h.right_lt.trans_le hi)]; exact h.weight

/-- The popping order of the structure is that of the entries: a triple's stamp is its index. -/
theorem QueueOk.popsNoLater {pre : List NodeEntry} {q : List QueueItem} {total : Nat} (h : QueueOk pre q total)
    {t u : QueueItem} (ht : t ∈ q) (hu : u ∈ q) (hle : t.le u) : PopsNoLater pre t.index u.index := by
  obtain ⟨hst, et, het, hwt⟩ := h.items t ht
  obtain ⟨hsu, eu, heu, hwu⟩ := h.items u hu
  refine ⟨et, eu, het, heu, hle.imp (fun hlt => ?_) (fun ⟨heq, hstamp⟩ => ⟨BitVec.eq_of_toNat_eq ?_, ?_⟩)⟩
  · rwa [hwt, hwu]
  · rw [hwt, hwu, heq]
  · rwa [← hst, ← hsu]

/-- The first two triples of the structure are the two least of the entries not yet taken. -/
theorem QueueOk.takesTheTwoLeast {pre : List NodeEntry} {a b : QueueItem} {q : List QueueItem} {total : Nat}
    (h : QueueOk pre (a :: b :: q) total) (hcap : pre.length ≤ 511) (htotal : total < 2 ^ 32) :
    TakesTheTwoLeast pre pre.length (BitVec.ofNat 9 a.index) (BitVec.ofNat 9 b.index)
      (BitVec.ofNat 32 (a.weight + b.weight)) := by
  obtain ⟨-, ea, hea, hwa⟩ := h.items a (by simp)
  obtain ⟨-, eb, heb, hwb⟩ := h.items b (by simp)
  have hia : a.index < pre.length := (List.getElem?_eq_some_iff.1 hea).1
  have hib : b.index < pre.length := (List.getElem?_eq_some_iff.1 heb).1
  have hla : (BitVec.ofNat 9 a.index).toNat = a.index := Nat.mod_eq_of_lt (by omega)
  have hlb : (BitVec.ofNat 9 b.index).toNat = b.index := Nat.mod_eq_of_lt (by omega)
  have hsum : a.weight + (b.weight + (q.map QueueItem.weight).sum) = total := h.sum
  have hne : a.index ≠ b.index := by
    have hnodup := h.nodup
    simp only [List.map_cons, List.nodup_cons, List.mem_cons, not_or] at hnodup
    exact hnodup.1.1
  obtain ⟨ha, hsorted⟩ := List.pairwise_cons.1 h.sorted
  obtain ⟨hb, -⟩ := List.pairwise_cons.1 hsorted
  refine ⟨by rwa [hla], by rwa [hlb], fun heq => hne ?_, ?_, ?_, ?_, fun j hj hfree hja hjb => ?_, ?_⟩
  · rw [← hla, ← hlb, heq]
  · rw [hla]; exact (h.free _ hia).1 (by simp)
  · rw [hlb]; exact (h.free _ hib).1 (by simp)
  · rw [hla, hlb]; exact h.popsNoLater (by simp) (by simp) (ha b (by simp))
  · rw [hla] at hja
    rw [hlb] at hjb ⊢
    obtain ⟨t, ht, rfl⟩ := List.mem_map.1 ((h.free j hj).2 hfree)
    have htq : t ∈ q := by
      rcases List.mem_cons.1 ht with rfl | ht
      · exact absurd rfl hja
      · rcases List.mem_cons.1 ht with rfl | ht
        · exact absurd rfl hjb
        · exact ht
    exact h.popsNoLater (by simp) ht (hb t htq)
  · rw [hla, hlb, nodeAt_of_getElem? hea, nodeAt_of_getElem? heb, hwa, hwb]
    exact Nat.mod_eq_of_lt (by omega)

/-- An entry that takes the two least keeps every entry one that does. -/
theorem Merged.append {pre : List NodeEntry} {l r : BitVec 9} {w : Word} (h : Merged pre)
    (hnew : TakesTheTwoLeast pre pre.length l r w) : Merged (pre ++ [.internal l r w]) := by
  intro i l' r' w' he
  rcases Nat.lt_or_ge i pre.length with hi | hi
  · rw [List.getElem?_append_left hi] at he
    exact (h i l' r' w' he).append hi.le _
  · obtain rfl : i = pre.length := by
      have hlt := (List.getElem?_eq_some_iff.1 he).1
      rw [List.length_append, List.length_singleton] at hlt
      omega
    rw [List.getElem?_concat_length, Option.some.injEq, NodeEntry.internal.injEq] at he
    obtain ⟨rfl, rfl, rfl⟩ := he
    exact hnew.append le_rfl _

/-- In the tree of counts that do not overflow every Internal entry takes the two least, and one triple is left: that
of the root, whose weight is the sum of all counts (R105, R106, R107). -/
theorem buildTree_merged {counts : List Word} (hl : counts.length = 256) (hd : distinct counts ≠ 0)
    (hsum : (counts.map BitVec.toNat).sum < 2 ^ 32) :
    ∃ a : QueueItem, (buildTree counts).2 = a.index ∧ Merged (buildTree counts).1 ∧
      QueueOk (buildTree counts).1 [a] (counts.map BitVec.toNat).sum := by
  have hle : distinct counts ≤ 256 := distinct_le_alphabet hl
  have hlen : (leafEntries (presentSymbols counts)).length = distinct counts := by
    rw [leafEntries_length, presentSymbols_length]
  have hleaves : Merged (leafEntries (presentSymbols counts)) := by
    intro i l r w he
    simp [leafEntries] at he
  have h := mergeAll_induction (fuel := distinct counts)
    (P := fun arena q => Merged arena ∧ QueueOk arena q (counts.map BitVec.toNat).sum)
    (fun hcap ⟨hm, hq⟩ => ⟨hm.append (hq.takesTheTwoLeast hcap hsum), hq.merge hcap hsum⟩)
    (initQueue_present_ne_nil hd) (by simp [presentSymbols_length])
    (by rw [hlen, initQueue_length, presentSymbols_length]; omega) ⟨hleaves, queueOk_init counts⟩
  rw [hlen] at h
  rw [buildTree_eq]
  exact h

/-- Settles O33: each merge takes the two triples at the front of the structure, which is kept in popping order. -/
theorem mergeTakesTheTwoLeast : Obligations.MergeTakesTheTwoLeast := by
  unfold Obligations.MergeTakesTheTwoLeast
  intro s counts hv hl hf hsum ⟨k, hk⟩
  have hd := distinct_ne_zero_of_getD hk
  obtain ⟨t, hexec, hok, hnode, harena, -⟩ := exec_treeBuild_specified hv hl hf hd
  obtain ⟨-, -, hmerged, -⟩ := buildTree_merged hl hd hsum
  refine ⟨t, hexec, hok, fun i l r w he => ?_⟩
  rw [hnode, Memory.get?_ofList] at he
  rw [harena]
  obtain ⟨hlt, hrt, hne, hlf, hrf, hfirst, hnext, hweight⟩ := hmerged i l r w he
  exact ⟨hlt, hrt, hne, hlf, hrf, hfirst, hnext, hweight⟩

/-- Settles O34: no merge changes the sum of the weights in the structure, and the root's is the last one there. -/
theorem rootWeightIsTheSumOfCounts : Obligations.RootWeightIsTheSumOfCounts := by
  unfold Obligations.RootWeightIsTheSumOfCounts
  intro s counts hv hl hf hsum ⟨k, hk⟩
  have hd := distinct_ne_zero_of_getD hk
  obtain ⟨t, hexec, hok, hnode, -, hroot⟩ := exec_treeBuild_specified hv hl hf hd
  obtain ⟨a, ha, -, hqueue⟩ := buildTree_merged hl hd hsum
  obtain ⟨-, e, he, hweight⟩ := hqueue.items a (List.mem_singleton_self a)
  refine ⟨t, e, hexec, hok, ?_, ?_⟩
  · rw [hnode, Memory.get?_ofList, hroot, ha, he]
  · calc e.weight.toNat
      _ = ([a].map QueueItem.weight).sum := hweight
      _ = _ := hqueue.sum

end Sys2Proof.Machine
end

section
/-!
PROOFS. The codes that CODE_EXTRACT derives: none begins with another symbol's (44_code_table.md R109, O36).
-/

namespace Sys2Proof.Machine

/-- Each assignment of a walk is a code of the shape the walk sees, whatever the arena holds (R110, R112). -/
theorem decodes_of_mem_codeWrites {arena : List NodeEntry} {root : Nat} {w : Byte × List Bool}
    (h : w ∈ codeWrites arena root) : (shapeAt arena arena.length root).decodes w.2 = some w.1 := by
  obtain ⟨sym, p⟩ := w
  cases arena with
  | nil =>
    obtain ⟨rfl, rfl⟩ : sym = Config.strayLeaf root ∧ p = [true] := Prod.mk.inj (List.mem_singleton.1 h)
    rfl
  | cons e es =>
    rw [codeWrites] at h
    cases hroot : nodeAt (e :: es) root with
    | leaf x _ =>
      obtain ⟨rfl, rfl⟩ : sym = x ∧ p = [true] := by simpa [hroot] using h
      simp [shapeAt, hroot, Shape.decodes]
    | internal l r _ =>
      rw [hroot] at h
      obtain ⟨u, rfl, hu⟩ := Shape.mem_paths.1 (walk_eq _ _ _ _ ▸ h)
      simpa [shapeAt, hroot, Shape.decodes] using hu

/-- No code of a shape goes on beyond another (R109). -/
theorem Shape.decodes_append {T : Shape} {u v : List Bool} {a b : Byte} (h : T.decodes u = some a)
    (h' : T.decodes (u ++ v) = some b) : a = b := by
  cases T with
  | leaf sym => simp_all [Shape.decodes]
  | fork l r => exact (Shape.symbolAt_append h h').2

/-- A present entry of the code table was assigned to its symbol (R111, R113). -/
theorem mem_of_codeTable_present {ws : List (Byte × List Bool)} {k : Nat} {e : CodeEntry}
    (he : (codeTable ws).get? k = some e) (hp : e.present = true) : ∃ w ∈ ws, w.1.toNat = k ∧ w.2 = e.path := by
  rcases codeTable_get? ws (Memory.lt_of_get? (codeTable_below ws) he) with ⟨habs, -⟩ | ⟨us, w, vs, rfl, hw, -, hlast⟩
  · obtain rfl : absentCode = e := Option.some.inj (habs.symm.trans he)
    cases hp
  · obtain rfl : _ = e := Option.some.inj (hlast.symm.trans he)
    exact ⟨w, by simp, hw, rfl⟩

/-- Settles O36: the paths of present entries are codes of one shape, where only one symbol's codes begin alike. -/
theorem codesArePrefixFree : Obligations.CodesArePrefixFree := by
  unfold Obligations.CodesArePrefixFree
  intro s hv
  refine ⟨_, exec_eq .codeExtract s, ?_⟩
  rw [show body .codeExtract s = _ from codeExtractBody_ok hv]
  rintro a b ea eb hea heb hne hpa hpb ⟨v, hpre⟩
  obtain ⟨wa, hwa, rfl, hpatha⟩ := mem_of_codeTable_present hea hpa
  obtain ⟨wb, hwb, rfl, hpathb⟩ := mem_of_codeTable_present heb hpb
  have hda := decodes_of_mem_codeWrites hwa
  have hdb := decodes_of_mem_codeWrites hwb
  rw [hpatha] at hda
  rw [hpathb, ← hpre] at hdb
  exact hne (congrArg BitVec.toNat (Shape.decodes_append hda hdb))

end Sys2Proof.Machine
end

section
/-!
PROOFS. CODE_EXTRACT (44_code_table.md R113, O35): its table holds, for each symbol of the tree, the last of its codes
in pre-order (R110, R111, R112).
-/

namespace Sys2Proof.Machine

section Derived

variable {arena : List NodeEntry} {root : Nat} (hok : ArenaOk arena root)

include hok

/-- On a tree as R48 says the assignments are the codes (R110, R112). -/
theorem ArenaOk.mem_codeWrites {sym : Byte} {p : List Bool} :
    (sym, p) ∈ codeWrites arena root ↔ IsCodeOf arena root p sym := by
  obtain ⟨T, hT, hsize⟩ := hok.isTree
  exact (Machine.mem_codeWrites hT hsize.le).trans hT.isCodeOf_iff.symm

/-- Assignments are made in pre-order of their paths (R111). -/
theorem ArenaOk.codeWrites_ordered : (codeWrites arena root).Pairwise (fun a b => PathBefore a.2 b.2) := by
  obtain ⟨T, hT, hsize⟩ := hok.isTree
  rw [codeWrites_eq hT hsize.le]
  cases T with
  | leaf x => exact List.pairwise_singleton _ _
  | fork l r => exact Shape.paths_ordered _ _

/-- The last assignment of a symbol is the last of its codes in pre-order (R111). -/
theorem ArenaOk.code_eq_or_before_last {us vs : List (Byte × List Bool)} {w : Byte × List Bool} {p : List Bool}
    (hws : codeWrites arena root = us ++ w :: vs) (hlast : ∀ v ∈ vs, v.1 ≠ w.1) (hp : IsCodeOf arena root p w.1) :
    p = w.2 ∨ PathBefore p w.2 := by
  have hmem : (w.1, p) ∈ us ++ w :: vs := hws ▸ hok.mem_codeWrites.2 hp
  have hord : (us ++ w :: vs).Pairwise (fun a b => PathBefore a.2 b.2) := hws ▸ hok.codeWrites_ordered
  rcases List.mem_append.1 hmem with hus | hw
  · exact .inr ((List.pairwise_append.1 hord).2.2 _ hus w List.mem_cons_self)
  rcases List.mem_cons.1 hw with heq | hvs
  · exact .inl (congrArg Prod.snd heq)
  · exact absurd rfl (hlast (w.1, p) hvs)

/-- An entry of the derived table is absent and its symbol has no code, or it holds the last code of its symbol. -/
theorem ArenaOk.codeTable_get? {sym : Nat} (hsym : sym < 256) :
    ((codeTable (codeWrites arena root)).get? sym = some absentCode ∧
      ∀ p, ¬ IsCodeOf arena root p (BitVec.ofNat 8 sym)) ∨
    ∃ path, (codeTable (codeWrites arena root)).get? sym = some { present := true, path := path } ∧
      IsCodeOf arena root path (BitVec.ofNat 8 sym) ∧
      ∀ p, IsCodeOf arena root p (BitVec.ofNat 8 sym) → p = path ∨ PathBefore p path := by
  rcases Machine.codeTable_get? (codeWrites arena root) hsym with ⟨he, hnone⟩ | ⟨us, w, vs, hws, rfl, hlast, he⟩
  · refine .inl ⟨he, fun p hp => hnone _ (hok.mem_codeWrites.2 hp) ?_⟩
    exact Nat.mod_eq_of_lt hsym
  · rw [BitVec.ofNat_toNat, BitVec.setWidth_eq]
    have hcode : IsCodeOf arena root w.2 w.1 := hok.mem_codeWrites.1 (by rw [hws]; simp)
    exact .inr ⟨w.2, he, hcode, fun p => hok.code_eq_or_before_last hws hlast⟩

end Derived

/-- Settles O35: the two ways CODE_EXTRACT ends, and the two kinds of entry in the table it derives. -/
theorem codeExtractRule : Obligations.CodeExtractRule := by
  unfold Obligations.CodeExtractRule
  refine fun s => ⟨_, exec_eq .codeExtract s, fun hv => ?_, fun hv => ?_⟩
  · rw [show body .codeExtract s = _ from codeExtractBody_noTree hv]
    exact ⟨completedErr_raise _ _ _ _, rfl, rfl⟩
  · rw [show body .codeExtract s = _ from codeExtractBody_ok hv]
    refine ⟨completedOk_success _, rfl, rfl, fun ⟨_, _, hok⟩ sym hsym => ?_⟩
    rcases hok.codeTable_get? hsym with ⟨he, hnone⟩ | ⟨path, he, hcode, hlast⟩
    · exact ⟨absentCode, he, ⟨nofun, fun ⟨p, hp⟩ => absurd hp (hnone p)⟩, nofun, fun _ => rfl⟩
    · exact ⟨{ present := true, path := path }, he, ⟨fun _ => ⟨path, hcode⟩, fun _ => rfl⟩,
        fun _ => ⟨hcode, hlast⟩, nofun⟩

end Sys2Proof.Machine
end

section
/-!
PROOFS. The tree encoding (45_tree_serdes.md): TREE_DESERIALIZE gives back every encoded tree (R119, O40), its rule
(R118, O39), and TREE_SERIALIZE's rule (R116, O37) and lengths (R115, O38).
-/

namespace Sys2Proof.Machine

/-! ### The tree that Parse leaves (R117) -/

/-- Parsing an encoding of at most 511 nodes gives the entries of its tree, whatever bits follow. -/
theorem parseTree_encode {T : Shape} (hT : T.size ≤ Config.nodeCap) (z : List Bool) :
    parseTree (T.encode ++ z) = .ok { entries := T.entries 0, cursor := T.encode.length, rest := z } :=
  parseTree_ok_iff.2 ⟨T, rfl, hT, rfl⟩

/-- NODE, ROOT and NODE_CNT hold the entries that Parse makes for the tree `T`, and no other entry is specified. -/
structure State.HoldsParsed (t : State) (T : Shape) : Prop where
  fits : T.size ≤ Config.nodeCap
  node : t.node = Memory.ofList (T.entries 0)
  root : t.root = 0
  nodeCnt : t.nodeCnt.toNat = T.size

section HoldsParsed

variable {t : State} {T : Shape} (h : t.HoldsParsed T)

include h

theorem State.HoldsParsed.arena : t.arena = T.entries 0 :=
  (State.arena_of_ofList h.node (by rw [h.nodeCnt, T.entries_length])).2

/-- The arena is the tree, and its entries are visited in the order of their indices. -/
theorem State.HoldsParsed.isTree :
    IsTree t.arena 0 T ∧ ∀ fuel, T.size ≤ fuel → visits t.arena fuel 0 = List.range' 0 T.size := by
  have hfits : T.size ≤ 511 := h.fits
  exact isTree_entries (by omega) (fun j _ => by rw [h.arena, Nat.zero_add])

theorem State.HoldsParsed.shapeAt : shapeAt t.arena T.size 0 = T := h.isTree.1.shapeAt le_rfl

theorem State.HoldsParsed.visits : visits t.arena T.size 0 = List.range T.size := by
  rw [h.isTree.2 _ le_rfl, List.range_eq_range']

theorem State.HoldsParsed.treeOk : t.TreeOk :=
  State.treeOk_of_ofList (parseTree_arenaOk (parseTree_encode h.fits [])) (by simpa using h.fits) h.node
    (by simpa using h.nodeCnt) (by rw [h.root]; rfl)

/-- Every specified NODE entry is one of the tree's, with weight 0. -/
theorem State.HoldsParsed.of_get? {j : Nat} {e : NodeEntry} (he : t.node.get? j = some e) :
    j < T.size ∧ e.weight = 0 := by
  rw [h.node, Memory.get?_ofList] at he
  obtain ⟨hj, -⟩ := List.getElem?_eq_some_iff.1 he
  exact ⟨by simpa using hj, Shape.weight_entries (List.mem_of_getElem? he)⟩

end HoldsParsed

/-! ### TREE_DESERIALIZE (R118) -/

/-- On bits that begin with the encoding of a tree that fits, TREE_DESERIALIZE succeeds and leaves that tree; no
register cuts what is stored in it. -/
theorem treeDeserialize_encode {s : State} {T : Shape} {z : List Bool} (hcap : s.bbLen.toNat ≤ s.params.bbCap)
    (hbits : (s.readBits 0).1 = T.encode ++ z) (hT : T.size ≤ Config.nodeCap) :
    let t := complete (body .treeDeserialize s)
    t.CompletedOk ∧ t.HoldsParsed T ∧ t.treeValid = true ∧ t.cursor.toNat = T.encode.length ∧
      t.symCnt.toNat = T.leaves := by
  have hparse := parseTree_encode hT z
  rw [← hbits] at hparse
  have hbody := treeDeserializeBody_ok hcap hparse
  rw [T.entries_length, T.countP_entries] at hbody
  have hcursor : T.encode.length < 2 ^ 32 := by
    have hlen := congrArg List.length hbits
    rw [State.readBits_length, List.length_append] at hlen
    have := s.bbLen.isLt
    omega
  have hsize : T.size ≤ 511 := hT
  have hleaves := T.size_add_one
  intro t
  have ht : t = complete _ := congrArg complete hbody
  rw [ht]
  exact ⟨completedOk_success _, ⟨hT, rfl, rfl, Nat.mod_eq_of_lt (by omega)⟩, rfl, Nat.mod_eq_of_lt hcursor,
    Nat.mod_eq_of_lt (by omega)⟩

/-- Settles O40: the tree of `u` has at most 511 nodes, and the specified bits are read as they stand. -/
theorem serializationRoundTrip : Obligations.SerializationRoundTrip := by
  unfold Obligations.SerializationRoundTrip
  intro u s z ⟨hcnt, _, hok⟩ T bits hlen hcap hspec
  obtain ⟨T', hT', hsize⟩ := hok.isTree
  rw [State.arena_length] at hsize
  have hT : T = T' := hT'.shapeAt hsize.le
  have hread : (s.readBits 0).1 = T.encode ++ z := congrArg Prod.fst (State.readBits_specified s hlen hspec)
  obtain ⟨hdone, htree, -, hcursor, -⟩ :=
    treeDeserialize_encode (hlen.trans_le hcap) hread (by rw [hT, hsize]; exact hcnt)
  exact ⟨_, exec_eq .treeDeserialize s, hdone, htree.treeOk,
    by rw [htree.nodeCnt, htree.root]; exact htree.shapeAt, hcursor⟩

/-- Whether Parse succeeds or fails, TREE_DESERIALIZE writes only NODE, the tree's registers and flags, and CURSOR. -/
theorem treeDeserialize_frame {s : State} (hcap : s.bbLen.toNat ≤ s.params.bbCap) :
    let t := complete (body .treeDeserialize s)
    { (t.uncomplete s).untree s with cursor := s.cursor, node := s.node } = s ∧ t.codeValid = false ∧ t.root = 0 :=
  treeDeserializeBody_elim s
    (P := fun r => let t := complete r
      { (t.uncomplete s).untree s with cursor := s.cursor, node := s.node } = s ∧ t.codeValid = false ∧ t.root = 0)
    (long := fun hlong => absurd hcap (Nat.not_le.2 hlong))
    (malformed := fun _ _ _ => ⟨rfl, rfl, rfl⟩)
    (ok := fun _ _ _ => ⟨rfl, rfl, rfl⟩)

/-- Bits that begin with no encoding of a tree that fits are no tree to Parse. -/
theorem parseTree_error_of_no_encoding {bits : List Bool}
    (h : ∀ (T : Shape) z, bits = T.encode ++ z → Config.nodeCap < T.size) : ∃ c, parseTree bits = .error c := by
  cases hparse : parseTree bits with
  | error c => exact ⟨c, rfl⟩
  | ok p =>
    obtain ⟨T, hbits, hT, -⟩ := parseTree_ok_iff.1 hparse
    exact absurd hT (Nat.not_le.2 (h T _ hbits))

/-- Settles O39: by BB_LEN, and by whether the bits begin with the encoding of a tree that fits, which is whether
Parse succeeds; where it fails, it does so at the one place that R117 says. -/
theorem treeDeserializeRule : Obligations.TreeDeserializeRule := by
  unfold Obligations.TreeDeserializeRule
  intro s
  refine ⟨_, exec_eq .treeDeserialize s, fun hlong => ?_, fun hcap => ?_⟩
  · rw [show body .treeDeserialize s = _ from treeDeserializeBody_long hlong]
    exact ⟨completedErr_raise _ _ _ _, rfl, rfl, rfl, rfl, rfl, rfl, rfl⟩
  obtain ⟨hframe, hcode, hroot⟩ := treeDeserialize_frame hcap
  refine ⟨(s.readBits 0).1, s.readBits_length 0, s.readBits_reads 0, hframe, hcode, hroot, fun T z hbits hT => ?_,
    fun hnone => ?_⟩
  · obtain ⟨hdone, htree, hvalid, hcursor, hsym⟩ := treeDeserialize_encode hcap hbits hT
    exact ⟨hdone, hvalid, hcursor, htree.nodeCnt, hsym, htree.treeOk, htree.shapeAt, htree.visits,
      fun _ _ => htree.of_get?⟩
  · obtain ⟨c, hparse⟩ := parseTree_error_of_no_encoding hnone
    obtain ⟨hfails, hunique⟩ := parseTree_error hparse
    rw [show body .treeDeserialize s = _ from treeDeserializeBody_malformed hcap hparse]
    refine ⟨⟨c, hfails⟩, fun c' hc' => ?_, rfl, rfl, rfl, rfl, fun _ => rfl⟩
    rw [hunique c' hc']
    exact completedErr_raise _ _ _ _

/-! ### TREE_SERIALIZE (R116) -/

/-- TREE_SERIALIZE's bits are the encoding of the tree below ROOT (R80). -/
theorem State.treeBits_eq (s : State) : s.treeBits = (shapeAt s.arena s.nodeCnt.toNat s.root.toNat).encode := by
  unfold State.treeBits
  rw [Machine.treeBits_eq, s.readArena_length]
  rfl

/-- Settles O37: the three ways TREE_SERIALIZE ends, in the order of its checks. -/
theorem treeSerializeRule : Obligations.TreeSerializeRule := by
  unfold Obligations.TreeSerializeRule
  intro s
  rw [← s.treeBits_eq]
  refine ⟨_, exec_eq .treeSerialize s, fun hv => ?_, fun hv hlong => ?_, fun hv hfit => ?_⟩
  · rw [show body .treeSerialize s = _ from treeSerializeBody_noTree hv]
    exact ⟨completedErr_raise _ _ _ _, rfl, rfl⟩
  · rw [show body .treeSerialize s = _ from treeSerializeBody_room hv hlong]
    exact ⟨completedErr_raise _ _ _ _, rfl, rfl⟩
  · rw [show body .treeSerialize s = _ from treeSerializeBody_ok hv hfit]
    exact ⟨completedOk_success _, rfl, Memory.written_setList _ _ _, rfl⟩

/-- The least BB_CAP of a device that meets R8. -/
theorem paramsWellFormed_bbCap_ge {p : Config.Params} (hp : paramsWellFormed p = true) : 4096 ≤ p.bbCap := by
  simp only [paramsWellFormed, bitCapOk, Bool.and_eq_true, decide_eq_true_eq] at hp
  obtain ⟨⟨-, ⟨-, hge⟩, -⟩, -⟩ := hp
  exact hge

/-- Settles O38: a tree with L leaves has 2L - 1 nodes, so at most 256 leaves and an encoding of at most 2559 bits,
which is less than the least BB_CAP of R8. -/
theorem treeEncodingLength : Obligations.TreeEncodingLength := by
  unfold Obligations.TreeEncodingLength
  intro s hp hv ⟨hcnt, _, hok⟩
  obtain ⟨T, hT, hsize⟩ := hok.isTree
  rw [State.arena_length] at hsize
  rw [Config.nodeCap] at hcnt
  have hnodes := T.size_add_one
  have hpos := T.leaves_pos
  have hlength := T.encode_length
  have hbits : s.treeBits = T.encode := by rw [s.treeBits_eq, hT.shapeAt hsize.le]
  have hbbCap := paramsWellFormed_bbCap_ge hp
  obtain ⟨t, hexec, -, -, hfits⟩ := treeSerializeRule s
  rw [← s.treeBits_eq, hbits] at hfits
  obtain ⟨hdone, hlen, -⟩ := hfits hv (by omega)
  rw [hok.countP_isLeaf hT]
  refine ⟨by omega, hpos, by omega, t, hexec, hdone, ?_⟩
  rw [hlen, BitVec.toNat_ofNat]
  omega

end Sys2Proof.Machine
end

section
/-!
PROOFS. The loops and the data commands (46_encoder_decoder.md): the walk from an Internal root (R121, O43) and on a
lone leaf (R122, O44), ENCODE_DATA (R120, O41) and DECODE_DATA (R123, O42).
-/

namespace Sys2Proof.Machine

/-! ### The walk of DECODE_DATA -/

/-- Below the entry at the end of a path stands a tree, smaller than the whole by the length of the path at least. -/
theorem IsTree.isTree_of_follow {arena : List NodeEntry} {n m : Nat} {T : Shape} {path : List Bool}
    (hT : IsTree arena n T) (hm : follow arena n path = some m) :
    ∃ S, IsTree arena m S ∧ S.size + path.length ≤ T.size := by
  induction hT generalizing path with
  | leaf he =>
    cases path with
    | nil =>
      obtain rfl := Option.some.inj hm
      exact ⟨_, .leaf he, le_rfl⟩
    | cons b bs => simp [follow, child, he] at hm
  | @fork n l r w L R he hL hR ihL ihR =>
    cases path with
    | nil =>
      obtain rfl := Option.some.inj hm
      exact ⟨_, .fork he hL hR, le_rfl⟩
    | cons b bs =>
      simp only [follow, child, he] at hm
      simp only [Shape.size, List.length_cons]
      cases b with
      | false =>
        obtain ⟨S, hS, hsize⟩ := ihR hm
        exact ⟨S, hS, by omega⟩
      | true =>
        obtain ⟨S, hS, hsize⟩ := ihL hm
        exact ⟨S, hS, by omega⟩

/-- No path down a tree comes back to where it began. -/
theorem IsTree.follow_ne_self {arena : List NodeEntry} {n m : Nat} {T : Shape} {path : List Bool}
    (hT : IsTree arena n T) (hm : follow arena n path = some m) (hpath : path ≠ []) : m ≠ n := by
  rintro rfl
  obtain ⟨S, hS, hsize⟩ := hT.isTree_of_follow hm
  have hpos := List.length_pos_iff.2 hpath
  rw [hS.unique hT] at hsize
  omega

/-- Settles O43: the walk passes the codes that fit, and then the bits are over, or they stop inside the tree, away
from the root, or one code more does not fit. -/
theorem decodeWalkFollowsTheTree : Obligations.DecodeWalkFollowsTheTree := by
  unfold Obligations.DecodeWalkFollowsTheTree
  intro arena root cap start ps rest hok ⟨l, r, w, hroot⟩ hps
  obtain ⟨T, hT, -⟩ := hok.isTree
  obtain ⟨L, R, rfl⟩ : ∃ L R, T = .fork L R := by
    cases hT with
    | leaf he => rw [hroot] at he; cases he
    | fork => exact ⟨_, _, rfl⟩
  replace hps : ∀ p ∈ ps, (Shape.fork L R).symbolAt p.1 = some p.2 := fun p hp => hT.leadsTo_iff.1 (hps p hp)
  have hwalk (bits : List Bool) :
      decodeBits arena root cap start bits = decodeWalk arena root cap root 0 start start bits := by
    rw [decodeBits, nodeAt_of_getElem? hroot]
  simp only [hwalk]
  refine ⟨?_, fun hrest hfit ⟨n, l', r', w', hn, he⟩ => ?_, fun hlong => ?_⟩
  · rintro rfl hfit
    rw [decodeWalk_codes hT hps (by omega)]
    simp [decodeWalk, Except.map]
  · rw [decodeWalk_codes hT hps (by omega), decodeWalk_stop hT hn ⟨l', r', w', he⟩,
      if_neg (hT.follow_ne_self hn hrest)]
    rfl
  · obtain ⟨qs, p, rfl⟩ : ∃ qs p, ps = qs ++ [p] :=
      ⟨_, _, (List.dropLast_append_getLast (List.ne_nil_of_length_eq_add_one hlong)).symm⟩
    have hqs : qs.length = cap := by simpa using hlong
    rw [List.flatMap_append, List.flatMap_singleton, List.append_assoc,
      decodeWalk_codes hT (fun q hq => hps q (by simp [hq])) (by omega), decodeWalk_code hT (hps p (by simp)),
      if_pos (by omega), List.length_append, ← Nat.add_assoc]
    rfl

/-- Settles O44: the walk passes the 1 bits that fit and then meets the end, a 0 bit, or a 1 bit too many. -/
theorem loneLeafDecoding : Obligations.LoneLeafDecoding := by
  unfold Obligations.LoneLeafDecoding
  intro arena root cap start n sym w rest hroot
  have hwalk (bits : List Bool) : decodeBits arena root cap start bits = decodeLone cap sym 0 start bits := by
    rw [decodeBits, nodeAt_of_getElem? hroot]
  simp only [hwalk]
  refine ⟨fun hn => ?_, fun hn => ?_, fun hn => ?_⟩
  · have hones := decodeLone_ones (cap := cap) (m := 0) (i := start) (sym := sym) (rest := []) (n := n) (by omega)
    simpa [decodeLone, Except.map] using hones
  · rw [decodeLone_ones (by omega)]
    simp [decodeLone, Except.map]
  · rw [decodeLone_ones (by omega)]
    simp [decodeLone, Except.map, hn]

/-! ### ENCODE_DATA and DECODE_DATA -/

/-- The loop of ENCODE_DATA stops at the first entry that is absent or does not fit, with its index (R120). -/
theorem encodeLoop_error {cap n k : Nat} {e : List CodeEntry} {c : CodeEntry} (hk : e[k]? = some c)
    (hp : ∀ d ∈ e.take k, d.present = true) (hfit : n + ((e.take k).flatMap CodeEntry.path).length ≤ cap)
    (hc : c.present = false ∨ cap < n + ((e.take k).flatMap CodeEntry.path).length + c.path.length) :
    encodeLoop cap n 0 e = .error (if c.present then .capacity else .uncodedSymbol, k) := by
  obtain ⟨hlt, rfl⟩ := List.getElem?_eq_some_iff.1 hk
  conv_lhs => rw [← List.take_append_drop k e, List.drop_eq_getElem_cons hlt]
  rw [encodeLoop_append hp hfit, List.length_take_of_le hlt.le, Nat.zero_add, encodeLoop]
  cases hpresent : e[k].present with
  | false => rfl
  | true =>
    rw [if_neg (by simp), if_pos (hc.resolve_left (by simp [hpresent]))]
    rfl

/-- Settles O41: the checks before the loop in their order, then the loop, which ends as one of the last two clauses
says. -/
theorem encodeDataRule : Obligations.EncodeDataRule := by
  unfold Obligations.EncodeDataRule
  intro s
  refine ⟨_, exec_eq .encodeData s, fun hv => ?_, fun hv hlong => ?_, fun hv hlen hfull => ?_, fun hv hlen hroom => ?_⟩
  · rw [show body .encodeData s = _ from encodeDataBody_noCode hv]
    exact ⟨completedErr_raise _ _ _ _, rfl, rfl⟩
  · rw [show body .encodeData s = _ from encodeDataBody_long hv hlong]
    exact ⟨completedErr_raise _ _ _ _, rfl, rfl⟩
  · rw [show body .encodeData s = _ from encodeDataBody_full hv hlen hfull]
    exact ⟨completedErr_raise _ _ _ _, rfl, rfl⟩
  refine ⟨?_, s.readIn.1, s.inCodes.1, s.readIn_length, s.readIn_reads, by simp, fun _ _ _ => s.inCodes_get,
    fun hp hfit => ?_, fun k c hk hp hfit hc => ?_⟩
  · cases hloop : encodeLoop s.params.bbCap s.bbLen.toNat 0 s.inCodes.1 with
    | ok bits => rw [show body .encodeData s = _ from encodeDataBody_ok hv hlen hroom hloop]; rfl
    | error e => rw [show body .encodeData s = _ from encodeDataBody_error hv hlen hroom hloop]; rfl
  · rw [show body .encodeData s = _ from encodeDataBody_ok hv hlen hroom (encodeLoop_all hp hfit)]
    exact ⟨completedOk_success _, rfl, Memory.written_setList _ _ _⟩
  · rw [show body .encodeData s = _ from encodeDataBody_error hv hlen hroom (encodeLoop_error hk hp hfit hc)]
    exact ⟨completedErr_raise _ _ _ _, rfl, fun j => Memory.get?_forget _ _ _ j⟩

/-- Settles O42: the checks before the walk in their order, then the walk, which succeeds or fails. -/
theorem decodeDataRule : Obligations.DecodeDataRule := by
  unfold Obligations.DecodeDataRule
  intro s
  refine ⟨_, exec_eq .decodeData s, fun hv => ?_, fun hv hlong => ?_, fun hv hlen hcur => ?_, fun hv hlen hcur => ?_⟩
  · rw [show body .decodeData s = _ from decodeDataBody_noTree hv]
    exact ⟨completedErr_raise _ _ _ _, rfl, rfl⟩
  · rw [show body .decodeData s = _ from decodeDataBody_long hv hlong]
    exact ⟨completedErr_raise _ _ _ _, rfl, rfl⟩
  · rw [show body .decodeData s = _ from decodeDataBody_cursor hv hlen hcur]
    exact ⟨completedErr_raise _ _ _ _, rfl, rfl⟩
  refine ⟨?_, s.dataBits.1, s.dataBits_length, s.dataBits_reads, fun out hout => ?_, fun code i herr => ?_⟩
  · cases hwalk : decodeBits s.arena s.root.toNat s.params.outCap s.cursor.toNat s.dataBits.1 with
    | ok out => rw [show body .decodeData s = _ from decodeDataBody_ok hv hlen hcur hwalk]; rfl
    | error e => rw [show body .decodeData s = _ from decodeDataBody_error hv hlen hcur hwalk]; rfl
  · obtain ⟨hbits, hcap⟩ := decodeBits_ok hout
    rw [s.dataBits_length] at hbits
    have hbbLen := s.bbLen.isLt
    rw [show body .decodeData s = _ from decodeDataBody_ok hv hlen hcur hout]
    exact ⟨completedOk_success _, Nat.mod_eq_of_lt (by omega), hcap, Memory.written_setList _ _ _⟩
  · rw [show body .decodeData s = _ from decodeDataBody_error hv hlen hcur herr]
    refine ⟨completedErr_raise _ _ _ _, rfl, fun j => (Memory.get?_forget _ _ _ j).trans ?_⟩
    simp only [Nat.zero_le, true_and]

end Sys2Proof.Machine
end

section
/-!
PROOFS. The composite commands (46_encoder_decoder.md): each is the chain of its primitives (R124, R126; O45, O46). What
COMPRESS leaves and where it fails (R125, O47, O48).
-/

namespace Sys2Proof.Machine

/-! ### Composites as chains -/

/-- A result followed by the bodies of the commands in order, up to the first failure. -/
def Result.followedBy (r : Result) (is : List Instr) : Result := is.foldl (fun r i => r.andThen (body i)) r

theorem Result.failed_followedBy (e : Failure) (s : State) (is : List Instr) :
    (Result.failed e s).followedBy is = .failed e s := by
  induction is with
  | nil => rfl
  | cons i is ih => exact ih

/-- A command that completes with success hands its state on to the rest of the chain. -/
theorem chain_cons_ok {i : Instr} {is : List Instr} {s t : State} (h : exec i s = .next t) (ht : t.err = .ok) :
    chain (i :: is) s = chain is t := by
  simp only [chain, h, if_pos ht]

/-- A command that completes with an error ends the chain. -/
theorem chain_cons_error {i : Instr} {is : List Instr} {s t : State} (h : exec i s = .next t) (ht : t.err ≠ .ok) :
    chain (i :: is) s = t := by
  simp only [chain, h, if_neg ht]

/-- A command does not see the completion of the one before it. -/
theorem exec_complete_success (i : Instr) (s : State) : exec i (complete (.success s)) = exec i s := by
  rw [exec_eq, exec_eq, complete_success, body_completeWith, complete_over]

/-- Primitive commands that each complete leave what their bodies in sequence leave, completed once. -/
theorem chain_complete_success {is : List Instr} (hprim : ∀ i ∈ is, i ∉ [Instr.compress, .decompress]) (s : State) :
    chain is (complete (.success s)) = complete ((Result.success s).followedBy is) := by
  induction is generalizing s with
  | nil => rfl
  | cons i is ih =>
    obtain ⟨hi, his⟩ := List.forall_mem_cons.1 hprim
    have hexec := (exec_complete_success i s).trans (exec_eq i s)
    show _ = complete ((body i s).followedBy is)
    cases hbody : body i s with
    | success u =>
      rw [hbody] at hexec
      rw [chain_cons_ok hexec rfl, ih his]
    | failed e u =>
      rw [hbody] at hexec
      rw [chain_cons_error hexec (body_failsAs i s hi e u hbody).1, Result.failed_followedBy]

/-- The same, from a state that no command has completed. -/
theorem chain_eq_complete {i : Instr} {is : List Instr} (hprim : ∀ j ∈ i :: is, j ∉ [Instr.compress, .decompress])
    (s : State) : chain (i :: is) s = complete ((Result.success s).followedBy (i :: is)) := by
  rw [← chain_complete_success hprim]
  simp only [chain, exec_complete_success]
  rw [exec_eq]

/-- Settles O45: the bodies of the six primitives in sequence are COMPRESS's own. -/
theorem compressIsTheChainOfPrimitives : Obligations.CompressIsTheChainOfPrimitives := by
  unfold Obligations.CompressIsTheChainOfPrimitives
  intro s
  rw [exec_eq, chain_eq_complete (by decide)]
  rfl

/-- Settles O46: the bodies of the three primitives in sequence are DECOMPRESS's own. -/
theorem decompressIsTheChainOfPrimitives : Obligations.DecompressIsTheChainOfPrimitives := by
  unfold Obligations.DecompressIsTheChainOfPrimitives
  intro s
  rw [exec_eq, chain_eq_complete (by decide)]
  rfl

/-! ### COMPRESS -/

/-- Settles O47: the run of COMPRESS on a specified input; its tree is the one TREE_BUILD leaves. -/
theorem compressLeavesTheWirePayload : Obligations.CompressLeavesTheWirePayload := by
  unfold Obligations.CompressLeavesTheWirePayload
  intro s x hwf hlen hx hcap hin
  obtain ⟨T, code, hT, hsize, hcode, hfits, -⟩ := compressBody_run s x hwf hlen hx hcap hin
  have hx32 : x.length < 2 ^ 32 := hlen ▸ s.inLen.isLt
  obtain ⟨u, hexec, -, -, harena, hroot⟩ := exec_treeBuild_specified
    (s := { s with freqValid := true, freq := Memory.ofList (freqOf x) }) rfl (freqOf_length x)
    (fun _ _ => Memory.get?_ofList _ _) (distinct_freqOf hx hx32)
  rw [← harena, ← hroot] at hT
  rw [← harena, State.arena_length] at hsize
  refine ⟨T, code, ⟨u, hexec, (hT.shapeAt hsize.le).symm, fun sym hs => hT.isCodeOf_iff.2 (hcode sym hs)⟩,
    fun hbb hout => ?_⟩
  obtain ⟨t, hbody, houtLen, houtBuf, hbbLen, hfv, htv, hcv, -⟩ := hfits hbb hout
  refine ⟨_, exec_eq .compress s, ?_⟩
  rw [hbody]
  exact ⟨completedOk_success t, houtLen, houtBuf ▸ Memory.written_setList _ _ _, hbbLen, hfv, htv, hcv⟩

/-- No symbol occurs in the empty input. -/
theorem distinct_freqOf_nil : distinct (freqOf []) = 0 := by
  simp [distinct, freqOf]

/-- FREQ_BUILD on the empty input counts nothing (R100, R101). -/
theorem freqBuildBody_empty {s : State} (h : s.inLen = 0) : ∃ t, freqBuildBody s = .success t ∧
    t.freqValid = true ∧ t.freq = Memory.ofList (freqOf []) ∧ t.outLen = s.outLen := by
  have hlen : s.inLen.toNat = 0 := congrArg BitVec.toNat h
  have hin : s.readIn.1 = [] := List.length_eq_zero_iff.1 (s.readIn_length.trans hlen)
  exact ⟨_, freqBuildBody_ok (hlen.trans_le (Nat.zero_le _)), rfl, by rw [hin], rfl⟩

/-- Settles O48: FREQ_BUILD succeeds and leaves counts that are all 0, which TREE_BUILD refuses. -/
theorem compressRejectsEmptyInput : Obligations.CompressRejectsEmptyInput := by
  unfold Obligations.CompressRejectsEmptyInput
  intro s hlen
  obtain ⟨t, hfreqBuild, hvalid, hfreq, hout⟩ := freqBuildBody_empty (s := { s with outLen := 0 }) hlen
  have hread := State.readFreq_specified t (freqOf_length []) (fun k _ => by rw [hfreq, Memory.get?_ofList])
  have htreeBuild := treeBuildBody_empty hvalid (by rw [hread]; exact distinct_freqOf_nil)
  have hbody : body .compress s = raise .treeBuild .emptyInput 0 { t.clearTree with draws := t.readFreq.2 } := by
    rw [show body .compress s = compressBody s from rfl, compressBody, hfreqBuild, Result.andThen_success, htreeBuild]
    rfl
  refine ⟨_, exec_eq .compress s, ?_⟩
  rw [hbody]
  exact ⟨completedErr_raise _ _ _ _, hout, hvalid, rfl⟩

end Sys2Proof.Machine
end

section
/-!
PROOFS. DECOMPRESS (46_encoder_decoder.md R126): it decodes the payload that its input is (O50), which gives the round
trip after COMPRESS (R128, O52), and it refuses payloads of less than 3 bytes (O49).
-/

namespace Sys2Proof.Machine

/-! ### The primitives of DECOMPRESS on a payload -/

/-- UNPACK of a payload that Pack makes puts its bits into BITBUF (R97, R99). -/
theorem unpackBody_packBytes {s : State} {bits : List Bool} (hlen : s.inLen.toNat = (packBytes bits).length)
    (hcap : (packBytes bits).length ≤ s.params.inCap)
    (hin : ∀ k, k < (packBytes bits).length → s.inBuf.get? k = (packBytes bits)[k]?)
    (hbb : bits.length ≤ s.params.bbCap) :
    unpackBody s = .success { s with
      bitBuf := s.bitBuf.setList 0 bits
      bbLen := BitVec.ofNat 32 bits.length
      pad := BitVec.ofNat 3 (padCount bits.length) } := by
  obtain ⟨hdata, hlast⟩ := packBytes_eq_iff.1 (rfl : packBytes bits = _)
  have hsplit := List.dropLast_append_getLast? _ hlast
  generalize (packBytes bits).dropLast = x at hdata hsplit
  have hlenx := congrArg List.length hsplit
  rw [List.length_append, List.length_singleton] at hlenx
  obtain ⟨hcontrol, hpayload⟩ := s.payload_specified (hlen.trans hlenx.symm)
    (fun k hk => hsplit ▸ hin k (hlenx ▸ hk))
  have hc : s.control.1.toNat = padCount bits.length := by rw [hcontrol, toNat_padCount]
  have hpad := padCount_lt bits.length
  have hdataLen := congrArg List.length hdata
  rw [flatMap_bits8_length, List.length_append, List.length_replicate] at hdataLen
  have hbits : unpackBits x (padCount bits.length) = bits := by
    rw [unpackBits, hdata, hdataLen, Nat.add_sub_cancel, List.take_left]
  rw [unpackBody_ok (by omega) (by omega) (by omega) (by omega) (by omega), hc, hpayload, hbits]

/-- TREE_DESERIALIZE of specified bits that begin with the encoding of a tree leaves Parse's entries of the tree (R117,
R118). -/
theorem treeDeserializeBody_encode {s : State} {T : Shape} {z : List Bool} (hcap : s.bbLen.toNat ≤ s.params.bbCap)
    (hbits : s.readBits 0 = (T.encode ++ z, s.draws)) (hT : T.size ≤ Config.nodeCap) :
    treeDeserializeBody s = .success { s with
      node := Memory.ofList (T.entries 0)
      root := 0
      cursor := BitVec.ofNat 32 T.encode.length
      nodeCnt := BitVec.ofNat 10 T.size
      symCnt := BitVec.ofNat 9 T.leaves
      treeValid := true
      codeValid := false } := by
  rw [treeDeserializeBody_ok hcap (by rw [hbits]; exact parseTree_encode hT z), T.entries_length, T.countP_entries,
    hbits]

/-- Specified bits from CURSOR on are read as they stand, after a specified arena. -/
theorem State.dataBits_specified {s : State} {pre bits : List Bool}
    (harena : s.node.covers s.nodeCnt.toNat = true) (hlen : s.bbLen.toNat = (pre ++ bits).length)
    (hcur : s.cursor.toNat = pre.length)
    (hspec : ∀ k, k < (pre ++ bits).length → s.bitBuf.get? k = (pre ++ bits)[k]?) :
    s.dataBits = (bits, s.draws) := by
  have hrange : s.bbLen.toNat - s.cursor.toNat = bits.length := by
    rw [hlen, hcur, List.length_append, Nat.add_sub_cancel_left]
  rw [State.dataBits, State.readArena_specified harena, hrange, hcur]
  refine Memory.readRange_specified _ _ _ _ _ fun j hj => ?_
  rw [hspec _ (by rw [List.length_append]; omega), List.getElem?_append_right (Nat.le_add_right _ _),
    Nat.add_sub_cancel_left]

/-- DECODE_DATA of codes of the tree that Parse left gives their symbols (R121, R122, R123). -/
theorem decodeDataBody_codes {s : State} {T : Shape} {ps : List (List Bool × Byte)} (htree : s.HoldsParsed T)
    (hvalid : s.treeValid = true) (hps : ∀ p ∈ ps, T.decodes p.1 = some p.2)
    (hcur : s.cursor.toNat = T.encode.length)
    (hlen : s.bbLen.toNat = (T.encode ++ ps.flatMap Prod.fst).length) (hbb : s.bbLen.toNat ≤ s.params.bbCap)
    (hspec : ∀ k, k < (T.encode ++ ps.flatMap Prod.fst).length →
      s.bitBuf.get? k = (T.encode ++ ps.flatMap Prod.fst)[k]?)
    (hout : ps.length ≤ s.params.outCap) :
    decodeDataBody s = .success { s with
      outBuf := s.outBuf.setList 0 (ps.map Prod.snd)
      outLen := BitVec.ofNat 32 ps.length } := by
  obtain ⟨-, hcover, -⟩ := htree.treeOk
  have hbits := State.dataBits_specified hcover hlen hcur hspec
  have hroot : IsTree s.readArena.1 s.root.toNat T := by rw [htree.root]; exact htree.isTree.1
  have hwalk := decodeBits_codes (start := s.cursor.toNat) hroot hps hout
  have hcurLe : s.cursor.toNat ≤ s.bbLen.toNat := by rw [hlen, hcur, List.length_append]; exact Nat.le_add_right _ _
  rw [decodeDataBody_ok hvalid hbb hcurLe (by rw [hbits]; exact hwalk), hbits, List.length_map]

/-! ### DECOMPRESS of a payload -/

/-- The state that Parse leaves holds the tree in NODE, ROOT and NODE_CNT. -/
theorem State.holdsParsed_of_entries {t : State} {T : Shape} (hT : T.size ≤ Config.nodeCap)
    (hnode : t.node = Memory.ofList (T.entries 0)) (hroot : t.root = 0) (hcnt : t.nodeCnt = BitVec.ofNat 10 T.size) :
    t.HoldsParsed T := by
  have hsize : T.size ≤ 511 := hT
  exact ⟨hT, hnode, hroot, by rw [hcnt]; exact Nat.mod_eq_of_lt (by omega)⟩

theorem State.HoldsParsed.shapeAt_root {t : State} {T : Shape} (h : t.HoldsParsed T) :
    Machine.shapeAt t.arena t.nodeCnt.toNat t.root.toNat = T := by
  rw [h.nodeCnt, h.root]
  exact h.shapeAt

/-- The run of DECOMPRESS on a specified payload: UNPACK gives the bits, TREE_DESERIALIZE the tree at their beginning,
DECODE_DATA the symbols of the codes after it. -/
theorem decompressBody_payload {s : State} {T : Shape} {ps : List (List Bool × Byte)} {bits : List Bool}
    (hT : T.size ≤ Config.nodeCap) (hps : ∀ p ∈ ps, T.decodes p.1 = some p.2)
    (hbits : bits = T.encode ++ ps.flatMap Prod.fst)
    (hlen : s.inLen.toNat = (packBytes bits).length) (hcap : (packBytes bits).length ≤ s.params.inCap)
    (hin : ∀ k, k < (packBytes bits).length → s.inBuf.get? k = (packBytes bits)[k]?)
    (hbb : bits.length ≤ s.params.bbCap) (hbits32 : bits.length < 2 ^ 32) (hout : ps.length ≤ s.params.outCap) :
    decompressBody s = .success { s with
      outBuf := s.outBuf.setList 0 (ps.map Prod.snd)
      outLen := BitVec.ofNat 32 ps.length
      bitBuf := s.bitBuf.setList 0 bits
      bbLen := BitVec.ofNat 32 bits.length
      pad := BitVec.ofNat 3 (padCount bits.length)
      node := Memory.ofList (T.entries 0)
      root := 0
      cursor := BitVec.ofNat 32 T.encode.length
      nodeCnt := BitVec.ofNat 10 T.size
      symCnt := BitVec.ofNat 9 T.leaves
      treeValid := true
      codeValid := false } := by
  have hbbLen : (BitVec.ofNat 32 bits.length).toNat = bits.length := Nat.mod_eq_of_lt hbits32
  have hcursor : (BitVec.ofNat 32 T.encode.length).toNat = T.encode.length := by
    have hlength := congrArg List.length hbits
    rw [List.length_append] at hlength
    exact Nat.mod_eq_of_lt (by omega)
  have hspec : ∀ k, k < bits.length → (s.bitBuf.setList 0 bits).get? k = bits[k]? := fun k hk => by
    rw [Memory.get?_setList, if_pos (by omega), Nat.sub_zero]
  subst hbits
  rw [decompressBody, unpackBody_packBytes (s := { s with outLen := 0 }) hlen hcap hin hbb, Result.andThen_success,
    treeDeserializeBody_encode (hbbLen.trans_le hbb) (by exact State.readBits_specified _ hbbLen hspec) hT,
    Result.andThen_success]
  exact decodeDataBody_codes (State.holdsParsed_of_entries hT rfl rfl rfl) rfl hps hcursor hbbLen (hbbLen.trans_le hbb)
    hspec hout

/-- Settles O50: the run of DECOMPRESS on the payload; no register cuts what is stored in it. -/
theorem decompressDecodesThePayload : Obligations.DecompressDecodesThePayload := by
  unfold Obligations.DecompressDecodesThePayload
  intro s T ps hwf hT hps bits y hlen hcap hin hbb hout
  obtain ⟨-, -, -, houtCap, -, hbbCap⟩ := paramsWellFormed_bounds hwf
  have hbits32 : bits.length < 2 ^ 32 := by omega
  have hencode : T.encode.length ≤ bits.length := by rw [List.length_append]; exact Nat.le_add_right _ _
  refine ⟨_, exec_eq .decompress s, ?_⟩
  rw [show body .decompress s = _ from decompressBody_payload hT hps rfl hlen hcap hin hbb hbits32 hout]
  exact ⟨completedOk_success _, Nat.mod_eq_of_lt (by omega), Memory.written_setList _ _ _, Nat.mod_eq_of_lt hbits32,
    Nat.mod_eq_of_lt (padCount_lt _), Memory.written_setList _ _ _, rfl, rfl, rfl,
    (State.holdsParsed_of_entries hT rfl rfl rfl).treeOk, (State.holdsParsed_of_entries hT rfl rfl rfl).shapeAt_root,
    Nat.mod_eq_of_lt (by omega), rfl, rfl, rfl, rfl, rfl⟩

/-! ### The round trip -/

/-- OUT2IN of bytes that stand in OUT_BUF from 0 on copies them (R93). -/
theorem out2inBody_written {s : State} {m : Memory Byte} {y : List Byte} (hbuf : s.outBuf = m.setList 0 y)
    (hlen : s.outLen.toNat = y.length) (hcap : s.outLen.toNat ≤ s.params.inCap) :
    out2inBody s = .success { s with inBuf := s.inBuf.setList 0 y, inLen := s.outLen } := by
  have hread : s.readOut = (y, s.draws) := by
    rw [State.readOut, hbuf]
    exact Memory.readRange_setList _ _ _ _ _ _ hlen.symm
  rw [out2inBody_ok hcap, hread]

/-- A COMPRESS that completes with success has not failed. -/
theorem compress_ne_failed {s u : State} {e : Failure} (h : (complete (body .compress s)).err = .ok) :
    body .compress s ≠ .failed e u := by
  intro hfail
  obtain ⟨hcode, -⟩ := compressBody_failsByPrimitive s e u hfail
  rw [hfail] at h
  exact hcode h

/-- What a COMPRESS of a specified input that completes with success leaves: the payload of a tree and of codes of the
input's symbols in it (R125). -/
theorem exec_compress_inv {s t : State} {x : List Byte} (hwf : paramsWellFormed s.params = true)
    (hlen : s.inLen.toNat = x.length) (hx : x ≠ []) (hcap : x.length ≤ s.params.inCap)
    (hin : ∀ k, k < x.length → s.inBuf.get? k = x[k]?) (hexec : exec .compress s = .next t) (herr : t.err = .ok) :
    ∃ (T : Shape) (code : Byte → List Bool) (u : State), T.size ≤ Config.nodeCap ∧
      (∀ sym ∈ x, T.decodes (code sym) = some sym) ∧ t = complete (.success u) ∧ u.params = s.params ∧
      (T.encode ++ x.flatMap code).length ≤ s.params.bbCap ∧
      u.outLen.toNat = (packBytes (T.encode ++ x.flatMap code)).length ∧
      u.outBuf = s.outBuf.setList 0 (packBytes (T.encode ++ x.flatMap code)) := by
  obtain ⟨T, code, -, hsize, hcode, hfits, hfails⟩ := compressBody_run s x hwf hlen hx hcap hin
  obtain rfl := (exec_eq_next _ _ _).1 hexec
  have hbb : (T.encode ++ x.flatMap code).length ≤ s.params.bbCap := Nat.not_lt.1 fun hlong =>
    let ⟨_, _, hbody⟩ := hfails (.inl hlong)
    compress_ne_failed herr hbody
  have hroom : ((T.encode ++ x.flatMap code).length + 7) / 8 + 1 ≤ s.params.outCap := Nat.not_lt.1 fun hlong =>
    let ⟨_, _, hbody⟩ := hfails (.inr hlong)
    compress_ne_failed herr hbody
  obtain ⟨u, hbody, houtLen, houtBuf, -, -, -, -, hparams, -⟩ := hfits hbb hroom
  have hx32 : x.length < 2 ^ 32 := hlen ▸ s.inLen.isLt
  exact ⟨T, code, u, hsize.trans_le (buildTree_length_le (distinct_freqOf hx hx32) (freqOf_length x)), hcode,
    congrArg complete hbody, hparams, hbb, houtLen, houtBuf⟩

/-- Settles O52: OUT2IN makes the payload that COMPRESS left the input, and DECOMPRESS decodes it. -/
theorem compressDecompressRoundTrip : Obligations.CompressDecompressRoundTrip := by
  unfold Obligations.CompressDecompressRoundTrip
  intro s t x hwf hlen hx hcap hout hin hexec herr hpayload
  obtain ⟨T, code, u, hT, hcode, rfl, hparams, hbb, houtLen, houtBuf⟩ :=
    exec_compress_inv hwf hlen hx hcap hin hexec herr
  obtain ⟨-, -, -, houtCap, -, hbbCap⟩ := paramsWellFormed_bounds hwf
  rw [← hparams] at hpayload hout hbb hbbCap houtCap
  rw [exec_complete_success, exec_eq, show body .out2in u = _ from out2inBody_written houtBuf houtLen hpayload]
  refine ⟨_, _, rfl, rfl, (exec_complete_success _ _).trans (exec_eq _ _), ?_⟩
  rw [show body .decompress { u with inBuf := _, inLen := _ } = _ from
    decompressBody_payload (ps := x.map fun sym => (code sym, sym)) (bits := T.encode ++ x.flatMap code) hT
      (by simpa using hcode) (by rw [List.flatMap_map]) houtLen (houtLen ▸ hpayload)
      (fun k hk => by rw [Memory.get?_setList, if_pos (by omega), Nat.sub_zero]) hbb (by omega)
      (by rwa [List.length_map])]
  simp only [List.length_map, List.map_map]
  refine ⟨completedOk_success _, Nat.mod_eq_of_lt (by omega), fun k hk => ?_⟩
  refine (Memory.get?_setList _ _ _ _).trans ?_
  simp [hk, Function.comp_def]

/-! ### Payloads of less than 3 bytes -/

/-- Less than 9 bits hold no tree, whatever they are: TREE_DESERIALIZE refuses them (R80, R117). -/
theorem treeDeserializeBody_short {s : State} (hcap : s.bbLen.toNat ≤ s.params.bbCap) (hlen : s.bbLen.toNat < 9) :
    ∃ c, treeDeserializeBody s = raise .treeDeserialize .malformedPayload c
      { s.clearTree with cursor := 0, node := [], draws := (s.readBits 0).2 } := by
  obtain ⟨c, hparse⟩ := parseTree_error_of_no_encoding (bits := (s.readBits 0).1) fun T z hbits => by
    have hlength := congrArg List.length hbits
    rw [s.readBits_length, List.length_append] at hlength
    have := T.encode_length
    have := T.leaves_pos
    omega
  exact ⟨c, treeDeserializeBody_malformed hcap hparse⟩

/-- The least IN_CAP of a device that meets R8. -/
theorem paramsWellFormed_inCap_ge {p : Config.Params} (hp : paramsWellFormed p = true) : 4 ≤ p.inCap := by
  simp only [paramsWellFormed, byteCapOk, Bool.and_eq_true, decide_eq_true_eq] at hp
  obtain ⟨⟨⟨⟨⟨-, hge⟩, -⟩, -⟩, -⟩, -⟩ := hp
  exact hge

/-- UNPACK has refused the payload, or it has left less than 9 bits; OUT_LEN is as given. -/
def Result.RefusedOrFewBits (outLen : Word) (r : Result) : Prop :=
  (∃ c n t, r = raise .unpack c n t ∧ (c = .malformedPayload ∨ c = .invalidPadding) ∧ t.outLen = outLen) ∨
    ∃ t, r = .success t ∧ t.bbLen.toNat ≤ t.params.bbCap ∧ t.bbLen.toNat < 9 ∧ t.outLen = outLen

/-- UNPACK of less than 3 bytes refuses them or finds at most 8 bits (R95, R99). -/
theorem unpackBody_short {s : State} (hwf : paramsWellFormed s.params = true) (hlen : s.inLen.toNat < 3) :
    (unpackBody s).RefusedOrFewBits s.outLen := by
  have hinCap := paramsWellFormed_inCap_ge hwf
  have hbbCap : 8 ≤ s.params.bbCap := le_trans (by decide) (paramsWellFormed_bbCap_ge hwf)
  have hbits : (unpackBits s.payload.1 s.control.1.toNat).length ≤ 8 := by
    rw [unpackBits_length, s.payload_length]
    omega
  have hbbLen : (BitVec.ofNat 32 (unpackBits s.payload.1 s.control.1.toNat).length).toNat ≤ 8 :=
    toNat_ofNat_le_of_le hbits
  refine unpackBody_elim (P := Result.RefusedOrFewBits s.outLen) s (fun hlong => ?long)
    (empty := fun _ _ => .inl ⟨_, _, _, rfl, .inl rfl, rfl⟩)
    (padding := fun _ _ _ => .inl ⟨_, _, _, rfl, .inr rfl, rfl⟩) (fun _ _ _ _ hroom => ?room)
    (ok := fun _ _ _ _ _ => .inr ⟨_, rfl, hbbLen.trans hbbCap, Nat.lt_succ_of_le hbbLen, rfl⟩)
  case long => omega
  case room => omega

/-- Settles O49: UNPACK refuses the payload, or its bits are too few for a tree. -/
theorem shortPayloadsFail : Obligations.ShortPayloadsFail := by
  unfold Obligations.ShortPayloadsFail
  intro s hwf hlen _
  refine ⟨_, exec_eq .decompress s, ?_⟩
  rw [show body .decompress s = decompressBody s from rfl, decompressBody]
  rcases unpackBody_short (s := { s with outLen := 0 }) hwf hlen with
    ⟨c, n, t, hunpack, hc, hout⟩ | ⟨t, hunpack, hcap, hbits, hout⟩
  · rw [hunpack]
    exact ⟨hc, hout⟩
  · obtain ⟨c, hdeser⟩ := treeDeserializeBody_short hcap hbits
    rw [hunpack, Result.andThen_success, hdeser]
    exact ⟨.inl rfl, hout⟩

end Sys2Proof.Machine
end

section
/-!
PROOFS. DECOMPRESS depends on nothing but the payload and the capacities (46_encoder_decoder.md R127, O51): run from two
states that agree on these, each of its primitives ends alike in both, and leaves two states that agree on what the next
one reads.
-/

namespace Sys2Proof.Machine

/-! ### Memories that agree -/

/-- The first `n` locations are specified in both memories, and hold the same values. -/
def Memory.AgreeBelow {α : Type} (n : Nat) (m m' : Memory α) : Prop :=
  ∀ k, k < n → (m.get? k).isSome = true ∧ m.get? k = m'.get? k

/-- Reading specified locations gives their values, however many draws were taken before (R53). -/
theorem Memory.AgreeBelow.readRange_eq {α : Type} {n : Nat} {m m' : Memory α} (h : m.AgreeBelow n m')
    (fresh : Nat → α) {k l : Nat} (hl : k + l ≤ n) (d d' : Nat) :
    (m.readRange fresh k l d).1 = (m'.readRange fresh k l d').1 := by
  have hlt : ∀ j ∈ List.range' k l, j < n := fun j hj => by
    have := List.mem_range'_1.1 hj
    omega
  rw [Memory.readRange, Memory.readRange, Memory.readAll_specified _ _ _ _ (fun j hj => (h j (hlt j hj)).1),
    Memory.readAll_specified _ _ _ _ (fun j hj => (h j (hlt j hj)).2 ▸ (h j (hlt j hj)).1)]
  exact List.filterMap_congr fun j hj => (h j (hlt j hj)).2

theorem Memory.AgreeBelow.read_eq {α : Type} {n : Nat} {m m' : Memory α} (h : m.AgreeBelow n m')
    (fresh : Nat → α) {k : Nat} (hk : k < n) (d d' : Nat) : (m.read fresh k d).1 = (m'.read fresh k d').1 := by
  obtain ⟨hsome, heq⟩ := h k hk
  obtain ⟨v, hv⟩ := Option.isSome_iff_exists.1 hsome
  simp only [Memory.read, ← heq, hv]

/-- The same values written from 0 on. -/
theorem Memory.agreeBelow_setList {α : Type} (m m' : Memory α) {n : Nat} {vs : List α} (h : n ≤ vs.length) :
    (m.setList 0 vs).AgreeBelow n (m'.setList 0 vs) := by
  intro k hk
  rw [Memory.get?_setList, Memory.get?_setList, if_pos (by omega), if_pos (by omega), Nat.sub_zero,
    List.getElem?_eq_getElem (by omega)]
  exact ⟨rfl, rfl⟩

theorem Memory.agreeBelow_ofList {α : Type} {n : Nat} {vs : List α} (h : n ≤ vs.length) :
    (Memory.ofList vs).AgreeBelow n (Memory.ofList vs) := by
  intro k hk
  rw [Memory.get?_ofList, List.getElem?_eq_getElem (by omega)]
  exact ⟨rfl, rfl⟩

/-! ### States and results that agree -/

/-- The states agree on what UNPACK reads, and OUT_LEN is 0 in both. -/
structure State.SamePayload (s s' : State) : Prop where
  params : s.params = s'.params
  outLen : s.outLen = 0
  outLen' : s'.outLen = 0
  inLen : s.inLen = s'.inLen
  inBuf : s.inBuf.AgreeBelow s.inLen.toNat s'.inBuf

/-- The states agree on what TREE_DESERIALIZE reads, and OUT_LEN is 0 in both. -/
structure State.SameBits (s s' : State) : Prop where
  params : s.params = s'.params
  outLen : s.outLen = 0
  outLen' : s'.outLen = 0
  bbLen : s.bbLen = s'.bbLen
  bitBuf : s.bitBuf.AgreeBelow s.bbLen.toNat s'.bitBuf

/-- The states agree on what DECODE_DATA reads, with a tree. -/
structure State.SameTree (s s' : State) : Prop extends s.SameBits s' where
  treeValid : s.treeValid = true
  treeValid' : s'.treeValid = true
  root : s.root = s'.root
  cursor : s.cursor = s'.cursor
  nodeCnt : s.nodeCnt = s'.nodeCnt
  node : s.node.AgreeBelow s.nodeCnt.toNat s'.node

/-- The states agree on the output. -/
structure State.SameOutput (s s' : State) : Prop where
  outLen : s.outLen = s'.outLen
  outBuf : s.outBuf.AgreeBelow s.outLen.toNat s'.outBuf

/-- The results end alike: both succeed, in states that are related, or both fail with the same error and no output. -/
inductive Result.Alike (R : State → State → Prop) : Result → Result → Prop where
  | success {t t' : State} : R t t' → Alike R (.success t) (.success t')
  | failed {e : Failure} {t t' : State} : t.outLen = 0 → t'.outLen = 0 → Alike R (.failed e t) (.failed e t')

theorem Result.Alike.andThen {R S : State → State → Prop} {r r' : Result} {f : State → Result} (h : Alike R r r')
    (hf : ∀ t t', R t t' → Alike S (f t) (f t')) : Alike S (r.andThen f) (r'.andThen f) := by
  cases h with
  | success hR => exact hf _ _ hR
  | failed hout hout' => exact .failed hout hout'

/-! ### The three primitives -/

/-- UNPACK makes the same checks on the same control byte, and puts the same bits into BITBUF (R99). -/
theorem State.SamePayload.unpackBody_alike {s s' : State} (h : s.SamePayload s') :
    Result.Alike State.SameBits (unpackBody s) (unpackBody s') := by
  obtain ⟨hparams, hout, hout', hlen, hbuf⟩ := h
  have hpayload : s.payload.1 = s'.payload.1 := by
    rw [State.payload, State.payload, ← hlen]
    exact hbuf.readRange_eq _ (by omega) _ _
  have hcontrol (hpos : s.inLen.toNat ≠ 0) : s.control.1 = s'.control.1 := by
    rw [State.control, State.control, ← hlen]
    exact hbuf.read_eq _ (by omega) _ _
  refine unpackBody_elim (P := fun r => Result.Alike State.SameBits r (unpackBody s')) s
    (fun hlong => ?long) (fun hcap hempty => ?empty) (fun hcap hpos hpad => ?padding)
    (fun hcap hpos hpad hroom hbb => ?room) (fun hcap hpos hpad hroom hbb => ?ok)
  case long =>
    rw [hparams, hlen] at hlong
    rw [unpackBody_long hlong, hlen]
    exact .failed hout hout'
  case empty =>
    rw [hparams, hlen] at hcap
    rw [hlen] at hempty
    rw [unpackBody_empty hcap hempty]
    exact .failed hout hout'
  case padding =>
    rw [hcontrol hpos, hlen] at hpad
    rw [hparams, hlen] at hcap
    rw [unpackBody_padding hcap (hlen ▸ hpos) hpad, hcontrol hpos]
    exact .failed hout hout'
  case room =>
    rw [hcontrol hpos] at hpad hroom hbb
    rw [hlen] at hroom
    rw [hparams, hlen] at hcap hbb
    rw [unpackBody_room hcap (hlen ▸ hpos) hpad hroom hbb, hcontrol hpos, hlen]
    exact .failed hout hout'
  case ok =>
    rw [hcontrol hpos] at hpad hroom hbb
    rw [hlen] at hroom
    rw [hparams, hlen] at hcap hbb
    rw [unpackBody_ok hcap (hlen ▸ hpos) hpad hroom hbb, hcontrol hpos, hpayload]
    exact .success ⟨hparams, hout, hout', rfl, Memory.agreeBelow_setList _ _ (Nat.mod_le _ _)⟩

/-- TREE_DESERIALIZE parses the same bits, and leaves the same tree and CURSOR (R118). -/
theorem State.SameBits.treeDeserializeBody_alike {s s' : State} (h : s.SameBits s') :
    Result.Alike State.SameTree (treeDeserializeBody s) (treeDeserializeBody s') := by
  obtain ⟨hparams, hout, hout', hlen, hbuf⟩ := h
  have hbits : (s.readBits 0).1 = (s'.readBits 0).1 := by
    rw [State.readBits, State.readBits, ← hlen]
    exact hbuf.readRange_eq _ (by omega) _ _
  refine treeDeserializeBody_elim (P := fun r => Result.Alike State.SameTree r (treeDeserializeBody s')) s
    (fun hlong => ?long) (fun c hcap hparse => ?malformed) (fun p hcap hparse => ?ok)
  case long =>
    rw [hparams, hlen] at hlong
    rw [treeDeserializeBody_long hlong, hlen]
    exact .failed hout hout'
  case malformed =>
    rw [hparams, hlen] at hcap
    rw [hbits] at hparse
    rw [treeDeserializeBody_malformed hcap hparse]
    exact .failed hout hout'
  case ok =>
    rw [hparams, hlen] at hcap
    rw [hbits] at hparse
    rw [treeDeserializeBody_ok hcap hparse]
    exact .success ⟨⟨hparams, hout, hout', hlen, hbuf⟩, rfl, rfl, rfl, rfl, rfl,
      Memory.agreeBelow_ofList (Nat.mod_le _ _)⟩

/-- DECODE_DATA walks the same tree on the same bits, so it emits the same bytes or fails at the same bit (R123). -/
theorem State.SameTree.decodeDataBody_alike {s s' : State} (h : s.SameTree s') :
    Result.Alike State.SameOutput (decodeDataBody s) (decodeDataBody s') := by
  obtain ⟨⟨hparams, hout, hout', hlen, hbuf⟩, hvalid, hvalid', hroot, hcursor, hcnt, hnode⟩ := h
  have harena : s.readArena.1 = s'.readArena.1 := by
    rw [State.readArena, State.readArena, ← hcnt]
    exact hnode.readRange_eq _ (by omega) _ _
  have hbits (hcur : s.cursor.toNat ≤ s.bbLen.toNat) : s.dataBits.1 = s'.dataBits.1 := by
    rw [State.dataBits, State.dataBits, ← hcursor, ← hlen]
    exact hbuf.readRange_eq _ (by omega) _ _
  refine decodeDataBody_elim (P := fun r => Result.Alike State.SameOutput r (decodeDataBody s')) s
    (fun hnone => ?noTree) (fun _ hlong => ?long) (fun _ hcap hcur => ?cursor) (fun c k _ hcap hcur hwalk => ?error)
    (fun out _ hcap hcur hwalk => ?ok)
  case noTree => exact absurd (hvalid.symm.trans hnone) (by decide)
  case long =>
    rw [hparams, hlen] at hlong
    rw [decodeDataBody_long hvalid' hlong, hlen]
    exact .failed rfl rfl
  case cursor =>
    rw [hparams, hlen] at hcap
    rw [hlen, hcursor] at hcur
    rw [decodeDataBody_cursor hvalid' hcap hcur, hcursor]
    exact .failed rfl rfl
  case error =>
    rw [harena, hroot, hparams, hcursor, hbits hcur] at hwalk
    rw [hparams, hlen] at hcap
    rw [hlen, hcursor] at hcur
    rw [decodeDataBody_error hvalid' hcap hcur hwalk]
    exact .failed rfl rfl
  case ok =>
    rw [harena, hroot, hparams, hcursor, hbits hcur] at hwalk
    rw [hparams, hlen] at hcap
    rw [hlen, hcursor] at hcur
    rw [decodeDataBody_ok hvalid' hcap hcur hwalk]
    exact .success ⟨rfl, Memory.agreeBelow_setList _ _ (Nat.mod_le _ _)⟩

/-- Results that end alike complete with the same report and OUT_LEN, and after a success with the same output. -/
theorem Result.Alike.same_report {r r' : Result} (h : Result.Alike State.SameOutput r r') :
    let t := complete r
    let t' := complete r'
    t.err = t'.err ∧ t.errInfo = t'.errInfo ∧ t.errOp = t'.errOp ∧ t.outLen = t'.outLen ∧
      (t.err = .ok → ∀ k, k < t.outLen.toNat → t.outBuf.get? k = t'.outBuf.get? k) := by
  cases h with
  | success hsame => exact ⟨rfl, rfl, rfl, hsame.outLen, fun _ k hk => (hsame.outBuf k hk).2⟩
  | failed hout hout' =>
    refine ⟨rfl, rfl, rfl, hout.trans hout'.symm, fun _ k hk => ?_⟩
    rw [complete_failed, State.completeWith_outLen, hout] at hk
    exact absurd hk (Nat.not_lt_zero k)

/-- Settles O51: the three primitives of DECOMPRESS end alike, one after another. -/
theorem decompressDependsOnlyOnThePayload : Obligations.DecompressDependsOnlyOnThePayload := by
  unfold Obligations.DecompressDependsOnlyOnThePayload
  intro s s' y hparams hlen hy hin hin'
  have hagree : s.inBuf.AgreeBelow s.inLen.toNat s'.inBuf := fun k hk => by
    rw [hy] at hk
    rw [hin k hk, hin' k hk, List.getElem?_eq_getElem hk]
    exact ⟨rfl, rfl⟩
  have hsame : State.SamePayload { s with outLen := 0 } { s' with outLen := 0 } := ⟨hparams, rfl, rfl, hlen, hagree⟩
  have halike : Result.Alike State.SameOutput (body .decompress s) (body .decompress s') :=
    (hsame.unpackBody_alike.andThen fun _ _ => State.SameBits.treeDeserializeBody_alike).andThen
      fun _ _ => State.SameTree.decodeDataBody_alike
  exact ⟨_, _, exec_eq .decompress s, exec_eq .decompress s', halike.same_report⟩

end Sys2Proof.Machine
end

section
/-!
PROOFS. What a command writes: no memory outside its Dest (O60) and never IRQ_EN, so that its completion raises irq
(O26).
-/

namespace Sys2Proof.Machine

/-! ### What a command may write -/

/-- From `s` to `t` no memory outside `ms` is written, nor, where NODE is outside, the registers that say which part of
it is the tree (R47, R48), nor IRQ_EN, which only HOST writes (R29). -/
structure State.WritesWithin (ms : List MemId) (s t : State) : Prop where
  inBuf : .inBuf ∉ ms → t.inBuf = s.inBuf := by exact fun _ => rfl
  outBuf : .outBuf ∉ ms → t.outBuf = s.outBuf := by exact fun _ => rfl
  bitBuf : .bitBuf ∉ ms → t.bitBuf = s.bitBuf := by exact fun _ => rfl
  freq : .freq ∉ ms → t.freq = s.freq := by exact fun _ => rfl
  node : .node ∉ ms → t.node = s.node ∧ t.root = s.root ∧ t.nodeCnt = s.nodeCnt := by exact fun _ => ⟨rfl, rfl, rfl⟩
  code : .code ∉ ms → t.code = s.code := by exact fun _ => rfl
  irqEn : t.irqEn = s.irqEn := by rfl

namespace State.WritesWithin

variable {ms : List MemId} {s t u : State}

theorem mono {ms' : List MemId} (h : s.WritesWithin ms t) (hms : ∀ m ∈ ms, m ∈ ms') : s.WritesWithin ms' t where
  inBuf hm := h.inBuf (mt (hms _) hm)
  outBuf hm := h.outBuf (mt (hms _) hm)
  bitBuf hm := h.bitBuf (mt (hms _) hm)
  freq hm := h.freq (mt (hms _) hm)
  node hm := h.node (mt (hms _) hm)
  code hm := h.code (mt (hms _) hm)
  irqEn := h.irqEn

theorem trans (h : s.WritesWithin ms t) (h' : t.WritesWithin ms u) : s.WritesWithin ms u where
  inBuf hm := (h'.inBuf hm).trans (h.inBuf hm)
  outBuf hm := (h'.outBuf hm).trans (h.outBuf hm)
  bitBuf hm := (h'.bitBuf hm).trans (h.bitBuf hm)
  freq hm := (h'.freq hm).trans (h.freq hm)
  node hm :=
    have ⟨hnode, hroot, hcnt⟩ := h.node hm
    have ⟨hnode', hroot', hcnt'⟩ := h'.node hm
    ⟨hnode'.trans hnode, hroot'.trans hroot, hcnt'.trans hcnt⟩
  code hm := (h'.code hm).trans (h.code hm)
  irqEn := h'.irqEn.trans h.irqEn

end State.WritesWithin

/-! ### Every command writes within its Dest

A way to end that writes no memory and no tree register needs no argument, `{ }`; for each of the others the memory it
writes, or whose registers it clears, is in Dest. -/

section Commands

variable (s : State)

theorem out2inBody_writes : s.WritesWithin [.inBuf] (out2inBody s).state :=
  out2inBody_elim (P := fun r => s.WritesWithin [.inBuf] r.state) s
    (capacity := fun _ => { })
    (ok := fun _ => { inBuf := absurd (List.mem_singleton_self _) })

theorem packBody_writes : s.WritesWithin [.outBuf] (packBody s).state :=
  packBody_elim (P := fun r => s.WritesWithin [.outBuf] r.state) s
    (long := fun _ => { })
    (room := fun _ _ => { })
    (ok := fun _ _ => { outBuf := absurd (List.mem_singleton_self _) })

theorem unpackBody_writes : s.WritesWithin [.bitBuf] (unpackBody s).state :=
  unpackBody_elim (P := fun r => s.WritesWithin [.bitBuf] r.state) s
    (long := fun _ => { })
    (empty := fun _ _ => { })
    (padding := fun _ _ _ => { })
    (room := fun _ _ _ _ _ => { })
    (ok := fun _ _ _ _ _ => { bitBuf := absurd (List.mem_singleton_self _) })

theorem freqBuildBody_writes : s.WritesWithin [.freq] (freqBuildBody s).state :=
  freqBuildBody_elim (P := fun r => s.WritesWithin [.freq] r.state) s
    (long := fun _ => { })
    (ok := fun _ => { freq := absurd (List.mem_singleton_self _) })

/-- A TREE_BUILD that fails clears ROOT and NODE_CNT too (R108). -/
theorem treeBuildBody_writes : s.WritesWithin [.node] (treeBuildBody s).state :=
  treeBuildBody_elim (P := fun r => s.WritesWithin [.node] r.state) s
    (noFreq := fun _ => { node := absurd (List.mem_singleton_self _) })
    (empty := fun _ _ => { node := absurd (List.mem_singleton_self _) })
    (ok := fun _ _ => { node := absurd (List.mem_singleton_self _) })

theorem codeExtractBody_writes : s.WritesWithin [.code] (codeExtractBody s).state :=
  codeExtractBody_elim (P := fun r => s.WritesWithin [.code] r.state) s
    (noTree := fun _ => { })
    (ok := fun _ => { code := absurd (List.mem_singleton_self _) })

theorem treeSerializeBody_writes : s.WritesWithin [.bitBuf] (treeSerializeBody s).state :=
  treeSerializeBody_elim (P := fun r => s.WritesWithin [.bitBuf] r.state) s
    (noTree := fun _ => { })
    (room := fun _ _ => { })
    (ok := fun _ _ => { bitBuf := absurd (List.mem_singleton_self _) })

/-- A TREE_DESERIALIZE that fails clears ROOT and NODE_CNT too (R118). -/
theorem treeDeserializeBody_writes : s.WritesWithin [.node] (treeDeserializeBody s).state :=
  treeDeserializeBody_elim (P := fun r => s.WritesWithin [.node] r.state) s
    (long := fun _ => { node := absurd (List.mem_singleton_self _) })
    (malformed := fun _ _ _ => { node := absurd (List.mem_singleton_self _) })
    (ok := fun _ _ _ => { node := absurd (List.mem_singleton_self _) })

/-- An ENCODE_DATA that fails in its loop leaves BITBUF unspecified from BB_LEN on (R120). -/
theorem encodeDataBody_writes : s.WritesWithin [.bitBuf] (encodeDataBody s).state :=
  encodeDataBody_elim (P := fun r => s.WritesWithin [.bitBuf] r.state) s
    (noCode := fun _ => { })
    (long := fun _ _ => { })
    (full := fun _ _ _ => { })
    (error := fun _ _ _ _ _ _ => { bitBuf := absurd (List.mem_singleton_self _) })
    (ok := fun _ _ _ _ _ => { bitBuf := absurd (List.mem_singleton_self _) })

/-- A DECODE_DATA that fails in its walk leaves OUT_BUF unspecified (R123). -/
theorem decodeDataBody_writes : s.WritesWithin [.outBuf] (decodeDataBody s).state :=
  decodeDataBody_elim (P := fun r => s.WritesWithin [.outBuf] r.state) s
    (noTree := fun _ => { })
    (long := fun _ _ => { })
    (cursor := fun _ _ _ => { })
    (error := fun _ _ _ _ _ _ => { outBuf := absurd (List.mem_singleton_self _) })
    (ok := fun _ _ _ _ _ => { outBuf := absurd (List.mem_singleton_self _) })

theorem primitive_writesWithin (i : Instr) (hi : i ∉ [Instr.compress, .decompress]) :
    s.WritesWithin (dest i) (body i s).state := by
  cases i with
  | nop => exact { }
  | freqBuild => exact freqBuildBody_writes s
  | treeBuild => exact treeBuildBody_writes s
  | codeExtract => exact codeExtractBody_writes s
  | treeSerialize => exact treeSerializeBody_writes s
  | encodeData => exact encodeDataBody_writes s
  | pack => exact packBody_writes s
  | unpack => exact unpackBody_writes s
  | treeDeserialize => exact treeDeserializeBody_writes s
  | decodeData => exact decodeDataBody_writes s
  | out2in => exact out2inBody_writes s
  | compress | decompress => exact absurd (by decide) hi

/-- One more part of a composite command, whose Dest is among the memories of the whole (R124, R126). -/
theorem State.WritesWithin.andThen {s : State} {ms : List MemId} {r : Result} (h : s.WritesWithin ms r.state)
    (i : Instr) (hi : i ∉ [Instr.compress, .decompress] := by decide) (hms : ∀ m ∈ dest i, m ∈ ms := by decide) :
    s.WritesWithin ms (r.andThen (body i)).state :=
  Result.andThen_state h fun t ht => ht.trans ((primitive_writesWithin t i hi).mono hms)

/-- A composite command first clears OUT_LEN (R124, R126). -/
theorem clearOutLen_writesWithin (ms : List MemId) : s.WritesWithin ms (Result.success { s with outLen := 0 }).state :=
  { }

theorem body_writesWithin (i : Instr) : s.WritesWithin (dest i) (body i s).state := by
  by_cases hi : i ∈ [Instr.compress, .decompress]
  · obtain rfl | rfl : i = .compress ∨ i = .decompress := by simpa using hi
    · exact (clearOutLen_writesWithin s _).andThen .freqBuild |>.andThen .treeBuild |>.andThen .codeExtract
        |>.andThen .treeSerialize |>.andThen .encodeData |>.andThen .pack
    · exact (clearOutLen_writesWithin s _).andThen .unpack |>.andThen .treeDeserialize |>.andThen .decodeData
  · exact primitive_writesWithin s i hi

/-- The completion writes touch no memory and not IRQ_EN (R88). -/
theorem complete_writesWithin (i : Instr) : s.WritesWithin (dest i) (complete (body i s)) :=
  complete_of_state (fun _ _ _ _ h => { h with }) (body_writesWithin s i)

end Commands

/-- Settles O60: the parts of a command write within its Dest, and its completion writes no memory. -/
theorem engineWritesOnlyDest : Obligations.EngineWritesOnlyDest := by
  unfold Obligations.EngineWritesOnlyDest
  intro i s t ht
  obtain rfl := (exec_eq_next i s t).1 ht
  have h := complete_writesWithin s i
  exact ⟨h.inBuf, h.outBuf, h.bitBuf, h.freq, h.node, h.code⟩

/-! ### The interrupt level -/

@[simp] theorem complete_done (r : Result) : (complete r).done = true := by
  cases r <;> rfl

@[simp] theorem State.irq_answer (s : State) (a : BusAnswer) : (s.answer a).irq = s.irq := rfl

theorem State.irq_of_not_done {s : State} (h : s.done = false) : s.irq = false := by
  rw [State.irq, h, Bool.and_false]

theorem State.irq_of_not_irqEn {s : State} (h : s.irqEn = false) : s.irq = false := by
  rw [State.irq, h, Bool.false_and]

/-- A CTRL write leaves IRQ_EN at its bit 0, or at 0 where it is a soft reset (R29). -/
theorem State.writeCtrl_irqEn (s : State) (v : Word) : (s.writeCtrl v).irqEn = (!v.getLsbD 1 && v.getLsbD 0) := by
  unfold State.writeCtrl
  cases v.getLsbD 1 <;> rfl

/-- Settles O26: a STATUS write and an issue clear DONE, a CTRL write IRQ_EN, and a soft reset both; a completion sets
DONE, and no command writes IRQ_EN. -/
theorem interruptLevel : Obligations.InterruptLevel := by
  unfold Obligations.InterruptLevel
  refine ⟨fun s => rfl, fun s v hv => ?status, fun s w he => ?issue, fun s v hv => ?ctrl,
    fun s => State.irq_of_not_done rfl, fun i s t hen ht => ?completion⟩
  case status =>
    rw [busWrite_status, State.irq_answer]
    refine State.irq_of_not_done ?_
    show (s.done && !v.getLsbD 1) = false
    rw [hv, Bool.not_true, Bool.and_false]
  case issue =>
    rw [busWrite_cmd he, State.irq_answer]
    exact State.irq_of_not_done rfl
  case ctrl =>
    rw [busWrite_ctrl, State.irq_answer]
    exact State.irq_of_not_irqEn (by rw [State.writeCtrl_irqEn, hv, Bool.and_false])
  case completion =>
    obtain rfl := (exec_eq_next i s t).1 ht
    rw [State.irq, complete_done, Bool.and_true, (complete_writesWithin s i).irqEn, hen]

end Sys2Proof.Machine
end

section
/-!
PROOFS. The resets: what power-on leaves (O1), and the soft reset, which keeps the memories outside Dest of the
discarded command (O20).
-/

namespace Sys2Proof.Machine

/-! ### Power-on -/

/-- STATUS does not show the parameters, so its reset value is that of one device. -/
theorem statusWord_powerOn (p : Config.Params) : statusWord (State.powerOn p) = 0 :=
  calc statusWord (State.powerOn p)
    _ = statusWord State.reset := rfl
    _ = 0 := by decide

/-- Every register but the constant ones of R26 to R28 resets to 0 (R25). -/
theorem readReg_powerOn_eq_zero (p : Config.Params) {r : Reg}
    (hr : r ∉ [Reg.id, .version, .inCapR, .outCapR, .bbCapR, .nodeCapR]) : readReg (State.powerOn p) r = 0 := by
  cases r with
  | id | version | inCapR | outCapR | bbCapR | nodeCapR => exact absurd (by decide) hr
  | status => exact statusWord_powerOn p
  | _ => rfl

/-- Settles O1: the reset state by its definition, and an Idle machine with no host access to come waits. -/
theorem resetLeavesTheSpecValues : Obligations.ResetLeavesTheSpecValues := by
  unfold Obligations.ResetLeavesTheSpecValues
  intro p s
  have hwritable : ∀ r ∈ [Reg.ctrl, .cmd, .status, .errInfo, .errOp, .inLen, .outLen, .bbLen, .cursor, .root, .nodeCnt,
      .symCnt, .pad], r ∉ [Reg.id, .version, .inCapR, .outCapR, .bbCapR, .nodeCapR] := by decide
  exact ⟨⟨rfl, rfl, rfl, rfl, rfl⟩, ⟨rfl, rfl, rfl, rfl, rfl, rfl⟩,
    fun r hr => readReg_powerOn_eq_zero p (hwritable r hr), fun k => ⟨rfl, rfl, rfl, rfl, rfl, rfl⟩,
    step_idle_no_input rfl rfl⟩

/-! ### Dest -/

section Dest

variable (i : Instr)

/-- Which commands have each memory in their Dest: the table of R146, read by its columns. -/
theorem inBuf_mem_dest : .inBuf ∈ dest i ↔ i = .out2in := by
  cases i <;> decide

theorem outBuf_mem_dest : .outBuf ∈ dest i ↔ i ∈ [Instr.pack, .decodeData, .compress, .decompress] := by
  cases i <;> decide

theorem bitBuf_mem_dest :
    .bitBuf ∈ dest i ↔ i ∈ [Instr.treeSerialize, .encodeData, .unpack, .compress, .decompress] := by
  cases i <;> decide

theorem freq_mem_dest : .freq ∈ dest i ↔ i ∈ [Instr.freqBuild, .compress] := by
  cases i <;> decide

theorem node_mem_dest : .node ∈ dest i ↔ i ∈ [Instr.treeBuild, .treeDeserialize, .compress, .decompress] := by
  cases i <;> decide

theorem code_mem_dest : .code ∈ dest i ↔ i ∈ [Instr.codeExtract, .compress] := by
  cases i <;> decide

end Dest

theorem destPending_idle {s : State} (he : s.eng = .idle) : s.destPending = [] := by
  simp only [State.destPending, he]

theorem destPending_illegal {s : State} {w : Word} {e : Reject} (he : s.eng = .pending w) (hd : decode w = .error e) :
    s.destPending = [] := by
  simp only [State.destPending, he, hd]

theorem destPending_command {s : State} {w : Word} {i : Instr} (he : s.eng = .pending w) (hd : decode w = .ok i) :
    s.destPending = dest i := by
  simp only [State.destPending, he, hd]

/-! ### The soft reset -/

/-- No register shows that the host goes on after a soft reset, or which memories it kept (R145). -/
theorem readReg_softReset (s : State) (r : Reg) : readReg s.softReset r = readReg (State.powerOn s.params) r := by
  cases r <;> rfl

/-- A soft reset that loses no memory keeps each (R145). -/
theorem softReset_keeps_memories {s : State} (h : s.destPending = []) :
    s.softReset.inBuf = s.inBuf ∧ s.softReset.outBuf = s.outBuf ∧ s.softReset.bitBuf = s.bitBuf ∧
      s.softReset.freq = s.freq ∧ s.softReset.node = s.node ∧ s.softReset.code = s.code := by
  simp only [State.softReset, h, List.not_mem_nil, if_false, and_self]

/-- Settles O20: the registers are those of power-on, and the memories go by Dest of the pending command. -/
theorem softResetRule : Obligations.SoftResetRule := by
  unfold Obligations.SoftResetRule
  intro s t
  refine ⟨readReg_softReset s, rfl, rfl, rfl, softReset_keeps_memories, destPending_idle,
    fun w e => destPending_illegal, fun w i he hd => ?_⟩
  simp only [t, State.softReset, destPending_command he hd, inBuf_mem_dest, outBuf_mem_dest, bitBuf_mem_dest,
    freq_mem_dest, node_mem_dest, code_mem_dest, and_self]

end Sys2Proof.Machine
end
